-- ==== Sys2Proof/Word.lean ====
section
/-! DEFINITION. The word types of the SQH core: 512-bit data words, 32-bit host words, bytes, command fields. -/

namespace Sys2Proof

/-- A 512-bit value: a Bit Block, a State, the extractor's `h1` or a Digest (10_state.md R20). -/
abbrev Word := BitVec 512

/-- A word of the host window, or a command word (20_memory.md R44, 30_encoding.md R60). -/
abbrev Word32 := BitVec 32

/-- A byte of the message space (20_memory.md R40). -/
abbrev Byte := BitVec 8

/-- A 4-bit register field of a command word, legal values 0..7 (30_encoding.md R61, R65). -/
abbrev RegField := BitVec 4

/-- The 12-bit unsigned immediate field (30_encoding.md R61, R64). -/
abbrev Imm := BitVec 12

end Sys2Proof
end

