-- ==== Sys2Proof/Syntax.lean ====
section
/-! DEFINITION. The ten commands of the SQH core (30_encoding.md R63), one constructor per row of the opcode table,
and their listing syntax (R68). -/

namespace Sys2Proof

/-- The commands. A register operand is the 4-bit field of the command word; `WellFormed` says which values are legal. -/
inductive Instr where
  /-- `LDI wd, #imm` (48_load_commands.md R185) -/
  | ldi (wd : RegField) (imm : Imm)
  /-- `LDB wd` (48_load_commands.md R186) -/
  | ldb (wd : RegField)
  /-- `ROL wd, wa, #imm` (41_bit_utilities.md R94) -/
  | rol (wd wa : RegField) (imm : Imm)
  /-- `ROR wd, wa, #imm` (41_bit_utilities.md R95) -/
  | ror (wd wa : RegField) (imm : Imm)
  /-- `INV wd, wa` (41_bit_utilities.md R96) -/
  | inv (wd wa : RegField)
  /-- `ENC wd` (42_block_encoder.md R107) -/
  | enc (wd : RegField)
  /-- `MIX wd, wa, wb`: `wa` the block, `wb` the previous state (43_modexp_mixer.md R133) -/
  | mix (wd wa wb : RegField)
  /-- `EXT wd, wa, wb`: `wa` the block, `wb` the seed state (45_arctan_symbolizer.md R167) -/
  | ext (wd wa wb : RegField)
  /-- `FMIX wd, wa, wb`: `wa` is `h1`, `wb` is `h2` (46_final_mixer.md R171) -/
  | fmix (wd wa wb : RegField)
  /-- `DIGEST wd` (47_orchestrator.md R177) -/
  | digest (wd : RegField)
deriving DecidableEq, Repr

/-- The one pseudo-instruction, `MOV wd, wa`, is `ROL wd, wa, #0` (R69). -/
def Instr.mov (wd wa : RegField) : Instr := .rol wd wa 0

/-- The destination register, which every command names (R62). -/
def Instr.dest : Instr → RegField
  | .ldi wd _ => wd
  | .ldb wd => wd
  | .rol wd _ _ => wd
  | .ror wd _ _ => wd
  | .inv wd _ => wd
  | .enc wd => wd
  | .mix wd _ _ => wd
  | .ext wd _ _ => wd
  | .fmix wd _ _ => wd
  | .digest wd => wd

/-- A register as a listing prints it (R68). -/
def regName (r : RegField) : String := "W" ++ toString r.toNat

/-- An immediate as a listing prints it, in decimal (R68). -/
def immText (i : Imm) : String := "#" ++ toString i.toNat

/-- The listing line of a command: mnemonic in capitals, destination first, operands separated by commas (R68). -/
def Instr.listing : Instr → String
  | .ldi wd imm => "LDI " ++ regName wd ++ ", " ++ immText imm
  | .ldb wd => "LDB " ++ regName wd
  | .rol wd wa imm => "ROL " ++ regName wd ++ ", " ++ regName wa ++ ", " ++ immText imm
  | .ror wd wa imm => "ROR " ++ regName wd ++ ", " ++ regName wa ++ ", " ++ immText imm
  | .inv wd wa => "INV " ++ regName wd ++ ", " ++ regName wa
  | .enc wd => "ENC " ++ regName wd
  | .mix wd wa wb => "MIX " ++ regName wd ++ ", " ++ regName wa ++ ", " ++ regName wb
  | .ext wd wa wb => "EXT " ++ regName wd ++ ", " ++ regName wa ++ ", " ++ regName wb
  | .fmix wd wa wb => "FMIX " ++ regName wd ++ ", " ++ regName wa ++ ", " ++ regName wb
  | .digest wd => "DIGEST " ++ regName wd

end Sys2Proof
end

