-- ==== Sys2Proof/WellFormed.lean ====
section
/-! DEFINITION. Which commands are legal: every register field a command uses names one of W0..W7 (30_encoding.md R65).
Every value of an immediate is legal (R64). -/

namespace Sys2Proof

/-- A register field names a data register when its value is 0..7 (R65). -/
def legalReg (r : RegField) : Bool := decide (r.toNat < 8)

/-- The command's used register fields are all legal (R65, R66). -/
def Instr.wellFormed : Instr → Bool
  | .ldi wd _ => legalReg wd
  | .ldb wd => legalReg wd
  | .rol wd wa _ => legalReg wd && legalReg wa
  | .ror wd wa _ => legalReg wd && legalReg wa
  | .inv wd wa => legalReg wd && legalReg wa
  | .enc wd => legalReg wd
  | .mix wd wa wb => legalReg wd && legalReg wa && legalReg wb
  | .ext wd wa wb => legalReg wd && legalReg wa && legalReg wb
  | .fmix wd wa wb => legalReg wd && legalReg wa && legalReg wb
  | .digest wd => legalReg wd

end Sys2Proof
end

