-- ==== Sys2Proof/Decode.lean ====
section
/-! DEFINITION. The decoder, total on 32-bit words, and the encoder (30_encoding.md R60 to R70). -/

namespace Sys2Proof

/-- The five fields of a command word, at the same places in every command (R61). -/
structure Fields where
  op : BitVec 8
  wd : RegField
  wa : RegField
  wb : RegField
  imm : Imm
deriving DecidableEq, Repr

/-- `op` is bits [31:24], `wd` [23:20], `wa` [19:16], `wb` [15:12], `imm` [11:0] (R61). -/
def Fields.ofWord (c : Word32) : Fields where
  op := c.extractLsb' 24 8
  wd := c.extractLsb' 20 4
  wa := c.extractLsb' 16 4
  wb := c.extractLsb' 12 4
  imm := c.extractLsb' 0 12

/-- The command word of five fields (R61). -/
def Fields.toWord (f : Fields) : Word32 := f.op ++ f.wd ++ f.wa ++ f.wb ++ f.imm

/-- The five formats (R62). -/
inductive Format where
  | n | i | u | s | r
deriving DecidableEq, Repr

/-- The mask of a format: `op`, bit 3 of every register field the format uses, and every bit of a field it does not
use (R62, R63). -/
def Format.mask : Format → Word32
  | .n => 0xFF8FFFFF#32
  | .i => 0xFF8FF000#32
  | .u => 0xFF88FFFF#32
  | .s => 0xFF88F000#32
  | .r => 0xFF888FFF#32

/-- A row of the opcode map (R63). -/
structure Row where
  mnemonic : String
  format : Format
  op : BitVec 8
  pattern : Word32
  command : Fields → Instr

/-- The opcode map, in the table's order (R63). -/
def opcodeMap : List Row := [
  ⟨"LDI", .i, 0x01#8, 0x01000000#32, fun f => .ldi f.wd f.imm⟩,
  ⟨"LDB", .n, 0x02#8, 0x02000000#32, fun f => .ldb f.wd⟩,
  ⟨"ROL", .s, 0x10#8, 0x10000000#32, fun f => .rol f.wd f.wa f.imm⟩,
  ⟨"ROR", .s, 0x11#8, 0x11000000#32, fun f => .ror f.wd f.wa f.imm⟩,
  ⟨"INV", .u, 0x12#8, 0x12000000#32, fun f => .inv f.wd f.wa⟩,
  ⟨"ENC", .n, 0x20#8, 0x20000000#32, fun f => .enc f.wd⟩,
  ⟨"MIX", .r, 0x30#8, 0x30000000#32, fun f => .mix f.wd f.wa f.wb⟩,
  ⟨"EXT", .r, 0x40#8, 0x40000000#32, fun f => .ext f.wd f.wa f.wb⟩,
  ⟨"FMIX", .r, 0x50#8, 0x50000000#32, fun f => .fmix f.wd f.wa f.wb⟩,
  ⟨"DIGEST", .n, 0x60#8, 0x60000000#32, fun f => .digest f.wd⟩]

/-- A word is the command of a row exactly when its masked bits are the row's pattern (R63). -/
def Row.matchesWord (r : Row) (c : Word32) : Bool := c &&& r.format.mask == r.pattern

/-- `Decode(c)`: the row of `op`, and the command with its fields if the word matches it; `none` is Illegal (R70, R66). -/
def decode (c : Word32) : Option Instr :=
  match opcodeMap.find? (fun r => r.op == (Fields.ofWord c).op) with
  | none => none
  | some r => if r.matchesWord c then some (r.command (Fields.ofWord c)) else none

/-- The fields of a command, those its format does not use being zero (R62, R63). -/
def Instr.fields : Instr → Fields
  | .ldi wd imm => ⟨0x01#8, wd, 0#4, 0#4, imm⟩
  | .ldb wd => ⟨0x02#8, wd, 0#4, 0#4, 0#12⟩
  | .rol wd wa imm => ⟨0x10#8, wd, wa, 0#4, imm⟩
  | .ror wd wa imm => ⟨0x11#8, wd, wa, 0#4, imm⟩
  | .inv wd wa => ⟨0x12#8, wd, wa, 0#4, 0#12⟩
  | .enc wd => ⟨0x20#8, wd, 0#4, 0#4, 0#12⟩
  | .mix wd wa wb => ⟨0x30#8, wd, wa, wb, 0#12⟩
  | .ext wd wa wb => ⟨0x40#8, wd, wa, wb, 0#12⟩
  | .fmix wd wa wb => ⟨0x50#8, wd, wa, wb, 0#12⟩
  | .digest wd => ⟨0x60#8, wd, 0#4, 0#4, 0#12⟩

/-- The command word of a command (R61 to R63). -/
def encode (i : Instr) : Word32 := i.fields.toWord

/-- The instruction the decoder reads from the `nbits` low bits of `w`, the command word's bits above them being zero.
A command is one 32-bit word that the host writes to CMD (R60), so its bits are numbered as the word's own; there is
no longer command. -/
def decodeTableWord (nbits w : Nat) : Option Instr :=
  if nbits ≤ 32 then decode (BitVec.ofNat 32 (w % 2 ^ nbits)) else none

end Sys2Proof
end

