-- ==== Sys2Proof/Config.lean ====
section
/-! DEFINITION. What an implementation fixes and the spec leaves open (00_scope.md R9, 93_implementation_defined.md):
MSGCAP, the initial message bytes, QUANT_MUL. NUM is `Config.num` of Machine/Elementary.lean. -/

namespace Sys2Proof

/-- The two readings of QUANT_MUL (43_modexp_mixer.md R119). -/
inductive QuantMul where
  /-- the exact rational product with `2^256 - 1` -/
  | exact
  /-- MAXQ first rounded to binary64, which makes it `2^256` -/
  | binary64
deriving DecidableEq, Repr

/-- How many 32-bit words the message buffer holds above the least number, 32 (R9: MSGCAP is at least 128 and a
multiple of 4; R102: MSGCAP is below 2^32). Open: a free value (log 2). -/
opaque Config.msgCapExtraWords : Fin 1073741792

/-- MSGCAP, the capacity in bytes of the message buffer: a multiple of 4 in 128 .. 2^32 - 4 (R9, R102; log 2). -/
def Config.msgCap : Nat := 4 * Config.msgCapExtraWords.val + 128

/-- The unspecified byte that MSG holds at an address after reset (10_state.md R34, R214; U5). Open: a free value,
the same on every read until the host writes the byte (log 1). -/
opaque Config.msgInit : Nat → Byte

/-- QUANT_MUL of this hardware (R9, R119, decision D24). -/
def Config.quantMul : QuantMul := .exact

end Sys2Proof
end

