-- ==== Sys2Proof/Machine/State.lean ====
section
/-! DEFINITION. The state of the SQH core as plain data, the reasons a step can stop, and the state after reset. -/

namespace Sys2Proof.Machine

/-- The message bytes the host has written since reset, in canonical form: addresses strictly rising, at most one
entry an address (`Memory.wf`). An unlisted address holds no written byte. -/
abbrev Memory := List Host.Cell

/-- One access of the host to the host window (70_reset_and_hazards.md R216). `word` is a word index: the byte offset
of 20_memory.md R43 is `4 * word`, so a misaligned access cannot be expressed (R46; log 6). -/
inductive HostAction where
  /-- `HostWrite(4 * word, value)` (R44) -/
  | write (word : Nat) (value : Word32)
  /-- `HostRead(4 * word)` (R44) -/
  | read (word : Nat)
deriving DecidableEq, Repr

/-- The state: what 10_state.md R20 to R27 give the core, and two fields of the model's own that hold the host's side
of a run (R22, R216; log 5). -/
structure State where
  /-- the data registers W0..W7 (R20) -/
  w : Vector Word 8
  /-- STATUS.ERR, bits [3:0] of STATUS; bits [31:4] are hard-wired 0 and not stored (R23) -/
  err : BitVec 4
  /-- ERRINFO (R24) -/
  errInfo : Word32
  /-- MSGLEN (R25) -/
  msgLen : Word32
  /-- MSG, the message buffer (R27): the bytes written since reset -/
  msg : Memory
  /-- the host actions still to be performed, oldest first (R22; the model's own field, log 5) -/
  pending : List HostAction
  /-- the words the host's reads have returned, oldest first (R216; the model's own field, log 5) -/
  answers : List Word32
deriving DecidableEq, Repr

/-- Faults. There is none: no condition stops the core (60_exceptions.md R198), every error is recorded in STATUS.ERR
and the machine goes on (R194). -/
inductive Fault where
deriving DecidableEq, Repr

/-- Refusals. -/
inductive Refusal where
  /-- Raised by an arm of `exec` that has no meaning yet; no arm of this model raises it. Safe: nothing is claimed of
  the command. -/
  | notModelled (mnemonic : String)
deriving DecidableEq, Repr

/-- The state after reset (R34, R211): registers, ERR, ERRINFO and MSGLEN zero, no message byte written (log 1), no
host action pending and none answered (log 5). -/
def State.reset : State where
  w := Vector.replicate 8 0
  err := 0
  errInfo := 0
  msgLen := 0
  msg := []
  pending := []
  answers := []

end Sys2Proof.Machine
end

