-- ==== Sys2Proof/Machine/Flags.lean ====
section
/-! DEFINITION. The one flag of the machine, STATUS.ERR (10_state.md R23): the error kinds, their codes, and the STATUS
word. No command sets a carry, zero, sign or overflow indication (R23). -/

namespace Sys2Proof.Machine

/-- The error kinds (60_exceptions.md R190). -/
inductive ErrorKind where
  /-- raised by LDB where MSGLEN is not 64 (R191) -/
  | invalidBlockLength
  /-- reserved for the host's own UTF-8 check; never raised by the core (R192) -/
  | encodingError
  /-- raised by a CMD write of an illegal word (R193) -/
  | illegalCommand
  /-- raised by ENC, DIGEST and LDB where MSGLEN exceeds MSGCAP (R193) -/
  | lengthRange
deriving DecidableEq, Repr

/-- The code an error kind leaves in STATUS.ERR (R190); 0 says that no error is recorded. -/
def ErrorKind.code : ErrorKind → BitVec 4
  | .invalidBlockLength => 1
  | .encodingError => 2
  | .illegalCommand => 3
  | .lengthRange => 4

/-- The STATUS word: ERR in bits [3:0], bits [31:4] hard-wired 0 (R23). -/
def statusWord (s : State) : Word32 := s.err.setWidth 32

/-- The values of ERR that the core can hold (R23). -/
def legalErr (e : BitVec 4) : Bool := e == 0 || e == 1 || e == 3 || e == 4

end Sys2Proof.Machine
end

