-- ==== Sys2Proof/Machine/Ops.lean ====
section
/-! DEFINITION. The named operations over the registers, the message memory and the error state, `raise` (what taking an
exception is on this hardware) and the clearing of an error (what returning from one is). -/

namespace Sys2Proof.Machine

/-! ### Data registers (10_state.md R20, R21) -/

/-- The number of the data register a register field names; the field of a legal command is below 8 (R65). -/
def regIndex (r : RegField) : Fin 8 := ⟨r.toNat % 8, Nat.mod_lt _ (by decide)⟩

/-- `W[r]`. -/
def readReg (r : RegField) (s : State) : Word := s.w[regIndex r]

/-- `W[r] <- v`; nothing else is written. -/
def writeReg (r : RegField) (v : Word) (s : State) : State := { s with w := s.w.set (regIndex r) v }

/-! ### The message memory (20_memory.md R40 to R42) -/

/-- The canonical form: addresses strictly rising from `low` on. -/
def Memory.wfFrom (low : Nat) : Memory → Bool
  | [] => true
  | c :: m => decide (low ≤ c.1) && Memory.wfFrom (c.1 + 1) m

/-- The canonical form of the written bytes: addresses strictly rising. An unlisted address holds no written byte, and an
entry is always a written byte, so no entry equals what an unlisted address holds. -/
def Memory.wf (m : Memory) : Bool := Memory.wfFrom 0 m

/-- The byte written last at an address, if one has been written. -/
def Memory.get (a : Nat) : Memory → Option Byte
  | [] => none
  | c :: m => if c.1 = a then some c.2 else Memory.get a m

/-- A byte written at an address, in the canonical form. -/
def Memory.set (a : Nat) (b : Byte) : Memory → Memory
  | [] => [(a, b)]
  | c :: m =>
    if a < c.1 then (a, b) :: c :: m
    else if a = c.1 then (a, b) :: m
    else c :: Memory.set a b m

/-- `MSG[a]`: the byte written last, or the unspecified byte the buffer held after reset (R34, R214; log 1). -/
def msgByte (a : Nat) (s : State) : Byte := (Memory.get a s.msg).getD (Config.msgInit a)

/-- `MsgRead(a, n)`: the bytes at `a .. a + n - 1`, lowest address first (R42). -/
def msgRead (a n : Nat) (s : State) : List Byte := (List.range n).map (fun k => msgByte (a + k) s)

/-- Bytes stored at rising addresses from `a` on. -/
def Memory.setMany (a : Nat) : List Byte → Memory → Memory
  | [], m => m
  | b :: bs, m => Memory.setMany (a + 1) bs (Memory.set a b m)

/-- `MsgWrite(a, n, bytes)`; only the host performs it (R42). -/
def msgWrite (a : Nat) (bytes : List Byte) (s : State) : State := { s with msg := Memory.setMany a bytes s.msg }

/-! ### Errors (60_exceptions.md R194 to R197) -/

/-- `raise E(c)`: sticky-first, so ERR and ERRINFO change only where ERR is 0, and nothing else is written (R194, R195).
The core has no program counter, mode or handler to save or enter (R194). -/
def raise (e : ErrorKind) (c : Word32) (s : State) : State :=
  if s.err = 0 then { s with err := e.code, errInfo := c } else s

/-- The host's acknowledgement of an error: ERR and ERRINFO become 0, nothing else changes (R197). -/
def clearError (s : State) : State := { s with err := 0, errInfo := 0 }

/-- A host write of STATUS: write-one-to-clear on bits [3:0]; a word with none of them set changes nothing (R23, R197). -/
def writeStatus (v : Word32) (s : State) : State := if v.extractLsb' 0 4 = 0 then s else clearError s

/-! ### The frame of a command -/

/-- A command's effect where every register field it uses is legal; otherwise its word is an illegal one, and raises
IllegalCommand (R65, R66, R193). The decoder answers only legal commands (log 9). -/
def ifLegal (i : Instr) (s effect : State) : Host.Outcome State Fault Refusal :=
  if i.wellFormed then .next effect else .next (raise .illegalCommand (encode i) s)

/-- The length check of ENC, DIGEST and LDB, done before anything else (R193, R196). -/
def ifInRange (i : Instr) (s effect : State) : State :=
  if Config.msgCap < s.msgLen.toNat then raise .lengthRange (encode i) s else effect

end Sys2Proof.Machine
end

