-- ==== Sys2Proof/Machine/Operands.lean ====
section
/-! DEFINITION. The operand forms (30_encoding.md R64, R65): register operands (`readReg`), the immediate, and the implicit
message operand; and the packing of bytes into a 512-bit value. -/

namespace Sys2Proof.Machine

/-- The immediate of LDI, zero-extended to 512 bits (R64). -/
def immWord (imm : Imm) : Word := imm.setWidth 512

/-- The immediate of ROL and ROR, a rotation count 0..4095 (R64). -/
def immCount (imm : Imm) : Nat := imm.toNat

/-- The implicit message operand of LDB, ENC and DIGEST, `MsgRead(0, MSGLEN)` (R65). -/
def message (s : State) : List Byte := msgRead 0 s.msgLen.toNat s

/-- Bytes as one unsigned integer, the first the most significant (20_memory.md R45). -/
def bytesToNat (bytes : List Byte) : Nat := bytes.foldl (fun n b => n * 256 + b.toNat) 0

/-- 64 bytes as a block, the first byte in bits [511:504] (48_load_commands.md R186, 42_block_encoder.md R103). -/
def bytesToWord (bytes : List Byte) : Word := BitVec.ofNat 512 (bytesToNat bytes)

/-- `n` bytes of an integer, the most significant first; `BE64` of 42_block_encoder.md R102 for `n` = 8. -/
def natToBytes (n v : Nat) : List Byte := (List.range n).map (fun k => BitVec.ofNat 8 (v >>> (8 * (n - 1 - k))))

end Sys2Proof.Machine
end

