-- ==== Sys2Proof/Machine/Load.lean ====
section
/-! DEFINITION. The register load commands LDI and LDB (48_load_commands.md). -/

namespace Sys2Proof.Machine

/-- LDI `wd, #imm` (R185). -/
def execLdi (wd : RegField) (imm : Imm) (s : State) : Host.Outcome State Fault Refusal :=
  ifLegal (.ldi wd imm) s (writeReg wd (immWord imm) s)

/-- LDB `wd`: LengthRange, then InvalidBlockLength, then the 64 message bytes, the first the most significant (R186). -/
def execLdb (wd : RegField) (s : State) : Host.Outcome State Fault Refusal :=
  ifLegal (.ldb wd) s (ifInRange (.ldb wd) s
    (if s.msgLen.toNat ≠ 64 then raise .invalidBlockLength (encode (.ldb wd)) s
     else writeReg wd (bytesToWord (message s)) s))

end Sys2Proof.Machine
end

