-- ==== Sys2Proof/Machine/Encoder.lean ====
section
/-! DEFINITION. The Block Encoder (42_block_encoder.md) and its command ENC. -/

namespace Sys2Proof.Machine

/-- The number of zero bytes of the padding of an `n`-byte message, `(55 - n) mod 64` (R102). -/
def padZeros (n : Nat) : Nat := ((55 - (n : Int)) % 64).toNat

/-- `Pad(m)`: the message, a 1 bit, zero bits, and the bit length as 64 big-endian bits (R102). -/
def pad (m : List Byte) : List Byte :=
  m ++ [0x80#8] ++ List.replicate (padZeros m.length) 0#8 ++ natToBytes 8 (8 * m.length % 2 ^ 64)

/-- How many 512-bit chunks the padded message of `n` bytes has (R103). -/
def chunkCount (n : Nat) : Nat := (n + 8) / 64 + 1

/-- `Chunks(m)`: chunk `j` is bytes `64 j .. 64 j + 63` of `Pad(m)`, big-endian (R103). -/
def chunks (m : List Byte) : List Word :=
  (List.range (chunkCount m.length)).map (fun j => bytesToWord (((pad m).drop (64 * j)).take 64))

/-- `Fold`: the XOR of all chunks (R104). -/
def fold (cs : List Word) : Word := cs.foldl (fun acc c => acc ^^^ c) 0

/-- `EncodeToBlock(m)` (R105). -/
def encodeToBlock (m : List Byte) : Word := fold (chunks m)

/-- ENC `wd` (R107). -/
def execEnc (wd : RegField) (s : State) : Host.Outcome State Fault Refusal :=
  ifLegal (.enc wd) s (ifInRange (.enc wd) s (writeReg wd (encodeToBlock (message s)) s))

end Sys2Proof.Machine
end

