-- ==== Sys2Proof/Machine/Bits.lean ====
section
/-! DEFINITION. The Bit/Word Utilities (41_bit_utilities.md) and their commands ROL, ROR, INV. -/

namespace Sys2Proof.Machine

/-- `RotL(x, r)`: with `r' = r mod 512`, `((x << r') mod 2^512) + (x >> (512 - r'))` (R90). -/
def rotL (x : Word) (r : Nat) : Word := (x <<< (r % 512)) + (x >>> (512 - r % 512))

/-- `RotR(x, r)`: with `r' = r mod 512`, `(x >> r') + ((x << (512 - r')) mod 2^512)` (R91). -/
def rotR (x : Word) (r : Nat) : Word := (x >>> (r % 512)) + (x <<< (512 - r % 512))

/-- `Inv512(x) = x XOR (2^512 - 1)` (R92). -/
def inv512 (x : Word) : Word := x ^^^ BitVec.allOnes 512

/-- The diffusion step `Diffuse(x, r) = x XOR RotL(Inv512(x), r)` (R93 (g)). -/
def diffuse (x : Word) (r : Nat) : Word := x ^^^ rotL (inv512 x) r

/-- ROL `wd, wa, #imm` (R94). -/
def execRol (wd wa : RegField) (imm : Imm) (s : State) : Host.Outcome State Fault Refusal :=
  ifLegal (.rol wd wa imm) s (writeReg wd (rotL (readReg wa s) (immCount imm)) s)

/-- ROR `wd, wa, #imm` (R95). -/
def execRor (wd wa : RegField) (imm : Imm) (s : State) : Host.Outcome State Fault Refusal :=
  ifLegal (.ror wd wa imm) s (writeReg wd (rotR (readReg wa s) (immCount imm)) s)

/-- INV `wd, wa` (R96). -/
def execInv (wd wa : RegField) (s : State) : Host.Outcome State Fault Refusal :=
  ifLegal (.inv wd wa) s (writeReg wd (inv512 (readReg wa s)) s)

end Sys2Proof.Machine
end

