-- ==== Sys2Proof/Machine/F64.lean ====
section
/-! DEFINITION. The floating-point domain F64 of 00_scope.md R13 to R16: IEEE-754 binary64 values, their exact
rational value, rounding to nearest with ties to even, and the operators, one rounding each. -/

namespace Sys2Proof

/-- The least exponent of a finite binary64 is -1074 (R13); exponents are counted from it. -/
@[irreducible] def F64.leastExp : Nat := 1074

/-- A binary64 value (R13). `finite neg mant exp` is `(-1)^neg * mant * 2^(exp - 1074)`: the exponent is counted from
the least one, -1074, so that it is never negative. -/
inductive F64 where
  | finite (neg : Bool) (mant exp : Nat)
  | infinite (neg : Bool)
  | nan
deriving DecidableEq, Repr

/-- The finite values of R13 in their one canonical form: `mant < 2^53`, exponent -1074 .. 971, and a significand of
full length unless the exponent is the least. -/
def F64.canonical : F64 → Bool
  | .finite _ m e => decide (m < 2 ^ 53) && decide (e ≤ 2045) && (decide (e = 0) || decide (2 ^ 52 ≤ m))
  | .infinite _ => true
  | .nan => true

/-- The value is finite. -/
def F64.isFinite : F64 → Bool
  | .finite _ _ _ => true
  | .infinite _ => false
  | .nan => false

/-- A zero of a given sign. -/
def F64.zero (neg : Bool) : F64 := .finite neg 0 0

/-- An integer with a given sign. -/
def signed (neg : Bool) (n : Nat) : Int := if neg then -(n : Int) else n

/-- `RatOf(f)`, the exact value of a finite `f` (R13); of the two powers of 2 one is 1. The spec gives a NaN or an infinity
no exact value; the model answers 0 (DESIGN CHOICE, log 7). -/
def F64.rat : F64 → ℚ
  | .finite neg m e => mkRat (signed neg (m * 2 ^ (e - F64.leastExp))) (2 ^ (F64.leastExp - e))
  | .infinite _ => 0
  | .nan => 0

/-- The quotient `n / d` rounded to the nearest integer, a tie going to the even one. -/
def divNearestEven (n d : Nat) : Nat :=
  let q := n / d
  let r := n % d
  if d < 2 * r ∨ (2 * r = d ∧ q % 2 = 1) then q + 1 else q

/-- The exponent, counted from -1074, of the binary64 nearest `n / d`: the significand gets 53 bits, or fewer where the
exponent is already the least. -/
def roundExp (n d : Nat) : Nat := (n * 2 ^ F64.leastExp / d).log2 - 52

/-- A significand and an exponent with a sign. R13 ends the finite values at the exponent 971, and no rule overflows (R151);
the model answers an infinity there (DESIGN CHOICE, log 7). -/
def F64.bounded (neg : Bool) (m e : Nat) : F64 := if e ≤ 2045 then .finite neg m e else .infinite neg

/-- A rounded significand of at most `2^53` in canonical form: `2^53` moves to the next exponent. -/
def F64.pack (neg : Bool) (m e : Nat) : F64 := if m = 2 ^ 53 then F64.bounded neg (2 ^ 52) (e + 1) else F64.bounded neg m e

/-- `n / d` with a sign, rounded to binary64 (R13). -/
def F64.round (neg : Bool) (n d : Nat) : F64 :=
  F64.pack neg (divNearestEven (n * 2 ^ F64.leastExp) (d * 2 ^ roundExp n d)) (roundExp n d)

/-- `rn(r)`: the nearest binary64, ties to the even significand; `rn(0)` is +0 (R13; log 8). -/
def F64.rn (r : ℚ) : F64 := F64.round (decide (r.num < 0)) r.num.natAbs r.den

/-- `F64(n)` for a natural number (R13). -/
def F64.ofNat (n : Nat) : F64 := F64.rn n

/-- `OfRat(p, q)` (R13). -/
def F64.ofRat (p q : Nat) : F64 := F64.rn (mkRat p q)

/-- The sign of a binary64; a NaN counts as positive (DESIGN CHOICE, log 7). -/
def F64.isNeg : F64 → Bool
  | .finite neg _ _ => neg
  | .infinite neg => neg
  | .nan => false

/-- `-f`; of a NaN, whose sign the spec does not name, the model answers NaN (DESIGN CHOICE, log 7). -/
def F64.neg : F64 → F64
  | .finite neg m e => .finite (!neg) m e
  | .infinite neg => .infinite (!neg)
  | .nan => .nan

/-- `|f|` clears the sign (R13); of a NaN the model answers NaN (DESIGN CHOICE, log 7). -/
def F64.abs : F64 → F64
  | .finite _ m e => .finite false m e
  | .infinite _ => .infinite false
  | .nan => .nan

/-- `rn` of the exact result of an operator on finite operands; an exact zero has the sign IEEE-754 gives it (log 8). -/
def F64.rounded (zeroNeg : Bool) (r : ℚ) : F64 := if r = 0 then F64.zero zeroNeg else F64.rn r

/-- An operator on finite operands; the spec gives none on others, and no rule reaches one (R13, R151). The model answers
NaN (DESIGN CHOICE, log 7). -/
def F64.onFinite (a b : F64) (result : F64) : F64 := if a.isFinite && b.isFinite then result else .nan

/-- `a ⊕ b` (R13). -/
def F64.add (a b : F64) : F64 := F64.onFinite a b (F64.rounded (a.isNeg && b.isNeg) (a.rat + b.rat))

/-- `a ⊖ b` (R13). -/
def F64.sub (a b : F64) : F64 := F64.onFinite a b (F64.rounded (a.isNeg && !b.isNeg) (a.rat - b.rat))

/-- `a ⊗ b` (R13). -/
def F64.mul (a b : F64) : F64 := F64.onFinite a b (F64.rounded (a.isNeg ^^ b.isNeg) (a.rat * b.rat))

/-- `a ⊘ b` (R13); no rule divides by zero (R147, R151), and the model answers NaN there (DESIGN CHOICE, log 7). -/
def F64.div (a b : F64) : F64 :=
  F64.onFinite a b (if b.rat = 0 then .nan else F64.rounded (a.isNeg ^^ b.isNeg) (a.rat / b.rat))

/-- `a < b`, on the exact values, so -0 and +0 are equal (R13). The spec compares no NaN or infinity; the model answers
false (DESIGN CHOICE, log 7). -/
def F64.lt (a b : F64) : Bool := a.isFinite && b.isFinite && decide (a.rat < b.rat)

/-- `floor(f)`, the exact floor of a finite `f` (R13). The spec gives a NaN or an infinity none; the model answers 0 (DESIGN
CHOICE, log 7). -/
def F64.floor (a : F64) : Int := a.rat.num / (a.rat.den : Int)

/-- The bit pattern: sign, 11 exponent bits, 52 fraction bits (R16). A significand below `2^52` has exponent field 0. The spec
names no pattern of an infinity or a NaN: the model answers exponent field 2047 with fraction 0 for an infinity and
0x7FF8000000000000 for a NaN (DESIGN CHOICE, log 7). -/
def F64.toBits : F64 → BitVec 64
  | .finite neg m e =>
    BitVec.ofBool neg ++ (if m < 2 ^ 52 then BitVec.ofNat 11 0 else BitVec.ofNat 11 (e + 1)) ++ BitVec.ofNat 52 m
  | .infinite neg => BitVec.ofBool neg ++ BitVec.ofNat 11 2047 ++ BitVec.ofNat 52 0
  | .nan => BitVec.ofBool false ++ BitVec.ofNat 11 2047 ++ BitVec.ofNat 52 (2 ^ 51)

/-- The value of a bit pattern (R16); exponent field 2047 is an infinity or a NaN (DESIGN CHOICE, log 7). -/
def F64.ofBits (b : BitVec 64) : F64 :=
  let neg := b.getMsbD 0
  let e := (b.extractLsb' 52 11).toNat
  let f := (b.extractLsb' 0 52).toNat
  if e = 2047 then (if f = 0 then .infinite neg else .nan)
  else if e = 0 then .finite neg f 0
  else .finite neg (2 ^ 52 + f) (e - 1)

/-- `PI = rn(π)`, bit pattern 0x400921FB54442D18 (R15). -/
def F64.pi : F64 := F64.ofBits 0x400921FB54442D18#64

/-- `DEG2RAD = PI ⊘ F64(180)` (R15). -/
def F64.deg2rad : F64 := F64.pi.div (F64.ofNat 180)

/-- `RAD2DEG = F64(180) ⊘ PI` (R15). -/
def F64.rad2deg : F64 := (F64.ofNat 180).div F64.pi

/-- `RAD(v) = v ⊗ DEG2RAD` (R15). -/
def F64.toRad (v : F64) : F64 := v.mul F64.deg2rad

/-- `DEG(v) = v ⊗ RAD2DEG` (R15). -/
def F64.toDeg (v : F64) : F64 := v.mul F64.rad2deg

end Sys2Proof
end

