-- ==== Sys2Proof/Machine/Elementary.lean ====
section
/-! DEFINITION. The numerics configuration NUM (00_scope.md R14) and the instance this hardware takes, the correctly
rounded one. R14 gives values, not a method (log 3): a function is evaluated here by enclosing the real value between two
rationals at a rising precision, until both ends round to the same binary64; should none of the precisions tried do, by
one rational so near to the value that it must round as the value does. -/

namespace Sys2Proof

/-- `NUM = (SIN, COS, ATAN)` (R14). -/
structure Numerics where
  sin : F64 → F64
  cos : F64 → F64
  atan : F64 → F64

/-- The numbers between `lo / 2^p` and `hi / 2^p`, at a precision `p` that the context fixes. -/
structure Ival where
  lo : Int
  hi : Int
deriving DecidableEq, Repr

/-- `a / 2^p` rounded down. -/
def shiftFloor (p : Nat) (a : Int) : Int := a / 2 ^ p

/-- `a / 2^p` rounded up. -/
def shiftCeil (p : Nat) (a : Int) : Int := -(-a / 2 ^ p)

/-- The number 1 at precision `p`. -/
def Ival.one (p : Nat) : Ival := ⟨2 ^ p, 2 ^ p⟩

/-- Products of a number of `a` and a number of `b`. -/
def Ival.mul (p : Nat) (a b : Ival) : Ival :=
  let p1 := a.lo * b.lo
  let p2 := a.lo * b.hi
  let p3 := a.hi * b.lo
  let p4 := a.hi * b.hi
  ⟨shiftFloor p (min (min p1 p2) (min p3 p4)), shiftCeil p (max (max p1 p2) (max p3 p4))⟩

/-- The numbers of `a` times `num / den`, `den` positive. -/
def Ival.scale (a : Ival) (num den : Nat) : Ival := ⟨a.lo * num / den, -(-(a.hi * num) / den)⟩

/-- 1 less a number of `a`. -/
def Ival.oneMinus (p : Nat) (a : Ival) : Ival := ⟨2 ^ p - a.hi, 2 ^ p - a.lo⟩

/-- Twice a number of `a`. -/
def Ival.twice (a : Ival) : Ival := ⟨2 * a.lo, 2 * a.hi⟩

/-- A number of `a` give or take `1 / 2^p`. -/
def Ival.widen (a : Ival) : Ival := ⟨a.lo - 1, a.hi + 1⟩

/-- The numbers of `a` that lie in -1 .. 1. -/
def Ival.clamp (p : Nat) (a : Ival) : Ival := ⟨max (-2 ^ p) a.lo, min (2 ^ p) a.hi⟩

/-- `1 - c_i z (1 - c_{i+1} z (... 1))` with `n` factors, `c_i` being the fraction `coeff i`: an alternating power
series cut off after the term in `z^n`. -/
def hornerIval (p : Nat) (z : Ival) (coeff : Nat → Nat × Nat) : Nat → Nat → Ival
  | 0, _ => Ival.one p
  | n + 1, i => Ival.oneMinus p ((Ival.mul p z (hornerIval p z coeff n (i + 1))).scale (coeff i).1 (coeff i).2)

/-- `sin y / y` as a series in `y^2`. -/
def sinCoeff (i : Nat) : Nat × Nat := (1, (2 * i + 2) * (2 * i + 3))

/-- `cos y` as a series in `y^2`. -/
def cosCoeff (i : Nat) : Nat × Nat := (1, (2 * i + 1) * (2 * i + 2))

/-- `atan y / y` as a series in `y^2`. -/
def atanCoeff (i : Nat) : Nat × Nat := (2 * i + 1, 2 * i + 3)

/-- Sine and cosine of an angle of at most 1/16: `p / 8` factors of the series leave a remainder below `1 / 2^p`. -/
def sinCosSmall (p : Nat) (y : Ival) : Ival × Ival :=
  let z := Ival.mul p y y
  ((Ival.mul p y (hornerIval p z sinCoeff (p / 8) 0)).widen, (hornerIval p z cosCoeff (p / 8) 0).widen)

/-- Sine and cosine of twice an angle: `2 s c` and `1 - 2 s^2`. -/
def doubleAngle (p : Nat) (sc : Ival × Ival) : Ival × Ival :=
  ((Ival.mul p sc.1 sc.2).twice.clamp p, (Ival.oneMinus p (Ival.mul p sc.1 sc.1).twice).clamp p)

/-- A function applied `k` times. -/
def applyTimes {α : Type} (f : α → α) : Nat → α → α
  | 0, a => a
  | k + 1, a => applyTimes f k (f a)

/-- How often the angle `n / d` is halved to come below 1/16. -/
def halvings (n d : Nat) : Nat := (n / d).log2 + 5

/-- The quotient `n / d` at precision `p`. -/
def Ival.ofQuot (p n d : Nat) : Ival := ⟨(n * 2 ^ p / d : Nat), (n * 2 ^ p / d + 1 : Nat)⟩

/-- Enclosures of the sine and the cosine of the angle `n / d` in radians, at precision `p`. -/
def sinCosIval (p n d : Nat) : Ival × Ival :=
  applyTimes (doubleAngle p) (halvings n d) (sinCosSmall p (Ival.ofQuot p n (d * 2 ^ halvings n d)))

/-- Newton's iteration for the square root of `n`. -/
def sqrtStep (n x : Nat) : Nat := (x + n / x) / 2

/-- An upper bound of the square root of `n`, close to it: checked, so that it is one whatever the iteration does. -/
def sqrtUp (n : Nat) : Nat :=
  let u := applyTimes (sqrtStep n) 16 (2 ^ (n.log2 / 2 + 1)) + 1
  if n ≤ u * u then u else n + 1

/-- A lower bound of the square root of `n`, close to it. -/
def sqrtDown (n : Nat) : Nat := n / sqrtUp n

/-- The tangent of half an angle whose tangent, not negative, is given: `t / (1 + sqrt(1 + t^2))`. -/
def halfTangent (p : Nat) (t : Nat × Nat) : Nat × Nat :=
  (t.1 * 2 ^ p / (2 ^ p + sqrtUp (2 ^ (2 * p) + t.1 * t.1)),
   t.2 * 2 ^ p / (2 ^ p + sqrtDown (2 ^ (2 * p) + t.2 * t.2)) + 1)

/-- An enclosure of the arctangent of `n / d` at precision `p`: five halvings of the angle bring its tangent below
1/16, `p / 8` factors of the series leave a remainder below `1 / 2^p`, and the angle is doubled five times. -/
def atanIval (p n d : Nat) : Ival :=
  let t := applyTimes (halfTangent p) 5 (n * 2 ^ p / d, n * 2 ^ p / d + 1)
  let y : Ival := ⟨t.1, t.2⟩
  let z := Ival.mul p y y
  ((Ival.mul p y (hornerIval p z atanCoeff (p / 8) 0)).widen).scale 32 1

/-- The binary64 nearest `a / 2^p`. -/
def Numerics.candidate (p : Nat) (a : Int) : F64 := F64.rn (mkRat a (2 ^ p))

/-- The rounding of the real value that every `enclose p` contains, settled by the first of the precisions given at which
both ends round to one binary64; none where no precision settles it. -/
def Numerics.search (enclose : Nat → Ival) : List Nat → Option F64
  | [] => none
  | p :: ps =>
    let l := Numerics.candidate p (enclose p).lo
    if l = Numerics.candidate p (enclose p).hi then some l else Numerics.search enclose ps

/-- The precisions tried, in bits after the point. -/
def Numerics.precisions : List Nat := [128, 256, 512, 1024, 2048, 4096]

/-! ### Where no precision tried settles the value

No rational but 0 has a rational sine, cosine or arctangent, and Niven's proof of it gives a distance that such a value
keeps from every rational of a given denominator (Laws/Niven.lean). A tie of two binary64 values is a multiple of
`1 / 2^1075`, so an approximation closer than that distance rounds as the value itself does. The numbers are far too large
for such an approximation to be computed in practice, but they make every function total and its value the one of R14. -/

/-- A number `n` with `e ^ n ≤ (n - 1)!`, as has every greater one. -/
def Numerics.seriesLength (e : Nat) : Nat := 2 * e ^ 2 + 2

/-- `cos (a / b)` is at least `1 / separation a b d` away from every quotient by `d`. -/
def Numerics.separation (a b d : Nat) : Nat :=
  let l := Numerics.seriesLength (2 * d * (2 * a) ^ 4)
  2 * d * (4 * l * ((8 * l).factorial * (b ^ (2 * l + 1) * (a ^ 2 + b ^ 2) ^ (2 * l))))

/-- The half of the sum of two finite binary64 values is a quotient by this number. -/
def Numerics.tieDen : Nat := 2 ^ (F64.leastExp + 1)

/-- `sin (a / b)` is at least 1 over this away from every tie, because `cos (2 a / b)` keeps its distance. -/
def Numerics.sinSeparation (a b : Nat) : Nat := 6 * Numerics.separation (2 * a) b (Numerics.tieDen ^ 2)

/-- `cos (a / b)` is at least 1 over this away from every tie. -/
def Numerics.cosSeparation (a b : Nat) : Nat := Numerics.separation a b Numerics.tieDen

/-- `atan (a / b)` is at least 1 over this away from every tie, because the cosine of twice the tie keeps its distance
from the cosine of twice the arctangent, which is `(b^2 - a^2) / (a^2 + b^2)`. -/
def Numerics.atanSeparation (a b : Nat) : Nat :=
  2 * Numerics.separation (6 * Numerics.tieDen) Numerics.tieDen (a ^ 2 + b ^ 2)

/-- The first `n` terms of the power series of the sine. -/
def Numerics.sinSeries (x : ℚ) (n : Nat) : ℚ := ∑ k ∈ Finset.range n, (-1) ^ k * x ^ (2 * k + 1) / (2 * k + 1).factorial

/-- The first `n` terms of the power series of the cosine. -/
def Numerics.cosSeries (x : ℚ) (n : Nat) : ℚ := ∑ k ∈ Finset.range n, (-1) ^ k * x ^ (2 * k) / (2 * k).factorial

/-- The integral of `1 / (1 + t^2)` from 0 to `x`, as a sum of `n` steps. -/
def Numerics.atanSum (x : ℚ) (n : Nat) : ℚ := ∑ k ∈ Finset.range n, x / n / (1 + (k * (x / n)) ^ 2)

/-- The sine of `a / b`, closer than its distance from every tie. -/
def Numerics.sinApprox (a b : Nat) : ℚ :=
  Numerics.sinSeries (mkRat a b) (Numerics.seriesLength (2 * Numerics.sinSeparation a b * (a + 1)))

/-- The cosine of `a / b`, closer than its distance from every tie. -/
def Numerics.cosApprox (a b : Nat) : ℚ :=
  Numerics.cosSeries (mkRat a b) (Numerics.seriesLength (2 * Numerics.cosSeparation a b * (a + 1)))

/-- The arctangent of `a / b`, closer than its distance from every tie. -/
def Numerics.atanApprox (a b : Nat) : ℚ := Numerics.atanSum (mkRat a b) (Numerics.atanSeparation a b * a + 1)

/-! ### The correctly rounded functions -/

/-- What a search found, and where it found nothing the rounding of an approximation. -/
def Numerics.settle (found : Option F64) (approx : Unit → ℚ) : F64 :=
  match found with
  | some f => f
  | none => F64.rn (approx ())

/-- The sine of the positive number `a / b`, rounded. -/
def Numerics.sinPos (a b : Nat) : F64 :=
  Numerics.settle (Numerics.search (fun p => (sinCosIval p a b).1) Numerics.precisions) (fun _ => Numerics.sinApprox a b)

/-- The cosine of the positive number `a / b`, rounded. -/
def Numerics.cosPos (a b : Nat) : F64 :=
  Numerics.settle (Numerics.search (fun p => (sinCosIval p a b).2) Numerics.precisions) (fun _ => Numerics.cosApprox a b)

/-- The arctangent of the positive number `a / b`, rounded. -/
def Numerics.atanPos (a b : Nat) : F64 :=
  Numerics.settle (Numerics.search (fun p => atanIval p a b) Numerics.precisions) (fun _ => Numerics.atanApprox a b)

/-- `f` with its sign changed where `neg` says so. -/
def F64.withSign (neg : Bool) (f : F64) : F64 := if neg then f.neg else f

/-- The correctly rounded sine: `SIN(x) = rn(sin(RatOf(x)))` (R14). Of a NaN or an infinity the spec gives none; the model
answers NaN (DESIGN CHOICE, log 7). -/
def Numerics.sinRn (x : F64) : F64 :=
  if !x.isFinite then .nan
  else if x.rat = 0 then F64.zero false
  else F64.withSign x.isNeg (Numerics.sinPos x.rat.num.natAbs x.rat.den)

/-- The correctly rounded cosine: `COS(x) = rn(cos(RatOf(x)))` (R14). Of a NaN or an infinity the spec gives none; the
model answers NaN (DESIGN CHOICE, log 7). -/
def Numerics.cosRn (x : F64) : F64 :=
  if !x.isFinite then .nan
  else if x.rat = 0 then F64.ofNat 1
  else Numerics.cosPos x.rat.num.natAbs x.rat.den

/-- The correctly rounded arctangent: `ATAN(x) = rn(atan(RatOf(x)))` (R14). Of a NaN or an infinity the spec gives none;
the model answers NaN (DESIGN CHOICE, log 7). -/
def Numerics.atanRn (x : F64) : F64 :=
  if !x.isFinite then .nan
  else if x.rat = 0 then F64.zero false
  else F64.withSign x.isNeg (Numerics.atanPos x.rat.num.natAbs x.rat.den)

/-- The NUM of this hardware: the correctly rounded functions (R9, R14, decision D21). -/
def Config.num : Numerics := ⟨Numerics.sinRn, Numerics.cosRn, Numerics.atanRn⟩

/-- A function that answers, on finite operands, a finite binary64 value within `-bound .. bound` (N2 and N3 of R14). -/
def Numerics.Bounded (f : F64 → F64) (bound : ℚ) : Prop :=
  ∀ x : F64, x.isFinite = true → (f x).canonical = true ∧ (f x).isFinite = true ∧ -bound ≤ (f x).rat ∧ (f x).rat ≤ bound

/-- What the machine assumes of NUM: N2 and N3 of R14 (N1 holds of every Lean function). -/
def Numerics.Assumed (num : Numerics) : Prop :=
  Numerics.Bounded num.sin 1 ∧ Numerics.Bounded num.cos 1 ∧ Numerics.Bounded num.atan (F64.pi.div (F64.ofNat 2)).rat

end Sys2Proof
end

