-- ==== Sys2Proof/Machine/Lut.lean ====
section
/-! DEFINITION. The Trig Lookup Table (40_lut_engine.md): two ROMs of 360 binary64 values, the index reduction and the two
functions. -/

namespace Sys2Proof.Machine

/-- `SINTAB[d]`, `d` in 0..359 (R80). -/
def sinTab (num : Numerics) (d : Nat) : F64 := num.sin (F64.ofNat d).toRad

/-- `COSTAB[d]`, `d` in 0..359 (R80). -/
def cosTab (num : Numerics) (d : Nat) : F64 := num.cos (F64.ofNat d).toRad

/-- `LutIndex(a) = floor(a) mod 360` with the floored modulus; none of a NaN or an infinity, which the spec leaves
undefined and no rule reaches (R81; DESIGN CHOICE, log 7). -/
def lutIndex (a : F64) : Option Nat := if a.isFinite then some (a.floor % 360).toNat else none

/-- `sin_deg` (R82); NaN where there is no index (DESIGN CHOICE, log 7). -/
def sinDeg (num : Numerics) (a : F64) : F64 :=
  match lutIndex a with
  | some d => sinTab num d
  | none => .nan

/-- `cos_deg` (R83); NaN where there is no index (DESIGN CHOICE, log 7). No command uses it. -/
def cosDeg (num : Numerics) (a : F64) : F64 :=
  match lutIndex a with
  | some d => cosTab num d
  | none => .nan

end Sys2Proof.Machine
end

