-- ==== Sys2Proof/Machine/Mixer.lean ====
section
/-! DEFINITION. The Seed/State Mixer (43_modexp_mixer.md) and its command MIX. -/

namespace Sys2Proof.Machine

/-- `PRIME = 2^521 - 1` (00_scope.md R8). -/
def prime : Nat := 2 ^ 521 - 1

/-- `Group(block, i)`, bits `[511 - 2i : 510 - 2i]` of the block (R111). -/
def group (block : Word) (i : Nat) : BitVec 2 := block.extractLsb' (510 - 2 * i) 2

/-- The Base Table, a ROM (10_state.md R28). -/
def baseTable (g : BitVec 2) : Nat :=
  match g.toNat with
  | 0 => 23
  | 1 => 29
  | 2 => 31
  | _ => 37

/-- `base^e mod m` by repeated squaring, with `fuel` bits of the exponent (R120 leaves the method free). -/
def powModFuel (m : Nat) : Nat → Nat → Nat → Nat
  | 0, _, _ => 1 % m
  | fuel + 1, b, e =>
    if e = 0 then 1 % m
    else
      let r := powModFuel m fuel (b * b % m) (e / 2)
      if e % 2 = 1 then b * r % m else r

/-- `base^e mod m` (R120). -/
def powMod (b e m : Nat) : Nat := powModFuel m (e.log2 + 1) b e

/-- Step 3: `SINTAB[((state mod 2^30) * 360) >> 30]` (R116, R129). -/
def phaseOf (num : Numerics) (state : Nat) : F64 := sinTab num ((state % 2 ^ 30 * 360) >>> 30)

/-- MAXQ as the quantisation product takes it: exact, or rounded to binary64 (R119). -/
def quantFactor : QuantMul → Nat
  | .exact => 2 ^ 256 - 1
  | .binary64 => 2 ^ 256

/-- `U(v) = (v ⊕ 1) ⊘ 2` (R118). -/
def unitOf (v : F64) : F64 := (v.add (F64.ofNat 1)).div (F64.ofNat 2)

/-- `Quantize(v) = max(1, floor(RatOf(U(v)) * MAXQ))` (R118, R119). No rule quantises a NaN or an infinity (R151); as `RatOf`
of one is 0 in the model, its quantisation is 1 (DESIGN CHOICE, log 7). -/
def quantize (q : QuantMul) (v : F64) : Nat := max 1 ((unitOf v).rat * (quantFactor q : ℚ)).floor.toNat

/-- Step 8: `max(1, ((2i - 1) + prevBase * base) mod 511)` with the floored modulus (R122). -/
def shiftOf (i prevBase base : Nat) : Nat := max 1 ((2 * (i : Int) - 1 + prevBase * base) % 511).toNat

/-- What one iteration hands to the next (R31, R113): `state`, an unbounded integer variable, and `prevBase`. -/
structure MixAcc where
  state : Nat
  prevBase : Nat
deriving DecidableEq, Repr

/-- Step 6: the exponent `pos + (qSin & (2^30 - 1))` (R120). -/
def mixExponent (q : QuantMul) (pos : Nat) (sinVal : F64) : Nat := pos + (quantize q sinVal &&& (2 ^ 30 - 1))

/-- Step 9: XOR with the shifted quantised cosine, then the low 512 bits (R123). -/
def xorShifted (state qCos shift : Nat) : Word := BitVec.ofNat 512 (state ^^^ ((qCos <<< shift) % 2 ^ 512))

/-- Iteration `i`, steps 1 to 12 (R112 to R126, R129). -/
def mixRound (num : Numerics) (q : QuantMul) (block : Word) (acc : MixAcc) (i : Nat) : MixAcc :=
  let pos := i + 1
  let g := group block i
  let base := baseTable g
  let angle := (F64.ofNat ((g.toNat + 1) * (pos + 1))).toRad
  let phase := phaseOf num acc.state
  let sinVal := num.sin (angle.add phase)
  let cosVal := num.cos (angle.sub phase)
  let powmod := powMod base (mixExponent q pos sinVal) prime
  let product := acc.state * powmod % prime
  let shift := shiftOf i acc.prevBase base
  let rotated := rotL (xorShifted product (quantize q cosVal) shift) shift
  ⟨(diffuse rotated (i % 512)).toNat, base⟩

/-- The state before the first group (R113). -/
def mixInit (previousState : Word) : MixAcc := ⟨previousState.toNat % prime, 0⟩

/-- The state after the first `n` groups (R114). -/
def mixRounds (num : Numerics) (q : QuantMul) (block previousState : Word) (n : Nat) : MixAcc :=
  (List.range n).foldl (mixRound num q block) (mixInit previousState)

/-- The finalisation: mask to 512 bits, force bit 511, test for zero, in that order (R127, R132). -/
def mixFinish (state : Nat) : Word :=
  let forced := BitVec.ofNat 512 state ||| BitVec.twoPow 512 511
  if forced = 0 then 1 else forced

/-- `Mix(block, previousState)` (R129). -/
def mix (num : Numerics) (q : QuantMul) (block previousState : Word) : Word :=
  mixFinish (mixRounds num q block previousState 256).state

/-- MIX `wd, wa, wb`: `wa` the block, `wb` the previous state (R133). -/
def execMix (wd wa wb : RegField) (s : State) : Host.Outcome State Fault Refusal :=
  ifLegal (.mix wd wa wb) s (writeReg wd (mix Config.num Config.quantMul (readReg wa s) (readReg wb s)) s)

end Sys2Proof.Machine
end

