-- ==== Sys2Proof/Machine/Curve.lean ====
section
/-! DEFINITION. The curve sampler (44_curve_sampler.md): from a block and a seed state to 256 angles in degrees. -/

namespace Sys2Proof.Machine

/-- The Curve Parameters (R142). -/
structure CurveParams where
  a : F64
  b : F64
  c : F64
  d : F64
deriving DecidableEq, Repr

/-- `seedFrac`, the binary64 nearest `seedState / 2^512` (R141). -/
def seedFrac (seed : Word) : F64 := F64.ofRat seed.toNat (2 ^ 512)

/-- A, B, C, D of a seed state (R142). -/
def curveParams (num : Numerics) (seed : Word) : CurveParams :=
  let t := (seedFrac seed).mul F64.pi
  { a := ((num.sin t).mul (F64.ofNat 10)).add (F64.ofNat 1)
    b := ((num.cos t).mul (F64.ofNat 10)).add (F64.ofNat 1)
    c := (F64.ofRat (seed.toNat / 2 ^ 256) (2 ^ 256)).mul F64.pi
    d := (F64.ofRat (seed.toNat % 2 ^ 256) (2 ^ 256)).mul (F64.ofNat 10) }

/-- The sample position of group `i` with value `g` (R143). -/
def samplePos (i g : Nat) : F64 :=
  ((F64.ofNat (2 * i)).add ((F64.ofNat ((7 * g + 23) % 40 + 10)).div (F64.ofNat 10))).add
    ((F64.ofNat g).div (F64.ofNat 5))

/-- The 256 sample positions of a block (R143). -/
def samplePositions (block : Word) : List F64 := (List.range 256).map (fun i => samplePos i (group block i).toNat)

/-- The least of a list of values, `first` among them. No position is a NaN or an infinity (R151); the model's comparison
with one is false (DESIGN CHOICE, log 7). -/
def leastOf (first : F64) (xs : List F64) : F64 := xs.foldl (fun m x => if x.lt m then x else m) first

/-- The greatest of a list of values, `first` among them; for a NaN or an infinity as `leastOf` (log 7). -/
def greatestOf (first : F64) (xs : List F64) : F64 := xs.foldl (fun m x => if m.lt x then x else m) first

/-- NGRID, the number of grid points (00_scope.md R8). -/
def nGrid : Nat := 2560

/-- `X[j]` of the grid from `a` to `b`: both ends belong to it, the last point is set (R145). -/
def gridPoint (a b : F64) (j : Nat) : F64 :=
  if j = nGrid - 1 then b else ((F64.ofNat j).mul ((b.sub a).div (F64.ofNat (nGrid - 1)))).add a

/-- `Y` at `x`: `(A ⊗ SIN((B ⊗ x) ⊕ C)) ⊕ (D ⊗ SIN(x ⊘ 10))` (R146). -/
def curveAt (num : Numerics) (p : CurveParams) (x : F64) : F64 :=
  (p.a.mul (num.sin ((p.b.mul x).add p.c))).add (p.d.mul (num.sin (x.div (F64.ofNat 10))))

/-- The slope between two grid points (R147). -/
def slope (x y : Nat → F64) (j k : Nat) : F64 := ((y k).sub (y j)).div ((x k).sub (x j))

/-- `G[j]`: central differences, one-sided at the two ends (R147). -/
def gradient (x y : Nat → F64) (j : Nat) : F64 :=
  if j = 0 then slope x y 0 1
  else if j = nGrid - 1 then slope x y (nGrid - 2) (nGrid - 1)
  else slope x y (j - 1) (j + 1)

/-- The search for the nearest grid point: the index to come, and the best index and distance so far. -/
structure Nearest where
  next : Nat
  best : Nat
  dist : F64
deriving DecidableEq, Repr

/-- One grid point examined; an equal distance leaves the lower index (R149). A distance that is a NaN or an infinity, which
R151 rules out, is never nearer (DESIGN CHOICE, log 7). -/
def Nearest.visit (x : F64) (n : Nearest) (point : F64) : Nearest :=
  let d := (point.sub x).abs
  if d.lt n.dist then ⟨n.next + 1, n.next, d⟩ else ⟨n.next + 1, n.best, n.dist⟩

/-- `J`: the least index of a grid point nearest `x`, `|X[j] ⊖ x|` being least (R149). -/
def nearestIndex (x : F64) : List F64 → Nat
  | [] => 0
  | point :: rest => (rest.foldl (Nearest.visit x) ⟨1, 0, (point.sub x).abs⟩).best

/-- The two ends of the grid, `min x_i` and `(max x_i) ⊕ 1` (R145). -/
def gridEnds (xs : List F64) : F64 × F64 :=
  (leastOf (xs.headD .nan) xs, (greatestOf (xs.headD .nan) xs).add (F64.ofNat 1))

/-- `CurveAngles(block, seedState)`: `θ_i = TH[J(i)]`, `TH[j] = ATAN(G[j]) ⊗ RAD2DEG` (R148 to R150). -/
def curveAngles (num : Numerics) (block seed : Word) : List F64 :=
  let p := curveParams num seed
  let xs := samplePositions block
  let ends := gridEnds xs
  let x := gridPoint ends.1 ends.2
  let y := fun j => curveAt num p (x j)
  let grid := (List.range nGrid).map x
  xs.map (fun xi => (num.atan (gradient x y (nearestIndex xi grid))).toDeg)

end Sys2Proof.Machine
end

