-- ==== Sys2Proof/Machine/Extractor.lean ====
section
/-! DEFINITION. The arctan probability thresholder (45_arctan_symbolizer.md): angle to symbol, the extractor, and EXT. -/

namespace Sys2Proof.Machine

/-- `ProbVector(θ) = (p0, p1, p2, p3)` (R160). -/
def probVector (num : Numerics) (theta : F64) : F64 × F64 × F64 × F64 :=
  let c := num.cos theta.toRad
  let s := num.sin theta.toRad
  (c.mul (num.cos ((F64.ofNat 360).sub theta).toRad),
   c.mul (num.sin ((F64.ofNat 270).sub theta).toRad),
   s.mul (num.cos ((F64.ofNat 180).sub theta).toRad),
   s.mul (num.sin ((F64.ofNat 90).sub theta).toRad))

/-- One step of the argmax scan: index `n` replaces the best so far only where its value is strictly greater (R163). The
spec scans no NaN or infinity; in the model one neither replaces the best nor is replaced (DESIGN CHOICE, log 7). -/
def argmaxStep (best : Nat × F64) (n : Nat) (p : F64) : Nat × F64 := if best.2.lt p then (n, p) else best

/-- `argmax(p0..p3)`, ties to the lowest index (R163). -/
def argmax (p : F64 × F64 × F64 × F64) : Nat :=
  (argmaxStep (argmaxStep (argmaxStep (0, p.1) 1 p.2.1) 2 p.2.2.1) 3 p.2.2.2).1

/-- `Symbol(θ)`, 0..3 (R164). -/
def symbol (num : Numerics) (theta : F64) : Nat := argmax (probVector num theta)

/-- Symbols as one value, the first in bits [511:510] (R165): `h1 <- h1 * 4 + k` (R166). -/
def packSymbols (ks : List Nat) : Word := BitVec.ofNat 512 (ks.foldl (fun h k => h * 4 + k) 0)

/-- `ExtractBits(block, seedState)` (R166). -/
def extractBits (num : Numerics) (block seed : Word) : Word := packSymbols ((curveAngles num block seed).map (symbol num))

/-- EXT `wd, wa, wb`: `wa` the block, `wb` the seed state (R167). -/
def execExt (wd wa wb : RegField) (s : State) : Host.Outcome State Fault Refusal :=
  ifLegal (.ext wd wa wb) s (writeReg wd (extractBits Config.num (readReg wa s) (readReg wb s)) s)

end Sys2Proof.Machine
end

