-- ==== Sys2Proof/Machine/FinalMix.lean ====
section
/-! DEFINITION. The Final Diffusion Mixer (46_final_mixer.md) and its command FMIX. -/

namespace Sys2Proof.Machine

/-- `FinalMix(h1, h2)` (R170). -/
def finalMix (h1 h2 : Word) : Word :=
  let x0 := h1 ^^^ h2
  let x1 := x0 ^^^ rotL x0 13
  x1 ^^^ rotR x1 7

/-- FMIX `wd, wa, wb`: `wa` is `h1`, `wb` is `h2` (R171). -/
def execFmix (wd wa wb : RegField) (s : State) : Host.Outcome State Fault Refusal :=
  ifLegal (.fmix wd wa wb) s (writeReg wd (finalMix (readReg wa s) (readReg wb s)) s)

end Sys2Proof.Machine
end

