-- ==== Sys2Proof/Machine/Orchestrator.lean ====
section
/-! DEFINITION. The Hash Orchestrator (47_orchestrator.md), its command DIGEST, and the printing of a 512-bit value. -/

namespace Sys2Proof.Machine

/-- `DigestValue` from the block on: steps 2 to 6 (R175). -/
def digestBlock (num : Numerics) (q : QuantMul) (block : Word) : Word :=
  let seedState := mix num q block 1
  let h1 := extractBits num block seedState
  let h2 := mix num q (inv512 h1) seedState
  finalMix h1 h2

/-- `DigestValue(m)` (R175). -/
def digestValue (num : Numerics) (q : QuantMul) (m : List Byte) : Word := digestBlock num q (encodeToBlock m)

/-- DIGEST `wd` (R177). -/
def execDigest (wd : RegField) (s : State) : Host.Outcome State Fault Refusal :=
  ifLegal (.digest wd) s (ifInRange (.digest wd) s
    (writeReg wd (digestValue Config.num Config.quantMul (message s)) s))

/-- A hexadecimal digit, lowercase (R176). -/
def hexDigit (n : Nat) : Char := ("0123456789abcdef".toList).getD n '0'

/-- Digit `n` of `Hex128(v)`, the one for `(v >> (508 - 4n)) & 15` (R176). -/
def hexDigitAt (v : Word) (n : Nat) : Char := hexDigit (v.extractLsb' (508 - 4 * n) 4).toNat

/-- `Hex128(v)`: 128 lowercase hexadecimal digits, zero-padded on the left (R176). The host applies it. -/
def hex128 (v : Word) : String := String.ofList ((List.range 128).map (hexDigitAt v))

end Sys2Proof.Machine
end

