-- ==== Sys2Proof/Machine/Dispatch.lean ====
section
/-! DEFINITION. The meaning of every command: one arm per constructor of Instr. -/

namespace Sys2Proof.Machine

def exec (i : Instr) (s : State) : Host.Outcome State Fault Refusal :=
  match i with
  | .ldi wd imm => Sys2Proof.Machine.execLdi wd imm s
  | .ldb wd => Sys2Proof.Machine.execLdb wd s
  | .rol wd wa imm => Sys2Proof.Machine.execRol wd wa imm s
  | .ror wd wa imm => Sys2Proof.Machine.execRor wd wa imm s
  | .inv wd wa => Sys2Proof.Machine.execInv wd wa s
  | .enc wd => Sys2Proof.Machine.execEnc wd s
  | .mix wd wa wb => Sys2Proof.Machine.execMix wd wa wb s
  | .ext wd wa wb => Sys2Proof.Machine.execExt wd wa wb s
  | .fmix wd wa wb => Sys2Proof.Machine.execFmix wd wa wb s
  | .digest wd => Sys2Proof.Machine.execDigest wd s

end Sys2Proof.Machine
end

