-- ==== Sys2Proof/Machine/HostWindow.lean ====
section
/-! DEFINITION. The host window (20_memory.md R43 to R49, R55, R56): what stands at each word, what a read returns, and what
a write other than one of CMD does. -/

namespace Sys2Proof.Machine

/-- What stands at a word of the host window (R43). -/
inductive WindowCell where
  | cmd
  | status
  | errInfo
  | msgLen
  /-- word `k` of data register `W[i]` -/
  | wwin (i : Fin 8) (k : Fin 16)
  /-- the high or the low word of `SINTAB[d]` -/
  | sinWin (d : Nat) (low : Bool)
  /-- the high or the low word of `COSTAB[d]` -/
  | cosWin (d : Nat) (low : Bool)
  /-- bytes `MSG[4n .. 4n+3]` -/
  | msgWin (n : Nat)
  | reserved
deriving DecidableEq, Repr

/-- Offsets 0x0000 to 0x0FFC: the control registers and the data-register window (R43). -/
def registerCell (offset : Nat) : WindowCell :=
  if offset = 0x0000 then .cmd
  else if offset = 0x0004 then .status
  else if offset = 0x0008 then .errInfo
  else if offset = 0x000C then .msgLen
  else if offset < 0x0100 then .reserved
  else if offset < 0x0300 then .wwin (Fin.ofNat 8 ((offset - 0x0100) / 64)) (Fin.ofNat 16 ((offset - 0x0100) % 64 / 4))
  else .reserved

/-- Offsets 0x1000 to 0x1FFC: the sine ROM (R43, R49). -/
def sinCell (offset : Nat) : WindowCell :=
  if offset < 0x1B40 then .sinWin ((offset - 0x1000) / 8) (offset % 8 == 4) else .reserved

/-- Offsets 0x2000 to 0x3FFC: the cosine ROM (R43, R49). -/
def cosCell (offset : Nat) : WindowCell :=
  if offset < 0x2B40 then .cosWin ((offset - 0x2000) / 8) (offset % 8 == 4) else .reserved

/-- Offsets from 0x4000 on: the message window (R43, R56). -/
def msgCell (offset : Nat) : WindowCell :=
  if offset - 0x4000 < Config.msgCap then .msgWin ((offset - 0x4000) / 4) else .reserved

/-- The address map, by byte offset; an offset outside every listed range is reserved (R43, R55). -/
def locateOffset (offset : Nat) : WindowCell :=
  if offset < 0x1000 then registerCell offset
  else if offset < 0x2000 then sinCell offset
  else if offset < 0x4000 then cosCell offset
  else msgCell offset

/-- What stands at a word index; the byte offset is four times the index (R44; log 6). -/
def locate (word : Nat) : WindowCell := locateOffset (4 * word)

/-- The high word (bits [63:32]) or the low word of a bit pattern (R49). -/
def halfOf (b : BitVec 64) (low : Bool) : Word32 := if low then b.extractLsb' 0 32 else b.extractLsb' 32 32

/-- Word `k` of a 512-bit value, word 0 the most significant (R48). -/
def wordOf (v : Word) (k : Nat) : Word32 := v.extractLsb' (480 - 32 * k) 32

/-- Four message bytes as a word, the lower address in the more significant lane (R56). -/
def msgWord (n : Nat) (s : State) : Word32 :=
  msgByte (4 * n) s ++ msgByte (4 * n + 1) s ++ msgByte (4 * n + 2) s ++ msgByte (4 * n + 3) s

/-- The four bytes of a word, the most significant first (R56). -/
def wordBytes (v : Word32) : List Byte := [v.extractLsb' 24 8, v.extractLsb' 16 8, v.extractLsb' 8 8, v.extractLsb' 0 8]

/-- What a read of a cell returns (R23 to R26, R48, R49, R55, R56). -/
def readCell (num : Numerics) (s : State) : WindowCell → Word32
  | .cmd => 0
  | .status => statusWord s
  | .errInfo => s.errInfo
  | .msgLen => s.msgLen
  | .wwin i k => wordOf s.w[i] k
  | .sinWin d low => halfOf (sinTab num d).toBits low
  | .cosWin d low => halfOf (cosTab num d).toBits low
  | .msgWin n => msgWord n s
  | .reserved => 0

/-- `HostRead(4 * word)`; it changes nothing (R44, R47). -/
def hostRead (word : Nat) (s : State) : Word32 := readCell Config.num s (locate word)

/-- A write of a cell other than CMD: STATUS clears, MSGLEN and the message window store, every other cell ignores it
(R47, R55, R56). -/
def writeCell (v : Word32) (s : State) : WindowCell → State
  | .cmd => s
  | .status => writeStatus v s
  | .errInfo => s
  | .msgLen => { s with msgLen := v }
  | .wwin _ _ => s
  | .sinWin _ _ => s
  | .cosWin _ _ => s
  | .msgWin n => msgWrite (4 * n) (wordBytes v) s
  | .reserved => s

end Sys2Proof.Machine
end

