-- ==== Sys2Proof/Machine/Command.lean ====
section
/-! DEFINITION. A write of CMD, and what one host action does (30_encoding.md R70, 70_reset_and_hazards.md R216). -/

namespace Sys2Proof.Machine

/-- A write of the word `c` to CMD: an illegal word raises IllegalCommand, a legal one runs its command (R26, R70). -/
def writeCmd (c : Word32) (s : State) : Host.Outcome State Fault Refusal :=
  match decode c with
  | none => .next (raise .illegalCommand c s)
  | some i => exec i s

/-- `HostWrite(4 * word, v)` (R44, R216). -/
def hostWrite (word : Nat) (v : Word32) (s : State) : Host.Outcome State Fault Refusal :=
  match locate word with
  | .cmd => writeCmd v s
  | .status => .next (writeCell v s .status)
  | .errInfo => .next (writeCell v s .errInfo)
  | .msgLen => .next (writeCell v s .msgLen)
  | .wwin i k => .next (writeCell v s (.wwin i k))
  | .sinWin d low => .next (writeCell v s (.sinWin d low))
  | .cosWin d low => .next (writeCell v s (.cosWin d low))
  | .msgWin n => .next (writeCell v s (.msgWin n))
  | .reserved => .next (writeCell v s .reserved)

/-- One host action: a write has its effect, a read adds the word it returns to the answers (R216; log 5). -/
def perform (a : HostAction) (s : State) : Host.Outcome State Fault Refusal :=
  match a with
  | .write word v => hostWrite word v s
  | .read word => .next { s with answers := s.answers ++ [hostRead word s] }

/-- The core between host actions: the next pending action is performed; with none left the core is idle and holds its
state (R215, 60_exceptions.md R205; log 5). -/
def advance (s : State) : Host.Outcome State Fault Refusal :=
  match s.pending with
  | [] => .next s
  | a :: rest => perform a { s with pending := rest }

/-- The host action that writes the command word in the `nbits` low bits of `w` to CMD (R26, R60). -/
def commandAction (nbits w : Nat) : HostAction := .write 0 (BitVec.ofNat 32 (w % 2 ^ nbits))

end Sys2Proof.Machine
end

