-- ==== Sys2Proof/Machine/Step.lean ====
section
/-! DEFINITION. One step of the machine, and the state whose next step runs a given instruction. -/

namespace Sys2Proof.Machine

/-- One step: one host action, or nothing where none is pending (20_memory.md R50, R52). -/
def step (s : State) : Host.Outcome State Fault Refusal := advance s

/-- `s` with the instruction in the low `nbits` bits of `w` as the host's next action, a write of CMD: where this core
gets its next instruction from (10_state.md R22; log 5). -/
def State.withFetchWord (s : State) (nbits w : Nat) : State := { s with pending := commandAction nbits w :: s.pending }

end Sys2Proof.Machine
end

