-- ==== Sys2Proof/Safety.lean ====
section
/-! DEFINITION. What counts as a safe state and a successful run, in the terms claims use. -/

namespace Sys2Proof.Machine

/-- Every listed message byte lies below MSGCAP (20_memory.md R40). -/
def Memory.inRange (m : Memory) : Bool := m.all (fun c => decide (c.1 < Config.msgCap))

/-- What every state of the core that a run reaches satisfies: ERR holds a legal value (10_state.md R23), ERRINFO is zero
while ERR is (R24), and the message memory is canonical and within the message space (R40). -/
structure State.Inv (s : State) : Prop where
  err_legal : legalErr s.err = true
  errInfo_zero : s.err = 0 → s.errInfo = 0
  msg_wf : Memory.wf s.msg = true
  msg_inRange : Memory.inRange s.msg = true

/-- A run that ended with no error recorded (70_reset_and_hazards.md R215). -/
def State.successful (s : State) : Bool := s.err == 0

/-- `t` is `s` with `v` in the data register that `wd` names, and nothing else changed: no other data register, not ERR,
ERRINFO or MSGLEN, no byte of MSG, and nothing of the host's side of the run. -/
structure State.Wrote (wd : RegField) (v : Word) (s t : State) : Prop where
  value : readReg wd t = v
  others : ∀ r : Fin 8, r ≠ regIndex wd → t.w[r] = s.w[r]
  err : t.err = s.err
  errInfo : t.errInfo = s.errInfo
  msgLen : t.msgLen = s.msgLen
  bytes : ∀ a, msgByte a t = msgByte a s
  pending : t.pending = s.pending
  answers : t.answers = s.answers

/-- `t` is `s` after `raise E(c)` (60_exceptions.md R194, R195): where no error was recorded, ERR takes the code and ERRINFO
the command word; where one was, both stay; nothing else changes. -/
structure State.Raised (e : ErrorKind) (c : Word32) (s t : State) : Prop where
  first : s.err = 0 → t.err = e.code ∧ t.errInfo = c
  sticky : s.err ≠ 0 → t.err = s.err ∧ t.errInfo = s.errInfo
  registers : ∀ r : Fin 8, t.w[r] = s.w[r]
  msgLen : t.msgLen = s.msgLen
  bytes : ∀ a, msgByte a t = msgByte a s
  pending : t.pending = s.pending
  answers : t.answers = s.answers

/-- `RotL` by any integer count, reduced by the floored modulus (41_bit_utilities.md R90). -/
def rotLInt (x : Word) (r : Int) : Word := rotL x (r % 512).toNat

/-- `RotR` by any integer count, reduced by the floored modulus (R91). -/
def rotRInt (x : Word) (r : Int) : Word := rotR x (r % 512).toNat

/-- The core's own state, without the host's side of the run: what 10_state.md names. -/
structure CoreView where
  w : Vector Word 8
  err : BitVec 4
  errInfo : Word32
  msgLen : Word32
  msg : Memory
deriving DecidableEq, Repr

/-- The core's own part of a state. -/
def State.coreView (s : State) : CoreView := ⟨s.w, s.err, s.errInfo, s.msgLen, s.msg⟩

end Sys2Proof.Machine

namespace Sys2Proof

/-- The same command with another destination register. -/
def Instr.withDest (d : RegField) : Instr → Instr
  | .ldi _ imm => .ldi d imm
  | .ldb _ => .ldb d
  | .rol _ wa imm => .rol d wa imm
  | .ror _ wa imm => .ror d wa imm
  | .inv _ wa => .inv d wa
  | .enc _ => .enc d
  | .mix _ wa wb => .mix d wa wb
  | .ext _ wa wb => .ext d wa wb
  | .fmix _ wa wb => .fmix d wa wb
  | .digest _ => .digest d

/-- The significand is even, which decides a tie (00_scope.md R13). -/
def F64.evenSignificand : F64 → Bool
  | .finite _ m _ => m % 2 == 0
  | .infinite _ => false
  | .nan => false

/-- What `rn(r)` says of a real `r` whose rounding is finite (R13): a canonical finite binary64, none nearer, and of two
equally near the one with the even significand. -/
structure F64.IsRounding (r : ℝ) (f : F64) : Prop where
  canonical : f.canonical = true
  finite : f.isFinite = true
  nearest : ∀ g : F64, g.canonical = true → g.isFinite = true → |(f.rat : ℝ) - r| ≤ |(g.rat : ℝ) - r|
  even : ∀ g : F64, g.canonical = true → g.isFinite = true → |(f.rat : ℝ) - r| = |(g.rat : ℝ) - r| →
    g.rat ≠ f.rat → f.evenSignificand = true

end Sys2Proof
end

