-- ==== Sys2Proof/Certificates/Slice0/Obligations.lean ====
section
/-! DEFINITION. The statements about the SQH core, for the provers. A docstring names the rules of the spec a statement
formalises; a statement that rests on a choice of the model says so and names the log entry. -/

open Sys2Proof Sys2Proof.Machine

/-! ### The commands: completion, result and frame -/

/-- R185: `LDI wd, #imm` writes the immediate, zero-extended, and nothing else. -/
def Obligations.LdiWritesImmediate : Prop :=
  ∀ (wd : RegField) (imm : Imm) (s : State), legalReg wd = true →
    ∃ (v : Word) (t : State), exec (.ldi wd imm) s = .next t ∧ State.Wrote wd v s t ∧ v.toNat = imm.toNat

/-- R186: with MSGLEN = 64, `LDB wd` writes the 64 message bytes, `MSG[0]` the most significant, and nothing else. -/
def Obligations.LdbWritesMessageBytes : Prop :=
  ∀ (wd : RegField) (s : State), legalReg wd = true → s.msgLen = 64#32 →
    ∃ (v : Word) (t : State), exec (.ldb wd) s = .next t ∧ State.Wrote wd v s t ∧
      v.toNat = ∑ n ∈ Finset.range 64, (msgByte n s).toNat * 2 ^ (8 * (63 - n))

/-- R186, R191: with another MSGLEN that is not above MSGCAP, `LDB` raises InvalidBlockLength and does nothing else. -/
def Obligations.LdbWrongLengthRaises : Prop :=
  ∀ (wd : RegField) (s : State), legalReg wd = true → s.msgLen.toNat ≤ Config.msgCap → s.msgLen.toNat ≠ 64 →
    ∃ t : State, exec (.ldb wd) s = .next t ∧ State.Raised .invalidBlockLength (encode (.ldb wd)) s t

/-- R193, R196: with MSGLEN above MSGCAP, LDB, ENC and DIGEST raise LengthRange and do nothing else. -/
def Obligations.LongMessageRaisesLengthRange : Prop :=
  ∀ (wd : RegField) (s : State) (i : Instr), legalReg wd = true → Config.msgCap < s.msgLen.toNat →
    i ∈ [Instr.ldb wd, Instr.enc wd, Instr.digest wd] →
    ∃ t : State, exec i s = .next t ∧ State.Raised .lengthRange (encode i) s t

/-- R94: `ROL wd, wa, #imm` moves bit `n` of `W[wa]` to bit `(n + imm) mod 512` of `W[wd]`, and changes nothing else. -/
def Obligations.RolRotatesLeft : Prop :=
  ∀ (wd wa : RegField) (imm : Imm) (s : State), legalReg wd = true → legalReg wa = true →
    ∃ (v : Word) (t : State), exec (.rol wd wa imm) s = .next t ∧ State.Wrote wd v s t ∧
      ∀ n < 512, v.getLsbD ((n + imm.toNat) % 512) = (readReg wa s).getLsbD n

/-- R95: `ROR wd, wa, #imm` moves bit `(n + imm) mod 512` of `W[wa]` to bit `n` of `W[wd]`, and changes nothing else. -/
def Obligations.RorRotatesRight : Prop :=
  ∀ (wd wa : RegField) (imm : Imm) (s : State), legalReg wd = true → legalReg wa = true →
    ∃ (v : Word) (t : State), exec (.ror wd wa imm) s = .next t ∧ State.Wrote wd v s t ∧
      ∀ n < 512, v.getLsbD n = (readReg wa s).getLsbD ((n + imm.toNat) % 512)

/-- R92, R96: `INV wd, wa` writes `W[wa] XOR (2^512 - 1)`, which is `(2^512 - 1) - W[wa]` and flips every bit, and changes
nothing else. -/
def Obligations.InvFlipsEveryBit : Prop :=
  ∀ (wd wa : RegField) (s : State), legalReg wd = true → legalReg wa = true →
    ∃ (v : Word) (t : State), exec (.inv wd wa) s = .next t ∧ State.Wrote wd v s t ∧
      v = inv512 (readReg wa s) ∧ v = readReg wa s ^^^ BitVec.allOnes 512 ∧
      v.toNat = 2 ^ 512 - 1 - (readReg wa s).toNat ∧ ∀ n < 512, v.getLsbD n = !(readReg wa s).getLsbD n

/-- R69: `MOV wd, wa` is `ROL wd, wa, #0`; its word, and that it copies a register and changes nothing else. -/
def Obligations.MovCopiesRegister : Prop :=
  ∀ (wd wa : RegField) (s : State), legalReg wd = true → legalReg wa = true →
    Instr.mov wd wa = .rol wd wa 0 ∧
    (encode (Instr.mov wd wa)).toNat = 0x10000000 + wd.toNat * 2 ^ 20 + wa.toNat * 2 ^ 16 ∧
    ∃ t : State, exec (Instr.mov wd wa) s = .next t ∧ State.Wrote wd (readReg wa s) s t

/-- R107, R105: with MSGLEN not above MSGCAP, `ENC wd` writes `EncodeToBlock` of the bytes `MSG[0 .. MSGLEN-1]`, which is the
fold of the chunks of the padded message, and changes nothing else. -/
def Obligations.EncWritesEncodedMessage : Prop :=
  ∀ (wd : RegField) (s : State), legalReg wd = true → s.msgLen.toNat ≤ Config.msgCap →
    ∃ (m : List Byte) (t : State), m.length = s.msgLen.toNat ∧ (∀ k < m.length, m[k]? = some (msgByte k s)) ∧
      encodeToBlock m = fold (chunks m) ∧ exec (.enc wd) s = .next t ∧ State.Wrote wd (encodeToBlock m) s t

/-- R133, R129, R113, R114, R127, R130, R132: `MIX wd, wa, wb` writes `Mix(W[wa], W[wb])` and changes nothing else. The value
is the finalisation of iterations 0 to 255 in order, from `W[wb] mod PRIME` and a previous base of 0, with the exact
product that this hardware takes (R119); it has bit 511 set, and is the same for every previous state. -/
def Obligations.MixWritesMixedState : Prop :=
  ∀ (wd wa wb : RegField) (s : State), legalReg wd = true → legalReg wa = true → legalReg wb = true →
    ∃ (v : Word) (t : State) (acc : Nat → MixAcc), exec (.mix wd wa wb) s = .next t ∧ State.Wrote wd v s t ∧
      v = mix Config.num Config.quantMul (readReg wa s) (readReg wb s) ∧ Config.quantMul = .exact ∧
      acc 0 = ⟨(readReg wb s).toNat % (2 ^ 521 - 1), 0⟩ ∧
      (∀ i < 256, acc (i + 1) = mixRound Config.num .exact (readReg wa s) (acc i) i) ∧
      v = BitVec.ofNat 512 (acc 256).state ||| BitVec.twoPow 512 511 ∧
      (∀ p : Word, v = mix Config.num Config.quantMul (readReg wa s) p) ∧ v.getLsbD 511 = true ∧ v ≠ 1

/-- R167, R165: `EXT wd, wa, wb` writes the 256 symbols of the angles of the curve of `W[wb]` sampled for the block `W[wa]`,
the first symbol in bits [511:510], and changes nothing else. -/
def Obligations.ExtWritesSymbols : Prop :=
  ∀ (wd wa wb : RegField) (s : State), legalReg wd = true → legalReg wa = true → legalReg wb = true →
    ∃ (v : Word) (t : State) (angles : List F64), exec (.ext wd wa wb) s = .next t ∧ State.Wrote wd v s t ∧
      angles = curveAngles Config.num (readReg wa s) (readReg wb s) ∧ angles.length = 256 ∧
      v.toNat = ∑ i ∈ Finset.range 256, symbol Config.num (angles.getD i .nan) * 2 ^ (510 - 2 * i) ∧
      ∀ i < 256, (group v i).toNat = symbol Config.num (angles.getD i .nan)

/-- R170, R171: `FMIX wd, wa, wb` writes `x2` of the three steps, also in their expanded form, and changes nothing else. -/
def Obligations.FmixWritesFinalMix : Prop :=
  ∀ (wd wa wb : RegField) (s : State), legalReg wd = true → legalReg wa = true → legalReg wb = true →
    ∃ (x0 x1 x2 : Word) (t : State), exec (.fmix wd wa wb) s = .next t ∧ State.Wrote wd x2 s t ∧
      x0 = readReg wa s ^^^ readReg wb s ∧ x1 = x0 ^^^ rotL x0 13 ∧ x2 = x1 ^^^ rotR x1 7 ∧
      x2 = x0 ^^^ rotL x0 13 ^^^ rotR x0 7 ^^^ rotL x0 6

/-- R177, R175: with MSGLEN not above MSGCAP, `DIGEST wd` writes the value of the pipeline on the bytes
`MSG[0 .. MSGLEN-1]`, and changes nothing else. -/
def Obligations.DigestWritesPipelineValue : Prop :=
  ∀ (wd : RegField) (s : State), legalReg wd = true → s.msgLen.toNat ≤ Config.msgCap →
    ∃ (m : List Byte) (block seedState h1 h2 : Word) (t : State),
      m.length = s.msgLen.toNat ∧ (∀ k < m.length, m[k]? = some (msgByte k s)) ∧
      block = encodeToBlock m ∧ seedState = mix Config.num Config.quantMul block 1 ∧
      h1 = extractBits Config.num block seedState ∧ h2 = mix Config.num Config.quantMul (inv512 h1) seedState ∧
      exec (.digest wd) s = .next t ∧ State.Wrote wd (finalMix h1 h2) s t

/-- The model's choice (log 9): a command with a register field of 8 or more, which no word decodes to, raises
IllegalCommand with its own word, as R66 has it of that word. -/
def Obligations.IllFormedCommandRaises : Prop :=
  ∀ (i : Instr) (s : State), i.wellFormed = false →
    ∃ t : State, exec i s = .next t ∧ State.Raised .illegalCommand (encode i) s t

/-- R188, R206: whatever a command does, MSG, MSGLEN and every register but its destination keep their values; where ERR
changes, no register does, no error was recorded before, and ERRINFO takes the command's word. -/
def Obligations.CommandFrame : Prop :=
  ∀ (i : Instr) (s t : State), exec i s = .next t →
    (∀ r : Fin 8, r ≠ regIndex i.dest → t.w[r] = s.w[r]) ∧ t.msgLen = s.msgLen ∧
    (∀ a, msgByte a t = msgByte a s) ∧ t.pending = s.pending ∧ t.answers = s.answers ∧
    (t.err ≠ s.err → t.w = s.w ∧ s.err = 0 ∧ t.errInfo = encode i) ∧ (t.err = s.err → t.errInfo = s.errInfo)

/-- R219: the value a command writes does not depend on which register it is written to, the command's own sources
included. -/
def Obligations.DestinationDoesNotMatter : Prop :=
  ∀ (i : Instr) (d : RegField) (s : State), i.wellFormed = true → legalReg d = true →
    s.msgLen.toNat ≤ Config.msgCap → ((∃ wd, i = .ldb wd) → s.msgLen = 64#32) →
    ∃ (v : Word) (t u : State), exec i s = .next t ∧ exec (i.withDest d) s = .next u ∧
      State.Wrote i.dest v s t ∧ State.Wrote d v s u

/-- R41, R180: two states that differ only in message bytes at or above MSGLEN, and in what their runs have yet to do and
have read, get the same registers, ERR and ERRINFO from every command. -/
def Obligations.BytesAboveLengthDoNotMatter : Prop :=
  ∀ (i : Instr) (s s' : State), s'.w = s.w → s'.err = s.err → s'.errInfo = s.errInfo → s'.msgLen = s.msgLen →
    (∀ a < s.msgLen.toNat, msgByte a s' = msgByte a s) →
    ∃ t t' : State, exec i s = .next t ∧ exec i s' = .next t' ∧ t'.w = t.w ∧ t'.err = t.err ∧ t'.errInfo = t.errInfo

/-! ### Errors -/

/-- R194: `raise` records the error and the command word where none is recorded, and writes nothing else. With one
recorded, a further `raise` changes nothing at all. -/
def Obligations.RaiseRecordsFirstError : Prop :=
  ∀ (e : ErrorKind) (c : Word32) (s : State), State.Raised e c s (raise e c s) ∧
    ∀ (f : ErrorKind) (d : Word32), raise f d (raise e c s) = raise e c s

/-- R195: a recorded error does not change what a command writes to the registers. -/
def Obligations.RecordedErrorDoesNotBlock : Prop :=
  ∀ (i : Instr) (s : State) (e : BitVec 4) (c : Word32),
    ∃ t u : State, exec i s = .next t ∧ exec i { s with err := e, errInfo := c } = .next u ∧ u.w = t.w ∧
      (e ≠ 0 → u.err = e ∧ u.errInfo = c)

/-- R197: a host write to STATUS with any of bits [3:0] set clears ERR and ERRINFO; with none set it changes nothing; it
has no other effect. -/
def Obligations.StatusWriteClearsError : Prop :=
  ∀ (v : Word32) (s : State), ∃ t : State, hostWrite 1 v s = .next t ∧
    (v.toNat % 16 ≠ 0 → t.err = 0 ∧ t.errInfo = 0) ∧ (v.toNat % 16 = 0 → t = s) ∧
    (∀ r : Fin 8, t.w[r] = s.w[r]) ∧ t.msgLen = s.msgLen ∧ (∀ a, msgByte a t = msgByte a s) ∧
    t.pending = s.pending ∧ t.answers = s.answers

/-! ### The step -/

/-- R70, R26: where the host's next action writes a word to CMD that decodes to a command, the step is that command's
meaning in the state without the action (the model's `pending`, log 5); and a step on `withFetchWord` runs its instruction.
R50, R216: a step whose next action is a write, of CMD or of any other word, performs that write. -/
def Obligations.StepRunsDecodedCommand : Prop :=
  (∀ (s : State) (c : Word32) (rest : List HostAction) (i : Instr), s.pending = .write 0 c :: rest → decode c = some i →
    step s = exec i { s with pending := rest }) ∧
  (∀ (s : State) (word : Nat) (v : Word32) (rest : List HostAction), s.pending = .write word v :: rest →
    step s = hostWrite word v { s with pending := rest }) ∧
  ∀ (s : State) (nbits w : Nat) (i : Instr), decodeTableWord nbits w = some i → step (s.withFetchWord nbits w) = exec i s

/-- R66, R70: where the host's next action writes an illegal word to CMD, the step raises IllegalCommand with that word and
does nothing else but take the action off the list. -/
def Obligations.IllegalWordRaises : Prop :=
  ∀ (s : State) (c : Word32) (rest : List HostAction), s.pending = .write 0 c :: rest → decode c = none →
    ∃ t : State, step s = .next t ∧ State.Raised .illegalCommand c { s with pending := rest } t

/-- R47, R205, R215: a read only adds the word read to the answers (the model's list, log 5), and an idle core does
nothing. -/
def Obligations.ReadsAndIdlingChangeNothing : Prop :=
  (∀ (s : State) (word : Nat) (rest : List HostAction), s.pending = .read word :: rest →
    ∃ t : State, step s = .next t ∧ t.coreView = s.coreView ∧ t.pending = rest ∧
      t.answers = s.answers ++ [hostRead word s]) ∧
  ∀ s : State, s.pending = [] → step s = .next s

/-- R198, R220: no state stops the core. Every step answers a next state and takes one host action off the list, so that
every finite program runs to its end. -/
def Obligations.EveryProgramRunsToItsEnd : Prop :=
  (∀ s : State, ∃ t : State, step s = .next t ∧ t.pending = s.pending.tail) ∧
  ∀ s : State, ∃ t : State, Host.Core.run core s.pending.length s = .next t ∧ t.pending = []

/-- R23, R24, R40: every step, from every state that satisfies it, keeps the invariant: ERR has a legal value, ERRINFO is
zero while ERR is, and the message memory is canonical and within the message space. -/
def Obligations.StepKeepsInvariant : Prop :=
  ∀ s t : State, s.Inv → step s = .next t → t.Inv

/-- The state after reset satisfies the invariant. -/
def Obligations.ResetSatisfiesInvariant : Prop := State.reset.Inv

/-- R211, R34: what the host reads right after reset. That a message byte reads as the free value `Config.msgInit` is the
model's choice (log 1), as are the empty lists of the host's side (log 5). -/
def Obligations.ResetState : Prop :=
  (∀ r : Fin 8, State.reset.w[r] = 0) ∧ hostRead 1 State.reset = 0 ∧ hostRead 2 State.reset = 0 ∧
  hostRead 3 State.reset = 0 ∧ (∀ a, msgByte a State.reset = Config.msgInit a) ∧
  State.reset.pending = [] ∧ State.reset.answers = []

/-! ### The host window -/

/-- R48, R176: word `k` of the window of `W[i]` is `W[i][511-32k : 480-32k]`, its eight lowercase digits are digits
`8k .. 8k+7` of `Hex128(W[i])`, which has 128 digits, and a write to it is ignored. -/
def Obligations.RegisterWindowShowsRegister : Prop :=
  ∀ (s : State) (i : Fin 8) (k : Fin 16),
    (hostRead (64 + 16 * i.val + k.val) s).toNat = s.w[i].toNat / 2 ^ (480 - 32 * k.val) % 2 ^ 32 ∧
    (hex128 s.w[i]).length = 128 ∧
    (∀ n < 8, (hex128 s.w[i]).toList[8 * k.val + n]? =
      "0123456789abcdef".toList[(hostRead (64 + 16 * i.val + k.val) s).toNat / 2 ^ (28 - 4 * n) % 16]?) ∧
    ∀ v : Word32, hostWrite (64 + 16 * i.val + k.val) v s = .next s

/-- R49, R80: the trig ROM windows give the high and the low word of the bit pattern of each entry, the sine and the cosine
of `F64(d) ⊗ DEG2RAD`, and ignore writes. -/
def Obligations.TrigWindowsShowTables : Prop :=
  ∀ (s : State) (d : Nat), d < 360 →
    sinTab Config.num d = Config.num.sin ((F64.ofNat d).mul F64.deg2rad) ∧
    cosTab Config.num d = Config.num.cos ((F64.ofNat d).mul F64.deg2rad) ∧
    (hostRead (0x400 + 2 * d) s).toNat = (sinTab Config.num d).toBits.toNat / 2 ^ 32 ∧
    (hostRead (0x401 + 2 * d) s).toNat = (sinTab Config.num d).toBits.toNat % 2 ^ 32 ∧
    (hostRead (0x800 + 2 * d) s).toNat = (cosTab Config.num d).toBits.toNat / 2 ^ 32 ∧
    (hostRead (0x801 + 2 * d) s).toNat = (cosTab Config.num d).toBits.toNat % 2 ^ 32 ∧
    ∀ v : Word32, hostWrite (0x400 + 2 * d) v s = .next s ∧ hostWrite (0x401 + 2 * d) v s = .next s ∧
      hostWrite (0x800 + 2 * d) v s = .next s ∧ hostWrite (0x801 + 2 * d) v s = .next s

/-- R55: every reserved offset of the map of R43 reads 0 and ignores writes; no error is raised. -/
def Obligations.ReservedOffsetsReadZero : Prop :=
  ∀ (s : State) (word : Nat),
    (0x0010 ≤ 4 * word ∧ 4 * word ≤ 0x00FC) ∨ (0x0300 ≤ 4 * word ∧ 4 * word ≤ 0x0FFC) ∨
      (0x1B40 ≤ 4 * word ∧ 4 * word ≤ 0x1FFC) ∨ (0x2B40 ≤ 4 * word ∧ 4 * word ≤ 0x3FFC) ∨
      0x4000 + Config.msgCap ≤ 4 * word →
    hostRead word s = 0 ∧ ∀ v : Word32, hostWrite word v s = .next s

/-- R56: a word of the message window is four message bytes, the lower address more significant; a write of it sets those
four bytes and changes nothing else. -/
def Obligations.MessageWindowReadsAndWrites : Prop :=
  ∀ (s : State) (n : Nat), n < Config.msgCap / 4 →
    (hostRead (0x1000 + n) s).toNat = (msgByte (4 * n) s).toNat * 2 ^ 24 + (msgByte (4 * n + 1) s).toNat * 2 ^ 16 +
      (msgByte (4 * n + 2) s).toNat * 2 ^ 8 + (msgByte (4 * n + 3) s).toNat ∧
    ∀ v : Word32, ∃ t : State, hostWrite (0x1000 + n) v s = .next t ∧
      msgByte (4 * n) t = v.extractLsb' 24 8 ∧ msgByte (4 * n + 1) t = v.extractLsb' 16 8 ∧
      msgByte (4 * n + 2) t = v.extractLsb' 8 8 ∧ msgByte (4 * n + 3) t = v.extractLsb' 0 8 ∧
      (∀ a, a < 4 * n ∨ 4 * n + 4 ≤ a → msgByte a t = msgByte a s) ∧
      (∀ r : Fin 8, t.w[r] = s.w[r]) ∧ t.err = s.err ∧ t.errInfo = s.errInfo ∧ t.msgLen = s.msgLen ∧
      t.pending = s.pending ∧ t.answers = s.answers

/-- R23 to R26: reads of the control registers, the ignored write of ERRINFO, and the write of MSGLEN, which stores any
32-bit value and changes nothing else. -/
def Obligations.ControlRegisterAccess : Prop :=
  ∀ (s : State) (v : Word32),
    hostRead 0 s = 0 ∧ (hostRead 1 s).toNat = s.err.toNat ∧ hostRead 2 s = s.errInfo ∧ hostRead 3 s = s.msgLen ∧
    hostWrite 2 v s = .next s ∧
    ∃ t : State, hostWrite 3 v s = .next t ∧ hostRead 3 t = v ∧ (∀ r : Fin 8, t.w[r] = s.w[r]) ∧ t.err = s.err ∧
      t.errInfo = s.errInfo ∧ (∀ a, msgByte a t = msgByte a s) ∧ t.pending = s.pending ∧ t.answers = s.answers

/-! ### The bit utilities and the final mixer -/

/-- R90, R91: both rotations, by any integer count: the two summands, that they have no set bit in common, where each bit
goes, one in terms of the other, a count of 0 modulo 512, and that the commands' counts are a special case. -/
def Obligations.RotationFormulas : Prop :=
  ∀ (x : Word) (r : Int) (k : Nat), (k : Int) = r % 512 →
    (rotLInt x r).toNat = x.toNat * 2 ^ k % 2 ^ 512 + x.toNat / 2 ^ (512 - k) ∧
    (x.toNat * 2 ^ k % 2 ^ 512) &&& (x.toNat / 2 ^ (512 - k)) = 0 ∧
    (∀ n : Nat, n < 512 → (rotLInt x r).getLsbD (((n : Int) + r) % 512).toNat = x.getLsbD n) ∧
    (rotRInt x r).toNat = x.toNat / 2 ^ k + x.toNat * 2 ^ (512 - k) % 2 ^ 512 ∧
    (∀ n : Nat, n < 512 → (rotRInt x r).getLsbD (((n : Int) - r) % 512).toNat = x.getLsbD n) ∧
    rotRInt x r = rotLInt x (512 - r) ∧ (k = 0 → rotLInt x r = x ∧ rotRInt x r = x) ∧
    ∀ n : Nat, rotL x n = rotLInt x n ∧ rotR x n = rotRInt x n

/-- R93 (a) to (g), for every integer count. -/
def Obligations.RotationLaws : Prop :=
  ∀ (x y : Word) (r t : Int),
    rotRInt (rotLInt x r) r = x ∧
    rotLInt x 0 = x ∧ rotLInt x 512 = x ∧ rotLInt x r = rotLInt x (r % 512) ∧
    rotLInt (rotLInt x r) t = rotLInt x (r + t) ∧
    inv512 (inv512 x) = x ∧
    rotLInt (inv512 x) r = inv512 (rotLInt x r) ∧
    rotLInt (x ^^^ y) r = rotLInt x r ^^^ rotLInt y r ∧
    (∀ n : Nat, diffuse x n = x ^^^ rotLInt (inv512 x) n ∧ diffuse x n = x ^^^ rotLInt x n ^^^ BitVec.allOnes 512) ∧
    diffuse x 0 = BitVec.allOnes 512

/-- R172 (a) to (e): symmetry, zero on equal operands, dependence on the XOR only, linearity, the four result bits that one
operand bit toggles, an even number of set bits, and that bit 511 need not be set. -/
def Obligations.FinalMixProperties : Prop :=
  (∀ h1 h2 : Word, finalMix h1 h2 = finalMix h2 h1) ∧
  (∀ h : Word, finalMix h h = 0) ∧ (∀ h1 h2 : Word, finalMix h1 h2 = finalMix (h1 ^^^ h2) 0) ∧
  (∀ a b c d : Word, finalMix (a ^^^ b) (c ^^^ d) = finalMix a c ^^^ finalMix b d) ∧
  (∀ n < 512, finalMix (BitVec.twoPow 512 n) 0 = BitVec.twoPow 512 n ^^^ BitVec.twoPow 512 ((n + 13) % 512) ^^^
    BitVec.twoPow 512 ((n + 505) % 512) ^^^ BitVec.twoPow 512 ((n + 6) % 512)) ∧
  (∀ h1 h2 : Word, ((List.range 512).countP (fun n => (finalMix h1 h2).getLsbD n)) % 2 = 0) ∧
  (∃ h1 h2 : Word, finalMix h1 h2 ≠ 0 ∧ (finalMix h1 h2).getLsbD 511 = false)

/-! ### The block encoder -/

/-- R102: the padded message, its length, and its number of zero bits. -/
def Obligations.PaddedMessage : Prop :=
  8 * Config.msgCap < 2 ^ 35 ∧
  ∀ m : List Byte, ∃ (z : Nat) (b : List Byte), (z : Int) = (55 - (m.length : Int)) % 64 ∧
    pad m = m ++ [0x80#8] ++ List.replicate z 0#8 ++ b ∧ b.length = 8 ∧ bytesToNat b = 8 * m.length % 2 ^ 64 ∧
    (pad m).length = m.length + 1 + z + 8 ∧ (pad m).length % 64 = 0 ∧ 64 ≤ (pad m).length ∧
    (8 * m.length + 1 + (8 * z + 7)) % 512 = 448 ∧
    (m.length ≤ Config.msgCap → 8 * m.length % 2 ^ 64 = 8 * m.length)

/-- R103: the chunks are the padded message cut into 64-byte pieces, the first byte of a piece in bits [511:504]; their
number; one chunk exactly up to 55 bytes. -/
def Obligations.MessageChunks : Prop :=
  ∀ m : List Byte, (chunks m).length = (pad m).length / 64 ∧ (chunks m).length = (m.length + 8) / 64 + 1 ∧
    ((chunks m).length = 1 ↔ m.length ≤ 55) ∧
    ∀ j < (chunks m).length, ∃ c : Word, (chunks m)[j]? = some c ∧
      ∀ k < 64, (pad m)[64 * j + k]? = some (c.extractLsb' (8 * (63 - k)) 8)

/-- R104: the fold of one chunk is that chunk; a bit of the fold is the parity of the chunks' bits there; the order of the
chunks does not matter. -/
def Obligations.FoldIsParity : Prop :=
  (∀ c : Word, fold [c] = c) ∧
  (∀ (cs : List Word) (n : Nat), (fold cs).getLsbD n = decide ((cs.countP (fun c => c.getLsbD n)) % 2 = 1)) ∧
  ∀ cs ds : List Word, cs.Perm ds → fold cs = fold ds

/-- R106: two different messages that swap their halves' heads collapse to one block and one digest value. -/
def Obligations.FoldCollision : Prop :=
  ∀ (x y r : List Byte), 1 ≤ x.length → x.length ≤ 55 → y.length = x.length → r.length = 64 - x.length →
    encodeToBlock (x ++ r ++ y) = encodeToBlock (y ++ r ++ x) ∧
    ∀ (num : Numerics) (q : QuantMul), digestValue num q (x ++ r ++ y) = digestValue num q (y ++ r ++ x)

/-! ### The mixer -/

/-- R111 to R126: one iteration computes steps 1 to 12, the phase through `sin_deg`, the power exactly; and the power is
positive (R120). -/
def Obligations.MixIterationSteps : Prop :=
  ∀ (num : Numerics) (block : Word) (acc : MixAcc) (i : Nat), i < 256 →
    ∀ (g base : Nat) (angle phase sinVal cosVal : F64) (powmod shift : Nat) (rotated : Word),
      g = block.toNat / 2 ^ (510 - 2 * i) % 4 →
      base = (if g = 0 then 23 else if g = 1 then 29 else if g = 2 then 31 else 37) →
      angle = (F64.ofNat ((g + 1) * (i + 2))).mul F64.deg2rad →
      phase = sinDeg num (((F64.ofNat (acc.state % 2 ^ 30)).div (F64.ofNat (2 ^ 30))).mul (F64.ofNat 360)) →
      sinVal = num.sin (angle.add phase) → cosVal = num.cos (angle.sub phase) →
      powmod = base ^ (i + 1 + quantize .exact sinVal % 2 ^ 30) % (2 ^ 521 - 1) →
      (shift : Int) = max 1 ((2 * (i : Int) - 1 + acc.prevBase * base) % 511) →
      rotated = rotL (BitVec.ofNat 512 (acc.state * powmod % (2 ^ 521 - 1)) ^^^
        BitVec.ofNat 512 (quantize .exact cosVal * 2 ^ shift)) shift →
      mixRound num .exact block acc i = ⟨(rotated ^^^ rotL (inv512 rotated) i).toNat, base⟩ ∧
        0 < powmod ∧ 1 ≤ shift ∧ shift ≤ 510

/-- R130: the first iteration leaves all ones whatever the operands are, and passes on only the first group's base; so the
result does not depend on the previous state, and the second iteration's phase is the last entry of SINTAB. -/
def Obligations.MixForgetsPreviousState : Prop :=
  ∀ (num : Numerics) (q : QuantMul) (block s s' : Word),
    mixRounds num q block s 1 = ⟨2 ^ 512 - 1, baseTable (group block 0)⟩ ∧ mix num q block s = mix num q block s' ∧
    (mixRounds num q block s 1).state % 2 ^ 30 = 2 ^ 30 - 1 ∧
    phaseOf num (mixRounds num q block s 1).state = sinTab num 359

/-- R118, R119: the quantisation of a value in -1 .. 1 is in `1 .. 2^256 - 1`, and halving is exact. R115 to R117: for every
NUM with N2 the sine and the cosine that an iteration quantises are such values, and their operands are finite. -/
def Obligations.QuantizeRange : Prop :=
  (∀ (num : Numerics) (degrees state : Nat), num.Assumed → degrees ≤ 1028 →
    ∀ angle phase : F64, angle = (F64.ofNat degrees).mul F64.deg2rad → phase = phaseOf num state →
      (angle.add phase).isFinite = true ∧ (angle.sub phase).isFinite = true ∧
      ∀ v ∈ [phase, num.sin (angle.add phase), num.cos (angle.sub phase)],
        v.canonical = true ∧ v.isFinite = true ∧ -1 ≤ v.rat ∧ v.rat ≤ 1) ∧
  ∀ v : F64, v.canonical = true → v.isFinite = true → -1 ≤ v.rat → v.rat ≤ 1 →
    (unitOf v).isFinite = true ∧ (unitOf v).rat = (v.add (F64.ofNat 1)).rat / 2 ∧ 0 ≤ (unitOf v).rat ∧ (unitOf v).rat ≤ 1 ∧
    (quantize .exact v : Int) = max 1 ⌊(unitOf v).rat * (2 ^ 256 - 1)⌋ ∧ 1 ≤ quantize .exact v ∧
    quantize .exact v ≤ 2 ^ 256 - 1

/-- R131: the exponent of step 6 takes one of two values, and the quantised cosine is one less than the scaled value. -/
def Obligations.ExponentTakesTwoValues : Prop :=
  ∀ (pos : Nat) (v : F64), v.canonical = true → v.isFinite = true → -1 ≤ v.rat → v.rat ≤ 1 →
    (v.rat = -1 → quantize .exact v = 1 ∧ mixExponent .exact pos v = pos + 1 ∧ mixExponent .binary64 pos v = pos + 1) ∧
    (v.rat ≠ -1 → ((quantize .exact v : Nat) : ℚ) = (unitOf v).rat * 2 ^ 256 - 1 ∧
      mixExponent .exact pos v = pos + 1073741823 ∧ mixExponent .binary64 pos v = pos)

/-! ### The tables and the arithmetic -/

/-- R85: the mixer's table index is computed without rounding: `LutIndex` of the binary64 expression is the integer
`(m * 360) >> 30`, below 360. -/
def Obligations.PhaseIndexIsExact : Prop :=
  ∀ m : Nat, m < 2 ^ 30 →
    lutIndex (((F64.ofNat m).div (F64.ofNat (2 ^ 30))).mul (F64.ofNat 360)) = some ((m * 360) >>> 30) ∧
    (m * 360) >>> 30 < 360

/-- R80 to R83: the table index of a finite angle is its floor modulo 360, in 0..359, and both functions read that entry,
the sine and the cosine of `F64(d) ⊗ DEG2RAD`. -/
def Obligations.LutIndexIsFloorMod : Prop :=
  ∀ (num : Numerics) (a : F64), a.isFinite = true →
    ∃ d : Nat, d < 360 ∧ (d : Int) = ⌊a.rat⌋ % 360 ∧ lutIndex a = some d ∧
      sinDeg num a = sinTab num d ∧ sinTab num d = num.sin ((F64.ofNat d).mul F64.deg2rad) ∧
      cosDeg num a = cosTab num d ∧ cosTab num d = num.cos ((F64.ofNat d).mul F64.deg2rad)

/-- R13: each operator on finite operands answers the exact result rounded to the nearest binary64, ties to even, wherever
the exact result is no greater in size than the greatest finite binary64, and wherever else the answer is finite. -/
def Obligations.OperatorsRoundOnce : Prop :=
  ∀ (a b : F64) (greatest : ℚ), greatest = (2 ^ 53 - 1) * 2 ^ 971 → a.isFinite = true → b.isFinite = true →
    (|a.rat + b.rat| ≤ greatest ∨ (a.add b).isFinite = true → F64.IsRounding (a.rat + b.rat : ℝ) (a.add b)) ∧
    (|a.rat - b.rat| ≤ greatest ∨ (a.sub b).isFinite = true → F64.IsRounding (a.rat - b.rat : ℝ) (a.sub b)) ∧
    (|a.rat * b.rat| ≤ greatest ∨ (a.mul b).isFinite = true → F64.IsRounding (a.rat * b.rat : ℝ) (a.mul b)) ∧
    (b.rat ≠ 0 → |a.rat / b.rat| ≤ greatest ∨ (a.div b).isFinite = true →
      F64.IsRounding (a.rat / b.rat : ℝ) (a.div b))

/-- R14, R15: SIN, COS and ATAN of this hardware are the correctly rounded functions, on every finite operand. PI is the
binary64 nearest π, and the two conversion factors are the quotients of R15, with its bit patterns. -/
def Obligations.ElementaryCorrectlyRounded : Prop :=
  (F64.IsRounding Real.pi F64.pi ∧ F64.pi.toBits = 0x400921FB54442D18#64 ∧
    F64.deg2rad = F64.pi.div (F64.ofNat 180) ∧ F64.deg2rad.toBits = 0x3F91DF46A2529D39#64 ∧
    F64.rad2deg = (F64.ofNat 180).div F64.pi ∧ F64.rad2deg.toBits = 0x404CA5DC1A63C1F8#64) ∧
  ∀ x : F64, x.isFinite = true →
    F64.IsRounding (Real.sin x.rat) (Config.num.sin x) ∧ F64.IsRounding (Real.cos x.rat) (Config.num.cos x) ∧
    F64.IsRounding (Real.arctan x.rat) (Config.num.atan x)

/-- R14, N2 and N3: on finite operands SIN and COS of this hardware are finite binary64 values, in canonical form, within
-1 .. 1, and ATAN is one within `PI ⊘ 2`. -/
def Obligations.NumIsBounded : Prop := Config.num.Assumed

/-! ### The extractor -/

/-- R142: the curve parameters are finite and in their ranges, for every NUM with N2. -/
def Obligations.CurveParamsInRange : Prop :=
  ∀ (num : Numerics) (seed : Word), num.Assumed →
    (curveParams num seed).a.isFinite = true ∧ -9 ≤ (curveParams num seed).a.rat ∧ (curveParams num seed).a.rat ≤ 11 ∧
    (curveParams num seed).b.isFinite = true ∧ -9 ≤ (curveParams num seed).b.rat ∧ (curveParams num seed).b.rat ≤ 11 ∧
    (curveParams num seed).c.isFinite = true ∧ 0 ≤ (curveParams num seed).c.rat ∧
      (curveParams num seed).c.rat ≤ F64.pi.rat ∧
    (curveParams num seed).d.isFinite = true ∧ 0 ≤ (curveParams num seed).d.rat ∧ (curveParams num seed).d.rat ≤ 10

/-- R144: sample positions need not rise from one group to the next, but a position two or more groups on lies above. -/
def Obligations.SamplePositionsSpread : Prop :=
  (∀ i j g h : Nat, i + 2 ≤ j → j < 256 → g < 4 → h < 4 → (samplePos i g).lt (samplePos j h) = true) ∧
  ∀ i < 255, (samplePos (i + 1) 3).lt (samplePos i 2) = true

/-- R145: both end points belong to the grid, between finite ends of moderate size. -/
def Obligations.GridHasItsEnds : Prop :=
  ∀ a b : F64, a.canonical = true → a.isFinite = true → b.isFinite = true → |a.rat| ≤ 2 ^ 64 → |b.rat| ≤ 2 ^ 64 →
    (gridPoint a b 0).rat = a.rat ∧ gridPoint a b 2559 = b

/-- R149: the index found is the least one at which the distance to the sample position is least. -/
def Obligations.NearestIndexIsLeastMinimiser : Prop :=
  ∀ (x : F64) (grid : List F64), grid ≠ [] → (∀ p ∈ grid, (p.sub x).isFinite = true) →
    nearestIndex x grid < grid.length ∧
    (∀ j < grid.length, (((grid.getD (nearestIndex x grid) .nan).sub x).abs).rat ≤ (((grid.getD j .nan).sub x).abs).rat) ∧
    ∀ j < nearestIndex x grid,
      (((grid.getD (nearestIndex x grid) .nan).sub x).abs).rat < (((grid.getD j .nan).sub x).abs).rat

/-- R163: `argmax` is the least index of a greatest value. R160, R164: the symbol of an angle is the `argmax` of the four
products of ProbVector. -/
def Obligations.ArgmaxIsLeastMaximal : Prop :=
  (∀ (num : Numerics) (theta c s p0 p1 p2 p3 : F64),
    c = num.cos (theta.mul F64.deg2rad) → s = num.sin (theta.mul F64.deg2rad) →
    p0 = c.mul (num.cos (((F64.ofNat 360).sub theta).mul F64.deg2rad)) →
    p1 = c.mul (num.sin (((F64.ofNat 270).sub theta).mul F64.deg2rad)) →
    p2 = s.mul (num.cos (((F64.ofNat 180).sub theta).mul F64.deg2rad)) →
    p3 = s.mul (num.sin (((F64.ofNat 90).sub theta).mul F64.deg2rad)) →
    symbol num theta = argmax (p0, p1, p2, p3)) ∧
  ∀ p : Fin 4 → F64, (∀ n, (p n).isFinite = true) →
    ∃ k : Fin 4, argmax (p 0, p 1, p 2, p 3) = k.val ∧ (∀ m, (p m).rat ≤ (p k).rat) ∧ ∀ m < k, (p m).rat < (p k).rat

/-- R141 to R150: the angles of a curve are those of the rules. Each is read at the grid point nearest its sample position,
the lowest of equally near ones; the grid runs from the least position to one above the greatest. -/
def Obligations.CurveAnglesFollowTheRules : Prop :=
  ∀ (num : Numerics) (block seed : Word), ∃ (t A B C D a b step : F64) (pos x y g th : Nat → F64) (near : Nat → Nat),
    t = (F64.ofRat seed.toNat (2 ^ 512)).mul F64.pi ∧
    A = ((num.sin t).mul (F64.ofNat 10)).add (F64.ofNat 1) ∧ B = ((num.cos t).mul (F64.ofNat 10)).add (F64.ofNat 1) ∧
    C = (F64.ofRat (seed.toNat / 2 ^ 256) (2 ^ 256)).mul F64.pi ∧
    D = (F64.ofRat (seed.toNat % 2 ^ 256) (2 ^ 256)).mul (F64.ofNat 10) ∧
    (∀ i < 256, ∀ v : Nat, v = block.toNat / 2 ^ (510 - 2 * i) % 4 →
      pos i = ((F64.ofNat (2 * i)).add ((F64.ofNat ((7 * v + 23) % 40 + 10)).div (F64.ofNat 10))).add
        ((F64.ofNat v).div (F64.ofNat 5))) ∧
    (∃ i < 256, a = pos i ∧ ∀ k < 256, (pos i).rat ≤ (pos k).rat) ∧
    (∃ i < 256, b = (pos i).add (F64.ofNat 1) ∧ ∀ k < 256, (pos k).rat ≤ (pos i).rat) ∧
    step = (b.sub a).div (F64.ofNat 2559) ∧ (∀ k < 2559, x k = ((F64.ofNat k).mul step).add a) ∧ x 2559 = b ∧
    (∀ k < 2560, y k = (A.mul (num.sin ((B.mul (x k)).add C))).add (D.mul (num.sin ((x k).div (F64.ofNat 10))))) ∧
    g 0 = ((y 1).sub (y 0)).div ((x 1).sub (x 0)) ∧
    (∀ k, 1 ≤ k → k ≤ 2558 → g k = ((y (k + 1)).sub (y (k - 1))).div ((x (k + 1)).sub (x (k - 1)))) ∧
    g 2559 = ((y 2559).sub (y 2558)).div ((x 2559).sub (x 2558)) ∧
    (∀ k < 2560, th k = (num.atan (g k)).mul F64.rad2deg) ∧
    (∀ i < 256, near i < 2560 ∧
      (∀ k < 2560, (((x (near i)).sub (pos i)).abs).rat ≤ (((x k).sub (pos i)).abs).rat) ∧
      ∀ k < near i, (((x (near i)).sub (pos i)).abs).rat < (((x k).sub (pos i)).abs).rat) ∧
    curveAngles num block seed = (List.range 256).map (fun i => th (near i))

/-- R151, R145: for every NUM with N2 and N3, the operand of every SIN, COS and ATAN of the extractor (R142, R146, R148, R160)
is finite, and so is every value it compares (R145, R149, R163). The values of R151 are finite and in its ranges, and no
denominator is zero: every grid point lies more than 0.19 above every earlier one. The values not named lie between these
under the operators alone, which answer NaN on a NaN or an infinity (log 7), so they are finite too. -/
def Obligations.CurveValuesAreFinite : Prop :=
  ∀ (num : Numerics) (block seed : Word) (p : CurveParams) (xs : List F64) (x y : Nat → F64), num.Assumed →
    p = curveParams num seed → xs = samplePositions block → x = gridPoint (gridEnds xs).1 (gridEnds xs).2 →
    y = (fun j => curveAt num p (x j)) →
    ((seedFrac seed).isFinite = true ∧ 0 ≤ (seedFrac seed).rat ∧ (seedFrac seed).rat ≤ 1 ∧
      ((seedFrac seed).mul F64.pi).isFinite = true) ∧
    (∀ i < 256, (xs.getD i .nan).isFinite = true ∧ ∀ j < 2560, ((x j).sub (xs.getD i .nan)).isFinite = true) ∧
    (∀ j k, j < k → k < 2560 → ((x k).sub (x j)).isFinite = true ∧ 19 / 100 < ((x k).sub (x j)).rat) ∧
    (∀ j < 2560, (x j).isFinite = true ∧ ((x j).div (F64.ofNat 10)).isFinite = true ∧
      ((p.b.mul (x j)).add p.c).isFinite = true ∧ |((p.b.mul (x j)).add p.c).rat| < 5700 ∧
      (y j).isFinite = true ∧ |(y j).rat| ≤ 21 ∧
      (Machine.gradient x y j).isFinite = true ∧ |(Machine.gradient x y j).rat| < 250 ∧
      ((num.atan (Machine.gradient x y j)).toDeg).isFinite = true ∧ |((num.atan (Machine.gradient x y j)).toDeg).rat| ≤ 90) ∧
    ∀ theta ∈ curveAngles num block seed, theta.isFinite = true ∧ |theta.rat| ≤ 90 ∧
      theta.toRad.isFinite = true ∧ (∀ n ∈ [360, 270, 180, 90], ((F64.ofNat n).sub theta).toRad.isFinite = true) ∧
      (probVector num theta).1.isFinite = true ∧ (probVector num theta).2.1.isFinite = true ∧
      (probVector num theta).2.2.1.isFinite = true ∧ (probVector num theta).2.2.2.isFinite = true

/-! ### The orchestrator -/

/-- R179: for MSGLEN not above MSGCAP, `DIGEST W6` leaves in W6 what the sequence of seven primitive commands leaves there;
the sequence leaves the intermediate values in W0 to W5; neither touches W7 or records an error. Both run as steps on the
model's list `pending` (log 5). -/
def Obligations.DigestEqualsCommandSequence : Prop :=
  ∀ s : State, s.msgLen.toNat ≤ Config.msgCap →
    ∃ t u : State,
      Host.Core.run core 1 { s with pending := [.write 0 0x60600000#32] } = .next t ∧
      Host.Core.run core 7 { s with pending := [.write 0 0x20000000#32, .write 0 0x01100001#32, .write 0 0x30201000#32,
        .write 0 0x40302000#32, .write 0 0x12430000#32, .write 0 0x30542000#32, .write 0 0x50635000#32] } = .next u ∧
      t.w[6] = u.w[6] ∧ (∀ r : Fin 8, r ≠ 6 → t.w[r] = s.w[r]) ∧
      u.w[0] = encodeToBlock (message s) ∧ u.w[1] = 1 ∧ u.w[2] = mix Config.num Config.quantMul u.w[0] 1 ∧
      u.w[3] = extractBits Config.num u.w[0] u.w[2] ∧ u.w[4] = inv512 u.w[3] ∧
      u.w[5] = mix Config.num Config.quantMul u.w[4] u.w[2] ∧ u.w[6] = finalMix u.w[3] u.w[5] ∧ u.w[7] = s.w[7] ∧
      t.err = s.err ∧ u.err = s.err

/-! ### Encoding -/

/-- R63, R70: decoding the word of any legal command, with every operand at every value, gives the command back. -/
def Obligations.DecodeOfEncode : Prop :=
  ∀ i : Instr, i.wellFormed = true → decode (encode i) = some i

/-- R63, R66, R70: a word decodes to a command exactly when it matches a row, and then to that row's command with the
word's fields; the command is legal, and its word is that word. -/
def Obligations.DecodeFollowsTheRows : Prop :=
  ∀ c : Word32,
    (decode c = none ↔ ∀ r ∈ opcodeMap, r.matchesWord c = false) ∧
    (∀ r ∈ opcodeMap, r.matchesWord c = true → decode c = some (r.command (Fields.ofWord c))) ∧
    ∀ i : Instr, decode c = some i → i.wellFormed = true ∧ encode i = c

/-- The words of the ten commands, as R94 to R96, R107, R133, R167, R171, R177, R185 and R186 write them. -/
def Obligations.CommandWordFormulas : Prop :=
  ∀ (wd wa wb : RegField) (imm : Imm),
    (encode (.ldi wd imm)).toNat = 0x01000000 + wd.toNat * 2 ^ 20 + imm.toNat ∧
    (encode (.ldb wd)).toNat = 0x02000000 + wd.toNat * 2 ^ 20 ∧
    (encode (.rol wd wa imm)).toNat = 0x10000000 + wd.toNat * 2 ^ 20 + wa.toNat * 2 ^ 16 + imm.toNat ∧
    (encode (.ror wd wa imm)).toNat = 0x11000000 + wd.toNat * 2 ^ 20 + wa.toNat * 2 ^ 16 + imm.toNat ∧
    (encode (.inv wd wa)).toNat = 0x12000000 + wd.toNat * 2 ^ 20 + wa.toNat * 2 ^ 16 ∧
    (encode (.enc wd)).toNat = 0x20000000 + wd.toNat * 2 ^ 20 ∧
    (encode (.mix wd wa wb)).toNat = 0x30000000 + wd.toNat * 2 ^ 20 + wa.toNat * 2 ^ 16 + wb.toNat * 2 ^ 12 ∧
    (encode (.ext wd wa wb)).toNat = 0x40000000 + wd.toNat * 2 ^ 20 + wa.toNat * 2 ^ 16 + wb.toNat * 2 ^ 12 ∧
    (encode (.fmix wd wa wb)).toNat = 0x50000000 + wd.toNat * 2 ^ 20 + wa.toNat * 2 ^ 16 + wb.toNat * 2 ^ 12 ∧
    (encode (.digest wd)).toNat = 0x60000000 + wd.toNat * 2 ^ 20

/-- 96_test_vectors_hardware.md V-DEC and the rules of the ten commands: a word of every command, and some illegal words. -/
def Obligations.DecodeSanityWords : Prop :=
  decode 0x01700FFF#32 = some (.ldi 7 4095) ∧ decode 0x02200000#32 = some (.ldb 2) ∧
  decode 0x100201FF#32 = some (.rol 0 2 511) ∧ decode 0x11100406#32 = some (.ror 1 0 1030) ∧
  decode 0x12430000#32 = some (.inv 4 3) ∧ decode 0x20000000#32 = some (.enc 0) ∧
  decode 0x30201000#32 = some (.mix 2 0 1) ∧ decode 0x40302000#32 = some (.ext 3 0 2) ∧
  decode 0x50635000#32 = some (.fmix 6 3 5) ∧ decode 0x60700000#32 = some (.digest 7) ∧
  decode 0x00000000#32 = none ∧ decode 0xFFFFFFFF#32 = none ∧ decode 0x30209000#32 = none ∧ decode 0x20000001#32 = none
end

