-- ==== Sys2Proof/Laws/Bits.lean ====
section
/-! SUPPORT. The rotations and the inversion bit by bit (41_bit_utilities.md R90 to R93). -/

namespace Sys2Proof.Machine

/-- The two summands of `RotL` have no set bit in common, so the sum is the library's rotation (R90). -/
theorem rotL_eq_rotateLeft (x : Word) (r : Nat) : rotL x r = x.rotateLeft r := by
  rw [rotL, BitVec.rotateLeft_def, BitVec.add_eq_or_of_and_eq_zero]
  apply BitVec.eq_of_getLsbD_eq
  intro i hi
  simp only [BitVec.getLsbD_and, BitVec.getLsbD_shiftLeft, BitVec.getLsbD_ushiftRight, BitVec.getLsbD_zero]
  by_cases h : i < r % 512
  · simp [h]
  · have h2 : 512 ≤ 512 - r % 512 + i := by omega
    simp [BitVec.getLsbD_of_ge x _ h2]

theorem rotR_eq_rotateRight (x : Word) (r : Nat) : rotR x r = x.rotateRight r := by
  rw [rotR, BitVec.rotateRight_def, BitVec.add_eq_or_of_and_eq_zero]
  apply BitVec.eq_of_getLsbD_eq
  intro i hi
  simp only [BitVec.getLsbD_and, BitVec.getLsbD_shiftLeft, BitVec.getLsbD_ushiftRight, BitVec.getLsbD_zero]
  by_cases h : i < 512 - r % 512
  · simp [h]
  · have h2 : 512 ≤ r % 512 + i := by omega
    simp [BitVec.getLsbD_of_ge x _ h2]

/-- Bit `n` of a rotation to the left by `r` is bit `n - r` of the operand, modulo 512 (R90). -/
theorem getLsbD_rotL (x : Word) (r n : Nat) (hn : n < 512) :
    (rotL x r).getLsbD n = x.getLsbD ((n + (512 - r % 512)) % 512) := by
  rw [rotL_eq_rotateLeft, BitVec.getLsbD_rotateLeft]
  have hr : r % 512 < 512 := Nat.mod_lt _ (by decide)
  by_cases h : n < r % 512
  · have e : (n + (512 - r % 512)) % 512 = n + (512 - r % 512) := by omega
    simp only [h, decide_true, cond_true, e]
    congr 1
    omega
  · have e : (n + (512 - r % 512)) % 512 = n - r % 512 := by omega
    simp [h, hn, e]

/-- Bit `n` of a rotation to the right by `r` is bit `n + r` of the operand, modulo 512 (R91). -/
theorem getLsbD_rotR (x : Word) (r n : Nat) (hn : n < 512) :
    (rotR x r).getLsbD n = x.getLsbD ((n + r % 512) % 512) := by
  rw [rotR_eq_rotateRight, BitVec.getLsbD_rotateRight]
  have hr : r % 512 < 512 := Nat.mod_lt _ (by decide)
  by_cases h : n < 512 - r % 512
  · have e : (n + r % 512) % 512 = n + r % 512 := by omega
    simp only [h, decide_true, cond_true, e]
    congr 1
    omega
  · have e : (n + r % 512) % 512 = n - (512 - r % 512) := by omega
    simp [h, hn, e]

/-- Every bit of an inversion is flipped (R92). -/
theorem getLsbD_inv512 (x : Word) (n : Nat) (hn : n < 512) : (inv512 x).getLsbD n = !x.getLsbD n := by
  rw [inv512, BitVec.getLsbD_xor, BitVec.getLsbD_allOnes, decide_eq_true hn, Bool.xor_true]

end Sys2Proof.Machine
end

