-- ==== Sys2Proof/Laws/F64.lean ====
section
/-! SUPPORT. Rounding to binary64: what `rn` answers is a canonical value, a nearest one, and the even one on a tie
(00_scope.md R13). -/

namespace Sys2Proof

/-- The exact value of a finite binary64, in one formula. -/
theorem F64.rat_finite (neg : Bool) (m e : Nat) :
    (F64.finite neg m e).rat = (signed neg m : ℚ) * 2 ^ e / 2 ^ F64.leastExp := by
  have h : signed neg (m * 2 ^ (e - F64.leastExp)) = signed neg m * 2 ^ (e - F64.leastExp) := by
    cases neg
    · simp [signed]
    · simp [signed]
  have p1 : (2 : ℚ) ^ (F64.leastExp - e) ≠ 0 := by positivity
  have p2 : (2 : ℚ) ^ F64.leastExp ≠ 0 := by positivity
  rw [F64.rat, Rat.mkRat_eq_div, h]
  push_cast
  rw [div_eq_div_iff p1 p2, mul_assoc, mul_assoc, ← pow_add, ← pow_add]
  congr 2
  omega

@[simp] theorem signed_false (n : Nat) : signed false n = n := rfl
@[simp] theorem signed_true (n : Nat) : signed true n = -(n : Int) := rfl

theorem F64.rat_neg (a : F64) : a.neg.rat = -a.rat := by
  cases a with
  | finite neg m e =>
    rw [F64.neg, F64.rat_finite, F64.rat_finite]
    cases neg <;> simp <;> ring
  | infinite neg => simp [F64.neg, F64.rat]
  | nan => simp [F64.neg, F64.rat]

/-! ### The nearest integer -/

/-- The rounded quotient is within one half, and even where the distance is one half. -/
theorem divNearestEven_spec (n d : Nat) (hd : 0 < d) :
    |(divNearestEven n d : ℚ) - n / d| ≤ 1 / 2 ∧
      (|(divNearestEven n d : ℚ) - n / d| = 1 / 2 → divNearestEven n d % 2 = 0) := by
  have hdq : (0 : ℚ) < d := by exact_mod_cast hd
  have hlt : n % d < d := Nat.mod_lt _ hd
  have hsplit : (n : ℚ) / d = (n / d : Nat) + ((n % d : Nat) : ℚ) / d := by
    have : (n : ℚ) = d * (n / d : Nat) + (n % d : Nat) := by exact_mod_cast (Nat.div_add_mod n d).symm
    rw [this]
    field_simp
  have hr0 : (0 : ℚ) ≤ ((n % d : Nat) : ℚ) / d := by positivity
  unfold divNearestEven
  simp only
  rw [hsplit]
  generalize hq : n / d = q
  generalize hr : n % d = r at *
  split
  · rename_i h
    have h2 : d ≤ 2 * r := by omega
    have h1 : (1 : ℚ) / 2 ≤ (r : ℚ) / d := by
      rw [div_le_div_iff₀ (by norm_num) hdq]
      exact_mod_cast (by omega : 1 * d ≤ r * 2)
    have h3 : (r : ℚ) / d ≤ 1 := by
      rw [div_le_one hdq]
      exact_mod_cast hlt.le
    have e : ((q + 1 : Nat) : ℚ) - (q + (r : ℚ) / d) = 1 - (r : ℚ) / d := by push_cast; ring
    rw [e, abs_of_nonneg (by linarith)]
    refine ⟨by linarith, fun heq => ?_⟩
    have h4 : (r : ℚ) / d = 1 / 2 := by linarith
    rw [div_eq_div_iff hdq.ne' (by norm_num)] at h4
    have h5 : r * 2 = 1 * d := by exact_mod_cast h4
    omega
  · rename_i h
    have h2 : 2 * r ≤ d := by omega
    have h1 : (r : ℚ) / d ≤ 1 / 2 := by
      rw [div_le_div_iff₀ hdq (by norm_num)]
      exact_mod_cast (by omega : r * 2 ≤ 1 * d)
    have e : ((q : Nat) : ℚ) - (q + (r : ℚ) / d) = -((r : ℚ) / d) := by ring
    rw [e, abs_neg, abs_of_nonneg hr0]
    refine ⟨h1, fun heq => ?_⟩
    rw [div_eq_div_iff hdq.ne' (by norm_num)] at heq
    have h5 : r * 2 = 1 * d := by exact_mod_cast heq
    omega

/-- An integer within one half of a number is a nearest integer, and every other nearest one is at distance one half. -/
theorem nearest_int {m : Int} {t : ℚ} (h : |(m : ℚ) - t| ≤ 1 / 2) (k : Int) :
    |(m : ℚ) - t| ≤ |(k : ℚ) - t| ∧ (|(m : ℚ) - t| = |(k : ℚ) - t| → k ≠ m → |(m : ℚ) - t| = 1 / 2) := by
  rcases eq_or_ne k m with rfl | hne
  · exact ⟨le_rfl, fun _ hk => absurd rfl hk⟩
  · have h1 : (1 : ℚ) ≤ |(k : ℚ) - m| := by
      have : (1 : Int) ≤ |k - m| := Int.one_le_abs (sub_ne_zero.2 hne)
      exact_mod_cast this
    have h2 : |(k : ℚ) - m| ≤ |(k : ℚ) - t| + |(m : ℚ) - t| := by
      have : (k : ℚ) - m = (k - t) - (m - t) := by ring
      rw [this]
      exact abs_sub _ _
    exact ⟨by linarith, fun heq _ => by linarith⟩

/-! ### The exponent -/

/-- The quotient by the chosen power of 2 has at most 53 bits, and exactly 53 unless the exponent is the least. -/
theorem roundExp_spec (n d : Nat) :
    n * 2 ^ F64.leastExp / (d * 2 ^ roundExp n d) < 2 ^ 53 ∧
      (roundExp n d ≠ 0 → 2 ^ 52 ≤ n * 2 ^ F64.leastExp / (d * 2 ^ roundExp n d)) := by
  unfold roundExp
  rw [← Nat.div_div_eq_div_mul]
  generalize n * 2 ^ F64.leastExp / d = t
  rcases Nat.eq_zero_or_pos t with rfl | ht
  · simp
  · constructor
    · rw [Nat.div_lt_iff_lt_mul (by positivity), ← pow_add]
      calc t < 2 ^ (t.log2 + 1) := Nat.lt_log2_self
        _ ≤ 2 ^ (53 + (t.log2 - 52)) := Nat.pow_le_pow_right (by norm_num) (by omega)
    · intro h
      rw [Nat.le_div_iff_mul_le (by positivity), ← pow_add]
      calc 2 ^ (52 + (t.log2 - 52)) = 2 ^ t.log2 := by congr 1; omega
        _ ≤ t := Nat.log2_self_le ht.ne'

/-- A rounded quotient is at most one above the quotient. -/
theorem divNearestEven_le (n d : Nat) : n / d ≤ divNearestEven n d ∧ divNearestEven n d ≤ n / d + 1 := by
  unfold divNearestEven
  simp only
  split <;> omega

/-! ### Rounding -/

/-- The rounded significand before it is put in canonical form. -/
theorem scaled_nearest (n d : Nat) (hd : 0 < d) (k : Int) (hk : k < 2 ^ 53) (ge : Nat) :
    |(divNearestEven (n * 2 ^ F64.leastExp) (d * 2 ^ roundExp n d) : ℚ) * 2 ^ roundExp n d - n * 2 ^ F64.leastExp / d|
        ≤ |(k : ℚ) * 2 ^ ge - n * 2 ^ F64.leastExp / d| ∧
      (|(divNearestEven (n * 2 ^ F64.leastExp) (d * 2 ^ roundExp n d) : ℚ) * 2 ^ roundExp n d -
            n * 2 ^ F64.leastExp / d| = |(k : ℚ) * 2 ^ ge - n * 2 ^ F64.leastExp / d| →
        (k : ℚ) * 2 ^ ge ≠
          (divNearestEven (n * 2 ^ F64.leastExp) (d * 2 ^ roundExp n d) : ℚ) * 2 ^ roundExp n d →
        divNearestEven (n * 2 ^ F64.leastExp) (d * 2 ^ roundExp n d) % 2 = 0) := by
  have hspec := roundExp_spec n d
  generalize roundExp n d = e at *
  have hD : 0 < d * 2 ^ e := by positivity
  have hnear := divNearestEven_spec (n * 2 ^ F64.leastExp) (d * 2 ^ e) hD
  have hle := divNearestEven_le (n * 2 ^ F64.leastExp) (d * 2 ^ e)
  generalize divNearestEven (n * 2 ^ F64.leastExp) (d * 2 ^ e) = M at *
  have p2 : (0 : ℚ) < 2 ^ e := by positivity
  have hdq : (0 : ℚ) < d := by exact_mod_cast hd
  have ht : ((n * 2 ^ F64.leastExp : Nat) : ℚ) / ((d * 2 ^ e : Nat) : ℚ) = n * 2 ^ F64.leastExp / d / 2 ^ e := by
    push_cast
    rw [div_div]
  have hfloor : ((n * 2 ^ F64.leastExp / (d * 2 ^ e) : Nat) : ℚ) ≤ n * 2 ^ F64.leastExp / d / 2 ^ e := by
    rw [← ht]
    exact Nat.cast_div_le
  rw [ht] at hnear
  generalize (n : ℚ) * 2 ^ F64.leastExp / d = tau at *
  have scale : ∀ x : ℚ, |x * 2 ^ e - tau| = |x - tau / 2 ^ e| * 2 ^ e := by
    intro x
    rw [← abs_of_pos p2, ← abs_mul, abs_of_pos p2, sub_mul, div_mul_cancel₀ _ p2.ne']
  rcases le_or_gt e ge with hge | hge
  · have hkk : (k : ℚ) * 2 ^ ge = ((k * 2 ^ (ge - e) : Int) : ℚ) * 2 ^ e := by
      push_cast
      rw [mul_assoc, ← pow_add]
      congr 2
      omega
    have hm := nearest_int (m := (M : Int)) (t := tau / 2 ^ e) (by exact_mod_cast hnear.1) (k * 2 ^ (ge - e))
    have hcast : ((M : Int) : ℚ) = (M : ℚ) := by norm_cast
    rw [hcast] at hm
    rw [hkk, scale, scale]
    refine ⟨mul_le_mul_of_nonneg_right hm.1 p2.le, fun heq hne => ?_⟩
    have heq' := mul_right_cancel₀ p2.ne' heq
    refine hnear.2 (hm.2 heq' fun hk' => hne ?_)
    rw [hk', hcast]
  · have h52 : (2 : ℚ) ^ 52 ≤ tau / 2 ^ e := by
      have h := hspec.2 (by omega)
      refine le_trans ?_ hfloor
      exact_mod_cast h
    have hlt : (k : ℚ) * 2 ^ ge < 2 ^ 52 * 2 ^ e := by
      have h1 : (k : ℚ) < 2 ^ 53 := by exact_mod_cast hk
      have h2 : (2 : ℚ) ^ 53 * 2 ^ ge ≤ 2 ^ 52 * 2 ^ e := by
        rw [← pow_add, ← pow_add]
        exact pow_le_pow_right₀ (by norm_num) (by omega)
      have h3 : (0 : ℚ) < 2 ^ ge := by positivity
      nlinarith
    have htau : (2 : ℚ) ^ 52 * 2 ^ e ≤ tau := by
      rwa [le_div_iff₀ p2] at h52
    have hm := (nearest_int (m := (M : Int)) (t := tau / 2 ^ e) (by exact_mod_cast hnear.1) (2 ^ 52)).1
    have hcast : ((M : Int) : ℚ) = (M : ℚ) := by norm_cast
    have hcast2 : (((2 : Int) ^ 52 : Int) : ℚ) = (2 : ℚ) ^ 52 := by norm_cast
    rw [hcast, hcast2] at hm
    have hm' : |(M : ℚ) * 2 ^ e - tau| ≤ |(2 : ℚ) ^ 52 * 2 ^ e - tau| := by
      rw [scale, scale]
      exact mul_le_mul_of_nonneg_right hm p2.le
    rw [abs_of_nonpos (by linarith : (2 : ℚ) ^ 52 * 2 ^ e - tau ≤ 0)] at hm'
    rw [abs_of_neg (by linarith : (k : ℚ) * 2 ^ ge - tau < 0)]
    exact ⟨by linarith, fun heq => by linarith⟩

theorem F64.bounded_form {neg : Bool} {m e : Nat} (h : (F64.bounded neg m e).isFinite = true) :
    e ≤ 2045 ∧ F64.bounded neg m e = .finite neg m e := by
  unfold F64.bounded at h ⊢
  split_ifs at h ⊢ with he
  · exact ⟨he, rfl⟩
  · simp [F64.isFinite] at h

/-- The form of a finite packed value: canonical, with the value and the parity of the significand. -/
theorem F64.pack_form {neg : Bool} {M E : Nat} (h1 : M ≤ 2 ^ 53) (h2 : E = 0 ∨ 2 ^ 52 ≤ M)
    (hf : (F64.pack neg M E).isFinite = true) :
    ∃ m e, F64.pack neg M E = .finite neg m e ∧ (F64.finite neg m e).canonical = true ∧
      (m : ℚ) * 2 ^ e = (M : ℚ) * 2 ^ E ∧ (M % 2 = 0 → m % 2 = 0) := by
  unfold F64.pack at hf ⊢
  split_ifs at hf ⊢ with hM
  · obtain ⟨he, hform⟩ := F64.bounded_form hf
    refine ⟨2 ^ 52, E + 1, hform, by simp [F64.canonical, he], ?_, fun _ => by norm_num⟩
    rw [hM]
    push_cast
    ring
  · obtain ⟨he, hform⟩ := F64.bounded_form hf
    refine ⟨M, E, hform, ?_, rfl, fun h => h⟩
    have h3 : M < 2 ^ 53 := lt_of_le_of_ne h1 hM
    simp only [F64.canonical, Bool.and_eq_true, Bool.or_eq_true, decide_eq_true_eq]
    exact ⟨⟨h3, he⟩, h2⟩

/-- The form of a finite rounding. -/
theorem F64.round_form (neg : Bool) (n d : Nat) (hf : (F64.round neg n d).isFinite = true) :
    ∃ m e, F64.round neg n d = .finite neg m e ∧ (F64.finite neg m e).canonical = true ∧
      (m : ℚ) * 2 ^ e =
        (divNearestEven (n * 2 ^ F64.leastExp) (d * 2 ^ roundExp n d) : ℚ) * 2 ^ roundExp n d ∧
      (divNearestEven (n * 2 ^ F64.leastExp) (d * 2 ^ roundExp n d) % 2 = 0 → m % 2 = 0) := by
  have hspec := roundExp_spec n d
  have hle := divNearestEven_le (n * 2 ^ F64.leastExp) (d * 2 ^ roundExp n d)
  exact F64.pack_form (by omega) (by omega) hf

theorem F64.leastExp_eq : F64.leastExp = 1074 := by unfold F64.leastExp; rfl

theorem F64.pack_isFinite {neg : Bool} {M E : Nat} (h : E ≤ 2044) : (F64.pack neg M E).isFinite = true := by
  unfold F64.pack F64.bounded
  split_ifs <;> first | rfl | omega

/-- A quotient of at most `k` is rounded to at most `k`. -/
theorem divNearestEven_le_of_le {n d k : Nat} (hd : 0 < d) (h : n ≤ k * d) : divNearestEven n d ≤ k := by
  have hq : n / d ≤ k := Nat.div_le_of_le_mul (by rwa [mul_comm])
  unfold divNearestEven
  simp only
  rcases hq.lt_or_eq with hlt | heq
  · split <;> omega
  · have hr : n % d = 0 := by
      have := Nat.div_add_mod n d
      rw [heq, mul_comm] at this
      omega
    rw [hr, if_neg (by omega), heq]

/-- A rational no greater in size than a significand of ones at an exponent of at most 971, the greatest finite binary64
among them, has a finite rounding. -/
theorem F64.rn_isFinite_of_le (r : ℚ) (k : Nat) (hk : k ≤ 971) (h : |r| ≤ (2 ^ 53 - 1) * 2 ^ k) : (F64.rn r).isFinite = true := by
  have hd : (0 : ℚ) < r.den := by exact_mod_cast r.den_pos
  have h1 : r.num.natAbs ≤ (2 ^ 53 - 1) * 2 ^ k * r.den := by
    have h2 : |r| = (r.num.natAbs : ℚ) / r.den := by
      conv_lhs => rw [← Rat.num_div_den r]
      rw [abs_div, abs_of_pos hd, Nat.cast_natAbs, Int.cast_abs]
    rw [h2, div_le_iff₀ hd, show (2 ^ 53 - 1 : ℚ) = ((2 ^ 53 - 1 : Nat) : ℚ) by norm_num] at h
    exact_mod_cast h
  have h3 : r.num.natAbs * 2 ^ F64.leastExp ≤ (2 ^ 53 - 1) * (r.den * 2 ^ (k + F64.leastExp)) := by
    calc r.num.natAbs * 2 ^ F64.leastExp ≤ (2 ^ 53 - 1) * 2 ^ k * r.den * 2 ^ F64.leastExp := Nat.mul_le_mul_right _ h1
      _ = (2 ^ 53 - 1) * (r.den * 2 ^ (k + F64.leastExp)) := by rw [pow_add]; ac_rfl
  have hE : roundExp r.num.natAbs r.den ≤ k + F64.leastExp := by
    unfold roundExp
    rcases Nat.eq_zero_or_pos (r.num.natAbs * 2 ^ F64.leastExp / r.den) with h0 | h0
    · rw [h0]
      simp
    · have h4 : r.num.natAbs * 2 ^ F64.leastExp / r.den < 2 ^ (53 + (k + F64.leastExp)) := by
        rw [Nat.div_lt_iff_lt_mul r.den_pos, pow_add, mul_assoc, mul_comm (2 ^ (k + F64.leastExp))]
        exact h3.trans_lt (Nat.mul_lt_mul_of_pos_right (by norm_num) (Nat.mul_pos r.den_pos (by positivity)))
      have h5 := (Nat.log2_lt h0.ne').2 h4
      omega
  have hL := F64.leastExp_eq
  unfold F64.rn F64.round
  rcases hE.lt_or_eq with hlt | heq
  · exact F64.pack_isFinite (by omega)
  · rw [heq]
    have hM := divNearestEven_le_of_le (Nat.mul_pos r.den_pos (by positivity)) h3
    unfold F64.pack F64.bounded
    rw [if_neg (by omega), if_pos (by omega)]
    rfl

/-- A rational below 2^100 in size has a finite rounding. -/
theorem F64.rn_isFinite (r : ℚ) (h : |r| < 2 ^ 100) : (F64.rn r).isFinite = true :=
  F64.rn_isFinite_of_le r 48 (by norm_num) (h.le.trans (by norm_num))

/-- The sign of a rounding. -/
theorem F64.rn_isNeg (r : ℚ) : (F64.rn r).isNeg = decide (r.num < 0) := by
  unfold F64.rn F64.round F64.pack F64.bounded
  split_ifs <;> rfl

/-- A canonical value as a scaled integer. -/
theorem F64.scaled_of_canonical {g : F64} (hc : g.canonical = true) (hf : g.isFinite = true) (s : Bool) :
    ∃ (k : Int) (ge : Nat), k < 2 ^ 53 ∧ g.rat = signed s 1 * ((k : ℚ) * 2 ^ ge / 2 ^ F64.leastExp) := by
  cases g with
  | finite neg m e =>
    simp only [F64.canonical, Bool.and_eq_true, decide_eq_true_eq] at hc
    refine ⟨signed s 1 * signed neg m, e, ?_, ?_⟩
    · have h := hc.1.1
      cases s <;> cases neg <;> simp <;> omega
    · rw [F64.rat_finite]
      cases s
      · simp
      · simp
        ring
  | infinite neg => simp [F64.isFinite] at hf
  | nan => simp [F64.isFinite] at hf

/-- `rn`, where it is finite, is as near as any significand of 53 bits at any exponent, and even on a tie. -/
theorem F64.rn_nearest_scaled (r : ℚ) (hf : (F64.rn r).isFinite = true) :
    ∃ s m e, F64.rn r = .finite s m e ∧ (F64.rn r).canonical = true ∧ ∀ (k : Int) (ge : Nat), k < 2 ^ 53 →
      |(F64.rn r).rat - r| ≤ |(signed s 1 : ℚ) * ((k : ℚ) * 2 ^ ge / 2 ^ F64.leastExp) - r| ∧
        (|(F64.rn r).rat - r| = |(signed s 1 : ℚ) * ((k : ℚ) * 2 ^ ge / 2 ^ F64.leastExp) - r| →
          (signed s 1 : ℚ) * ((k : ℚ) * 2 ^ ge / 2 ^ F64.leastExp) ≠ (F64.rn r).rat → m % 2 = 0) := by
  have hd : 0 < r.den := r.den_pos
  obtain ⟨m, e, hform, hcan, hval, heven⟩ := F64.round_form _ _ _ hf
  have hrn : F64.rn r = .finite (decide (r.num < 0)) m e := hform
  generalize hs : decide (r.num < 0) = s at *
  have hr : r = signed s 1 * ((r.num.natAbs : ℚ) / r.den) := by
    conv_lhs => rw [← Rat.num_div_den r]
    rw [← mul_div_assoc]
    congr 1
    cases s
    · have : 0 ≤ r.num := by simpa using hs
      simp only [signed_false, Nat.cast_one, Int.cast_one, one_mul]
      have h : (r.num.natAbs : Int) = r.num := Int.natAbs_of_nonneg this
      rw [← Int.cast_natCast, h]
    · have : r.num < 0 := by simpa using hs
      simp only [signed_true, Nat.cast_one, Int.cast_neg, Int.cast_one, neg_mul, one_mul]
      have h : (r.num.natAbs : Int) = -r.num := by omega
      rw [← Int.cast_natCast, h]
      simp
  have hL : (0 : ℚ) < 2 ^ F64.leastExp := by positivity
  have hfr : (F64.rn r).rat = signed s 1 * ((m : ℚ) * 2 ^ e / 2 ^ F64.leastExp) := by
    rw [hrn, F64.rat_finite]
    cases s
    · simp
    · simp
      ring
  have dist : ∀ x : ℚ, |(signed s 1 : ℚ) * (x / 2 ^ F64.leastExp) - r| =
      |x - r.num.natAbs * 2 ^ F64.leastExp / r.den| / 2 ^ F64.leastExp := by
    intro x
    have hs1 : |(signed s 1 : ℚ)| = 1 := by cases s <;> simp
    have hrr : r = (signed s 1 : ℚ) * (r.num.natAbs * 2 ^ F64.leastExp / r.den / 2 ^ F64.leastExp) := by
      rw [div_right_comm, mul_div_cancel_right₀ _ hL.ne']
      exact hr
    conv_lhs => rw [hrr]
    rw [← mul_sub, abs_mul, hs1, one_mul, ← sub_div, abs_div, abs_of_pos hL]
  refine ⟨s, m, e, hrn, by rw [hrn]; exact hcan, fun k ge hk => ?_⟩
  have hn := scaled_nearest r.num.natAbs r.den hd k hk ge
  rw [← hval] at hn
  rw [hfr, dist, dist]
  refine ⟨div_le_div_of_nonneg_right hn.1 hL.le, fun heq hne => heven ?_⟩
  have heq' : |(m : ℚ) * 2 ^ e - r.num.natAbs * 2 ^ F64.leastExp / r.den| =
      |(k : ℚ) * 2 ^ ge - r.num.natAbs * 2 ^ F64.leastExp / r.den| := by
    have := congrArg (· * (2 : ℚ) ^ F64.leastExp) heq
    simpa [div_mul_cancel₀ _ hL.ne'] using this
  exact hn.2 heq' fun h => hne (by rw [h])

/-- `rn` answers a rounding wherever it is finite (R13). -/
theorem F64.rn_isRounding (r : ℚ) (hf : (F64.rn r).isFinite = true) : F64.IsRounding (r : ℝ) (F64.rn r) := by
  obtain ⟨s, m, e, hrn, hcan, hnear⟩ := F64.rn_nearest_scaled r hf
  have cast : ∀ g : F64, |(g.rat : ℝ) - (r : ℝ)| = ((|g.rat - r| : ℚ) : ℝ) := by
    intro g
    push_cast
    rfl
  refine ⟨hcan, hf, fun g hgc hgf => ?_, fun g hgc hgf heq hne => ?_⟩
  · obtain ⟨k, ge, hk, hg⟩ := F64.scaled_of_canonical hgc hgf s
    rw [cast, cast, hg]
    exact_mod_cast (hnear k ge hk).1
  · obtain ⟨k, ge, hk, hg⟩ := F64.scaled_of_canonical hgc hgf s
    rw [cast, cast] at heq
    have heq' : |(F64.rn r).rat - r| = |g.rat - r| := by exact_mod_cast heq
    rw [hg] at heq' hne
    have := (hnear k ge hk).2 heq' hne
    rw [hrn]
    simp [F64.evenSignificand, this]

/-- A significand of 53 bits at any exponent from the least on is rounded to itself. -/
theorem F64.rn_exact (k : Int) (ge : Nat) (hk : |k| < 2 ^ 53)
    (hf : (F64.rn ((k : ℚ) * 2 ^ ge / 2 ^ F64.leastExp)).isFinite = true) :
    (F64.rn ((k : ℚ) * 2 ^ ge / 2 ^ F64.leastExp)).rat = (k : ℚ) * 2 ^ ge / 2 ^ F64.leastExp := by
  obtain ⟨s, m, e, _, _, hnear⟩ := F64.rn_nearest_scaled _ hf
  rw [abs_lt] at hk
  have h := (hnear (signed s 1 * k) ge (by cases s <;> simp <;> omega)).1
  have e1 : (signed s 1 : ℚ) * (((signed s 1 * k : Int) : ℚ) * 2 ^ ge / 2 ^ F64.leastExp) =
      (k : ℚ) * 2 ^ ge / 2 ^ F64.leastExp := by
    cases s
    · simp
    · simp
      ring
  rw [e1, sub_self, abs_zero] at h
  exact sub_eq_zero.1 (abs_nonpos_iff.1 h)

/-- An integer below `2^53` in size, divided by a power of two of at most `2^1074`, is rounded to itself. -/
theorem F64.rn_dyadic (k : Int) (n : Nat) (hk : |k| < 2 ^ 53) (hn : n ≤ 1074) :
    (F64.rn ((k : ℚ) / 2 ^ n)).isFinite = true ∧ (F64.rn ((k : ℚ) / 2 ^ n)).rat = (k : ℚ) / 2 ^ n := by
  have e : (k : ℚ) / 2 ^ n = (k : ℚ) * 2 ^ (1074 - n) / 2 ^ F64.leastExp := by
    rw [F64.leastExp_eq, show (2 : ℚ) ^ 1074 = 2 ^ (1074 - n) * 2 ^ n by rw [← pow_add, Nat.sub_add_cancel hn],
      mul_div_mul_comm, mul_comm]
    have : (2 : ℚ) ^ (1074 - n) ≠ 0 := by positivity
    field_simp
  have hf : (F64.rn ((k : ℚ) / 2 ^ n)).isFinite = true := by
    refine F64.rn_isFinite _ ?_
    rw [abs_div, abs_of_pos (show (0 : ℚ) < 2 ^ n by positivity), div_lt_iff₀ (by positivity)]
    have h1 : |(k : ℚ)| < 2 ^ 53 := by exact_mod_cast hk
    have h2 : (1 : ℚ) ≤ 2 ^ n := one_le_pow₀ (by norm_num)
    nlinarith
  refine ⟨hf, ?_⟩
  rw [e] at hf ⊢
  exact F64.rn_exact k _ hk hf

/-- A natural number below `2^53` is a binary64 value. -/
theorem F64.ofNat_exact (n : Nat) (h : n < 2 ^ 53) : (F64.ofNat n).isFinite = true ∧ (F64.ofNat n).rat = n := by
  have := F64.rn_dyadic (n : Int) 0 (by rw [abs_of_nonneg (by positivity)]; exact_mod_cast h) (by norm_num)
  simpa [F64.ofNat] using this

/-- The result of an operator whose exact value has 53 bits. -/
theorem F64.rounded_dyadic (z : Bool) (k : Int) (n : Nat) (hk : |k| < 2 ^ 53) (hn : n ≤ 1074) :
    (F64.rounded z ((k : ℚ) / 2 ^ n)).isFinite = true ∧ (F64.rounded z ((k : ℚ) / 2 ^ n)).rat = (k : ℚ) / 2 ^ n := by
  unfold F64.rounded
  split_ifs with h
  · rw [h]
    exact ⟨rfl, by cases z <;> simp [F64.zero, F64.rat_finite]⟩
  · exact F64.rn_dyadic k n hk hn

/-- The exact floor (R13). -/
theorem F64.floor_eq (a : F64) : a.floor = ⌊a.rat⌋ := (Rat.floor_def a.rat).symm

/-! ### What a rounding determines -/

/-- A rounding of both ends of an interval is a rounding of every number in it. -/
theorem F64.IsRounding.between {lo r hi : ℝ} {f : F64} (hl : F64.IsRounding lo f) (hh : F64.IsRounding hi f)
    (h1 : lo ≤ r) (h2 : r ≤ hi) : F64.IsRounding r f := by
  have key : ∀ g : F64, g.canonical = true → g.isFinite = true →
      |(f.rat : ℝ) - r| ≤ |(g.rat : ℝ) - r| ∧
        (|(f.rat : ℝ) - r| = |(g.rat : ℝ) - r| → g.rat ≠ f.rat → f.evenSignificand = true) := by
    intro g hgc hgf
    have a := hl.nearest g hgc hgf
    have b := hh.nearest g hgc hgf
    have a' := hl.even g hgc hgf
    have b' := hh.even g hgc hgf
    rw [← sq_le_sq] at a b ⊢
    rw [← sq_eq_sq_iff_abs_eq_abs] at a' b' ⊢
    have expand : ∀ x : ℝ, ((g.rat : ℝ) - x) ^ 2 - (f.rat - x) ^ 2 = (g.rat - f.rat) * (g.rat + f.rat - 2 * x) := by
      intro x
      ring
    have ea := expand lo
    have eb := expand hi
    have er := expand r
    rcases lt_trichotomy (g.rat : ℝ) (f.rat : ℝ) with h | h | h
    · have m1 : (g.rat : ℝ) + f.rat - 2 * lo ≤ 0 := by
        by_contra hc
        push Not at hc
        nlinarith
      refine ⟨by nlinarith, fun heq hne => a' ?_ hne⟩
      have m2 : (g.rat : ℝ) + f.rat - 2 * r = 0 := by
        have : ((g.rat : ℝ) - f.rat) * (g.rat + f.rat - 2 * r) = 0 := by linarith
        rcases mul_eq_zero.1 this with h0 | h0
        · linarith
        · exact h0
      have m3 : (g.rat : ℝ) + f.rat - 2 * lo = 0 := by linarith
      rw [m3, mul_zero] at ea
      linarith
    · refine ⟨by rw [h], fun _ hne => absurd (by exact_mod_cast h) hne⟩
    · have m1 : 0 ≤ (g.rat : ℝ) + f.rat - 2 * hi := by
        by_contra hc
        push Not at hc
        nlinarith
      refine ⟨by nlinarith, fun heq hne => b' ?_ hne⟩
      have m2 : (g.rat : ℝ) + f.rat - 2 * r = 0 := by
        have : ((g.rat : ℝ) - f.rat) * (g.rat + f.rat - 2 * r) = 0 := by linarith
        rcases mul_eq_zero.1 this with h0 | h0
        · linarith
        · exact h0
      have m3 : (g.rat : ℝ) + f.rat - 2 * hi = 0 := by linarith
      rw [m3, mul_zero] at eb
      linarith
  exact ⟨hl.canonical, hl.finite, fun g hgc hgf => (key g hgc hgf).1, fun g hgc hgf => (key g hgc hgf).2⟩

/-- A rounding stays below a binary64 that bounds the number above, and above one that bounds it below. -/
theorem F64.IsRounding.le {r : ℝ} {f c : F64} (h : F64.IsRounding r f) (hc : c.canonical = true)
    (hcf : c.isFinite = true) (hr : r ≤ c.rat) : f.rat ≤ c.rat := by
  by_contra hlt
  push Not at hlt
  have hlt' : (c.rat : ℝ) < f.rat := by exact_mod_cast hlt
  have := h.nearest c hc hcf
  rw [abs_of_pos (by linarith), abs_of_nonneg (by linarith)] at this
  linarith

theorem F64.IsRounding.ge {r : ℝ} {f c : F64} (h : F64.IsRounding r f) (hc : c.canonical = true)
    (hcf : c.isFinite = true) (hr : (c.rat : ℝ) ≤ r) : c.rat ≤ f.rat := by
  by_contra hlt
  push Not at hlt
  have hlt' : (f.rat : ℝ) < c.rat := by exact_mod_cast hlt
  have := h.nearest c hc hcf
  rw [abs_of_neg (by linarith), abs_of_nonpos (by linarith)] at this
  linarith

/-- Rounding is monotone. -/
theorem F64.IsRounding.mono {r r' : ℝ} {f f' : F64} (h : F64.IsRounding r f) (h' : F64.IsRounding r' f') (hlt : r < r') :
    f.rat ≤ f'.rat := by
  have h1 := h.nearest f' h'.canonical h'.finite
  have h2 := h'.nearest f h.canonical h.finite
  rw [← sq_le_sq] at h1 h2
  have h3 : ((f.rat : ℝ) - f'.rat) * (r' - r) ≤ 0 := by nlinarith
  have h4 : (f.rat : ℝ) ≤ f'.rat := by nlinarith
  exact_mod_cast h4

/-- A binary64 is the rounding of its own value: the value of its rounding is its value. -/
theorem F64.rat_of_isRounding {f c : F64} (h : F64.IsRounding (c.rat : ℝ) f) (hc : c.canonical = true)
    (hcf : c.isFinite = true) : f.rat = c.rat :=
  le_antisymm (h.le hc hcf le_rfl) (h.ge hc hcf le_rfl)

/-- The opposite of a rounding is a rounding of the opposite. -/
theorem F64.IsRounding.neg {r : ℝ} {f : F64} (h : F64.IsRounding r f) : F64.IsRounding (-r) f.neg := by
  have flip : ∀ g : F64, |(g.neg.rat : ℝ) - -r| = |(g.rat : ℝ) - r| := by
    intro g
    rw [F64.rat_neg]
    push_cast
    rw [← abs_neg]
    congr 1
    ring
  have canon : ∀ g : F64, g.neg.canonical = g.canonical := by intro g; cases g <;> rfl
  have fin : ∀ g : F64, g.neg.isFinite = g.isFinite := by intro g; cases g <;> rfl
  have inv : ∀ g : F64, g.neg.neg = g := by intro g; cases g <;> simp [F64.neg]
  have even : f.neg.evenSignificand = f.evenSignificand := by cases f <;> rfl
  refine ⟨(canon f).trans h.canonical, (fin f).trans h.finite, fun g hgc hgf => ?_, fun g hgc hgf heq hne => ?_⟩
  · rw [← inv g, flip, flip]
    exact h.nearest g.neg ((canon g).trans hgc) ((fin g).trans hgf)
  · rw [even]
    rw [← inv g, flip, flip] at heq
    refine h.even g.neg ((canon g).trans hgc) ((fin g).trans hgf) heq fun hrat => hne ?_
    rw [F64.rat_neg] at hrat ⊢
    linarith

/-! ### The operators on finite operands -/

theorem F64.zero_isRounding (z : Bool) : F64.IsRounding 0 (F64.zero z) := by
  have h : (F64.zero z).rat = 0 := by cases z <;> decide +kernel
  refine ⟨by cases z <;> decide, rfl, fun g _ _ => ?_, fun _ _ _ _ _ => rfl⟩
  rw [h]
  simp

/-- The result of an operator whose exact value is moderate is the rounding of that value. -/
theorem F64.rounded_isRounding (z : Bool) {r : ℚ} (h : |r| < 2 ^ 100) : F64.IsRounding (r : ℝ) (F64.rounded z r) := by
  unfold F64.rounded
  split_ifs with h0
  · rw [h0]
    simpa using F64.zero_isRounding z
  · exact F64.rn_isRounding r (F64.rn_isFinite r h)

/-- On finite operands an operator answers its result. -/
theorem F64.onFinite_of_finite {a b : F64} (ha : a.isFinite = true) (hb : b.isFinite = true) (f : F64) :
    F64.onFinite a b f = f := by
  simp [F64.onFinite, ha, hb]

theorem F64.add_isRounding {a b : F64} (ha : a.isFinite = true) (hb : b.isFinite = true) (h : |a.rat + b.rat| < 2 ^ 100) :
    F64.IsRounding ((a.rat + b.rat : ℚ) : ℝ) (a.add b) := by
  rw [F64.add, F64.onFinite_of_finite ha hb]
  exact F64.rounded_isRounding _ h

theorem F64.sub_isRounding {a b : F64} (ha : a.isFinite = true) (hb : b.isFinite = true) (h : |a.rat - b.rat| < 2 ^ 100) :
    F64.IsRounding ((a.rat - b.rat : ℚ) : ℝ) (a.sub b) := by
  rw [F64.sub, F64.onFinite_of_finite ha hb]
  exact F64.rounded_isRounding _ h

theorem F64.mul_isRounding {a b : F64} (ha : a.isFinite = true) (hb : b.isFinite = true) (h : |a.rat * b.rat| < 2 ^ 100) :
    F64.IsRounding ((a.rat * b.rat : ℚ) : ℝ) (a.mul b) := by
  rw [F64.mul, F64.onFinite_of_finite ha hb]
  exact F64.rounded_isRounding _ h

theorem F64.div_isRounding {a b : F64} (ha : a.isFinite = true) (hb : b.isFinite = true) (h0 : b.rat ≠ 0)
    (h : |a.rat / b.rat| < 2 ^ 100) : F64.IsRounding ((a.rat / b.rat : ℚ) : ℝ) (a.div b) := by
  rw [F64.div, F64.onFinite_of_finite ha hb, if_neg h0]
  exact F64.rounded_isRounding _ h

/-- A quotient of 53 bits is the value of some binary64. -/
theorem F64.exists_dyadic (k : Int) (n : Nat) (hk : |k| < 2 ^ 53) (hn : n ≤ 1074) :
    ∃ c : F64, c.canonical = true ∧ c.isFinite = true ∧ c.rat = k / 2 ^ n := by
  have h := F64.rn_dyadic k n hk hn
  exact ⟨_, (F64.rn_isRounding _ h.1).canonical, h.1, h.2⟩

/-- A rounding stays within a bound of 53 bits. -/
theorem F64.IsRounding.abs_bound {r : ℚ} {f : F64} (h : F64.IsRounding (r : ℝ) f) (k : Nat) (n : Nat) (hk : k < 2 ^ 53)
    (hn : n ≤ 1074) (hr : |r| ≤ k / 2 ^ n) : |f.rat| ≤ k / 2 ^ n := by
  obtain ⟨c, hc, hcf, hcr⟩ := F64.exists_dyadic (k : Int) n (by rw [Nat.abs_cast]; exact_mod_cast hk) hn
  obtain ⟨d, hd, hdf, hdr⟩ := F64.exists_dyadic (-(k : Int)) n (by rw [abs_neg, Nat.abs_cast]; exact_mod_cast hk) hn
  rw [abs_le'] at hr
  push_cast at hcr hdr
  refine abs_le'.2 ⟨?_, ?_⟩
  · rw [← hcr]
    exact h.le hc hcf (by rw [hcr]; exact_mod_cast hr.1)
  · have := h.ge hd hdf (by rw [hdr]; exact_mod_cast (by linarith [hr.2, neg_div (2 ^ n : ℚ) (k : ℚ)] : -(k : ℚ) / 2 ^ n ≤ r))
    rw [hdr, neg_div] at this
    linarith

/-- The error of a rounding of a number of at most 1000. -/
theorem F64.IsRounding.error {r : ℚ} {f : F64} (h : F64.IsRounding (r : ℝ) f) (hr : |r| ≤ 1000) :
    |f.rat - r| ≤ 1 / 2 ^ 43 := by
  have h1 := Int.floor_le (r * 2 ^ 43)
  have h2 := Int.lt_floor_add_one (r * 2 ^ 43)
  have hk : |⌊r * 2 ^ 43⌋| < 2 ^ 53 := by
    rw [abs_le] at hr
    rw [abs_lt]
    constructor
    · have : (-2 ^ 53 : ℚ) < ⌊r * 2 ^ 43⌋ := by linarith
      exact_mod_cast this
    · have : (⌊r * 2 ^ 43⌋ : ℚ) < 2 ^ 53 := by linarith
      exact_mod_cast this
  obtain ⟨c, hc, hcf, hcr⟩ := F64.exists_dyadic ⌊r * 2 ^ 43⌋ 43 hk (by norm_num)
  have h5 : |f.rat - r| ≤ |c.rat - r| := by exact_mod_cast h.nearest c hc hcf
  refine h5.trans ?_
  rw [hcr, abs_sub_comm, show r - (⌊r * 2 ^ 43⌋ : ℚ) / 2 ^ 43 = (r * 2 ^ 43 - ⌊r * 2 ^ 43⌋) / 2 ^ 43 by field_simp,
    abs_div, abs_of_pos (show (0 : ℚ) < 2 ^ 43 by norm_num), div_le_div_iff_of_pos_right (by norm_num),
    abs_of_nonneg (by linarith)]
  linarith

/-! ### The operators up to their rounding error -/

theorem F64.near_add {a b : F64} (ha : a.isFinite = true) (hb : b.isFinite = true) (h : |a.rat + b.rat| ≤ 1000) :
    (a.add b).isFinite = true ∧ |(a.add b).rat - (a.rat + b.rat)| ≤ 1 / 2 ^ 43 := by
  have := F64.add_isRounding ha hb (h.trans_lt (by norm_num))
  exact ⟨this.finite, this.error h⟩

theorem F64.near_sub {a b : F64} (ha : a.isFinite = true) (hb : b.isFinite = true) (h : |a.rat - b.rat| ≤ 1000) :
    (a.sub b).isFinite = true ∧ |(a.sub b).rat - (a.rat - b.rat)| ≤ 1 / 2 ^ 43 := by
  have := F64.sub_isRounding ha hb (h.trans_lt (by norm_num))
  exact ⟨this.finite, this.error h⟩

theorem F64.near_mul {a b : F64} (ha : a.isFinite = true) (hb : b.isFinite = true) (h : |a.rat * b.rat| ≤ 1000) :
    (a.mul b).isFinite = true ∧ |(a.mul b).rat - (a.rat * b.rat)| ≤ 1 / 2 ^ 43 := by
  have := F64.mul_isRounding ha hb (h.trans_lt (by norm_num))
  exact ⟨this.finite, this.error h⟩

theorem F64.near_div {a b : F64} (ha : a.isFinite = true) (hb : b.isFinite = true) (h0 : b.rat ≠ 0)
    (h : |a.rat / b.rat| ≤ 1000) :
    (a.div b).isFinite = true ∧ |(a.div b).rat - (a.rat / b.rat)| ≤ 1 / 2 ^ 43 := by
  have := F64.div_isRounding ha hb h0 (h.trans_lt (by norm_num))
  exact ⟨this.finite, this.error h⟩

end Sys2Proof
end

