-- ==== Sys2Proof/Laws/Curve.lean ====
section
/-! SUPPORT. The sample positions and the grid of the curve sampler, up to rounding errors (44_curve_sampler.md R143 to
R145). -/

open Sys2Proof.Machine

namespace Sys2Proof

/-! ### The sample positions -/

/-- The real offset of a sample position (44_curve_sampler.md R143). -/
def sampleOffset (g : Nat) : ℚ := (((7 * g + 23) % 40 + 10 : Nat) : ℚ) / 10 + (g : ℚ) / 5

theorem sampleOffset_bounds {g : Nat} (hg : g < 4) : 2 ≤ sampleOffset g ∧ sampleOffset g ≤ 51 / 10 := by
  unfold sampleOffset
  interval_cases g <;> norm_num

/-- Two quotients added in turn to a number, in binary64. -/
theorem F64.near_add_quotients {a p q r s : F64} (ha : a.isFinite = true) (hp : p.isFinite = true) (hq : q.isFinite = true)
    (hr : r.isFinite = true) (hs : s.isFinite = true) (ha0 : 0 ≤ a.rat) (ha1 : a.rat ≤ 510) (hp0 : 0 ≤ p.rat)
    (hp1 : p.rat ≤ 49) (hq1 : q.rat = 10) (hr0 : 0 ≤ r.rat) (hr1 : r.rat ≤ 3) (hs1 : s.rat = 5) :
    ((a.add (p.div q)).add (r.div s)).isFinite = true ∧
      |((a.add (p.div q)).add (r.div s)).rat - (a.rat + (p.rat / 10 + r.rat / 5))| ≤ 1 / 2 ^ 41 := by
  have d1 := F64.near_div hp hq (by rw [hq1]; norm_num) (by rw [hq1, abs_of_nonneg (by positivity)]; linarith)
  have d2 := F64.near_div hr hs (by rw [hs1]; norm_num) (by rw [hs1, abs_of_nonneg (by positivity)]; linarith)
  rw [hq1] at d1
  rw [hs1] at d2
  generalize p.div q = u at *
  generalize r.div s = v at *
  obtain ⟨f1, d1⟩ := d1
  obtain ⟨f2, d2⟩ := d2
  rw [abs_le] at d1 d2
  have s1 := F64.near_add ha f1 (by rw [abs_le]; constructor <;> linarith)
  generalize a.add u = w at *
  obtain ⟨f3, s1⟩ := s1
  rw [abs_le] at s1
  have s2 := F64.near_add f3 f2 (by rw [abs_le]; constructor <;> linarith)
  generalize w.add v = z at *
  obtain ⟨f4, s2⟩ := s2
  rw [abs_le] at s2
  exact ⟨f4, by rw [abs_le]; constructor <;> linarith⟩

/-- A sample position is near the real one. -/
theorem samplePos_near {i g : Nat} (hi : i < 256) (hg : g < 4) :
    (samplePos i g).isFinite = true ∧ |(samplePos i g).rat - (2 * i + sampleOffset g)| ≤ 1 / 2 ^ 41 := by
  have hn : (7 * g + 23) % 40 + 10 < 50 := by omega
  have e1 := F64.ofNat_exact (2 * i) (by omega)
  have e2 := F64.ofNat_exact ((7 * g + 23) % 40 + 10) (by omega)
  have e3 := F64.ofNat_exact 10 (by norm_num)
  have e4 := F64.ofNat_exact g (by omega)
  have e5 := F64.ofNat_exact 5 (by norm_num)
  have hi1 : ((2 * i : Nat) : ℚ) ≤ 510 := by exact_mod_cast (by omega : 2 * i ≤ 510)
  have hg1 : (g : ℚ) ≤ 3 := by exact_mod_cast (by omega : g ≤ 3)
  have hn1 : (((7 * g + 23) % 40 + 10 : Nat) : ℚ) ≤ 49 := by exact_mod_cast (by omega : (7 * g + 23) % 40 + 10 ≤ 49)
  have h := F64.near_add_quotients e1.1 e2.1 e3.1 e4.1 e5.1 (by rw [e1.2]; positivity) (by rw [e1.2]; exact hi1)
    (by rw [e2.2]; positivity) (by rw [e2.2]; exact hn1) (by rw [e3.2]; norm_num)
    (by rw [e4.2]; positivity) (by rw [e4.2]; exact hg1) (by rw [e5.2]; norm_num)
  rw [e1.2, e2.2, e4.2] at h
  rw [samplePos, sampleOffset]
  rw [Nat.cast_mul, Nat.cast_ofNat] at h
  exact h

theorem samplePositions_length (block : Word) : (samplePositions block).length = 256 := by simp [samplePositions]

theorem samplePositions_getD (block : Word) {i : Nat} (hi : i < 256) :
    (samplePositions block).getD i .nan = samplePos i (group block i).toNat := by
  rw [List.getD_eq_getElem?_getD, samplePositions, List.getElem?_map, List.getElem?_range hi, Option.map_some, Option.getD_some]

theorem samplePositions_mem {block : Word} {x : F64} (h : x ∈ samplePositions block) :
    ∃ i < 256, x = samplePos i (group block i).toNat := by
  simp only [samplePositions, List.mem_map, List.mem_range] at h
  obtain ⟨i, hi, rfl⟩ := h
  exact ⟨i, hi, rfl⟩

/-! ### The ends of the grid -/

/-- `leastOf` answers one of the values, and none is less. -/
theorem leastOf_spec (first : F64) (xs : List F64) (hf : first.isFinite = true) (h : ∀ x ∈ xs, x.isFinite = true) :
    (leastOf first xs = first ∨ leastOf first xs ∈ xs) ∧ (leastOf first xs).isFinite = true ∧
      (leastOf first xs).rat ≤ first.rat ∧ ∀ x ∈ xs, (leastOf first xs).rat ≤ x.rat := by
  induction xs generalizing first with
  | nil => exact ⟨Or.inl rfl, hf, le_rfl, by simp⟩
  | cons x xs ih =>
    have hx := h x (by simp)
    have e : leastOf first (x :: xs) = leastOf (if x.lt first then x else first) xs := rfl
    have hlt : x.lt first = decide (x.rat < first.rat) := by simp [F64.lt, hx, hf]
    rw [e]
    obtain ⟨a, b, c, d⟩ := ih (if x.lt first then x else first) (by split_ifs <;> assumption) (fun y hy => h y (by simp [hy]))
    have m : (if x.lt first then x else first).rat ≤ first.rat ∧ (if x.lt first then x else first).rat ≤ x.rat := by
      rw [hlt]
      split_ifs with hc
      · exact ⟨(of_decide_eq_true hc).le, le_rfl⟩
      · exact ⟨le_rfl, not_lt.1 (fun hh => hc (decide_eq_true hh))⟩
    refine ⟨?_, b, c.trans m.1, ?_⟩
    · rcases a with a | a
      · rw [a]
        split_ifs
        · exact Or.inr (by simp)
        · exact Or.inl rfl
      · exact Or.inr (by simp [a])
    · intro y hy
      rcases List.mem_cons.1 hy with rfl | hy
      · exact c.trans m.2
      · exact d y hy

/-- `greatestOf` answers one of the values, and none is greater. -/
theorem greatestOf_spec (first : F64) (xs : List F64) (hf : first.isFinite = true) (h : ∀ x ∈ xs, x.isFinite = true) :
    (greatestOf first xs = first ∨ greatestOf first xs ∈ xs) ∧ (greatestOf first xs).isFinite = true ∧
      first.rat ≤ (greatestOf first xs).rat ∧ ∀ x ∈ xs, x.rat ≤ (greatestOf first xs).rat := by
  induction xs generalizing first with
  | nil => exact ⟨Or.inl rfl, hf, le_rfl, by simp⟩
  | cons x xs ih =>
    have hx := h x (by simp)
    have e : greatestOf first (x :: xs) = greatestOf (if first.lt x then x else first) xs := rfl
    have hlt : first.lt x = decide (first.rat < x.rat) := by simp [F64.lt, hx, hf]
    rw [e]
    obtain ⟨a, b, c, d⟩ := ih (if first.lt x then x else first) (by split_ifs <;> assumption) (fun y hy => h y (by simp [hy]))
    have m : first.rat ≤ (if first.lt x then x else first).rat ∧ x.rat ≤ (if first.lt x then x else first).rat := by
      rw [hlt]
      split_ifs with hc
      · exact ⟨(of_decide_eq_true hc).le, le_rfl⟩
      · exact ⟨le_rfl, not_lt.1 (fun hh => hc (decide_eq_true hh))⟩
    refine ⟨?_, b, m.1.trans c, ?_⟩
    · rcases a with a | a
      · rw [a]
        split_ifs
        · exact Or.inr (by simp)
        · exact Or.inl rfl
      · exact Or.inr (by simp [a])
    · intro y hy
      rcases List.mem_cons.1 hy with rfl | hy
      · exact m.2.trans c
      · exact d y hy

theorem gridEnds_fst (xs : List F64) : (gridEnds xs).1 = leastOf (xs.headD .nan) xs := rfl
theorem gridEnds_snd (xs : List F64) : (gridEnds xs).2 = (greatestOf (xs.headD .nan) xs).add (F64.ofNat 1) := rfl

/-- The ends: the least position, and one above the greatest. -/
theorem gridEnds_spec (block : Word) :
    (∃ i < 256, (gridEnds (samplePositions block)).1 = samplePos i (group block i).toNat ∧
      ∀ k < 256, (samplePos i (group block i).toNat).rat ≤ (samplePos k (group block k).toNat).rat) ∧
    ∃ i < 256, (gridEnds (samplePositions block)).2 = (samplePos i (group block i).toNat).add (F64.ofNat 1) ∧
      ∀ k < 256, (samplePos k (group block k).toNat).rat ≤ (samplePos i (group block i).toNat).rat := by
  have hfin : ∀ x ∈ samplePositions block, x.isFinite = true := by
    intro x hx
    obtain ⟨i, hi, rfl⟩ := samplePositions_mem hx
    exact (samplePos_near hi (group block i).isLt).1
  have hhead : (samplePositions block).headD .nan ∈ samplePositions block := by
    have h := samplePositions_length block
    generalize samplePositions block = xs at *
    cases xs with
    | nil => simp at h
    | cons x xs => simp
  have hmem : ∀ k < 256, samplePos k (group block k).toNat ∈ samplePositions block := fun k hk => by
    simp only [samplePositions, List.mem_map, List.mem_range]
    exact ⟨k, hk, rfl⟩
  obtain ⟨l1, _, _, l4⟩ := leastOf_spec _ _ (hfin _ hhead) hfin
  obtain ⟨g1, _, _, g4⟩ := greatestOf_spec _ _ (hfin _ hhead) hfin
  have l5 : leastOf ((samplePositions block).headD .nan) (samplePositions block) ∈ samplePositions block := by
    rcases l1 with e | e
    · rw [e]
      exact hhead
    · exact e
  have g5 : greatestOf ((samplePositions block).headD .nan) (samplePositions block) ∈ samplePositions block := by
    rcases g1 with e | e
    · rw [e]
      exact hhead
    · exact e
  obtain ⟨i, hi, he⟩ := samplePositions_mem l5
  obtain ⟨j, hj, hf⟩ := samplePositions_mem g5
  refine ⟨⟨i, hi, (gridEnds_fst _).trans he, fun k hk => he ▸ l4 _ (hmem k hk)⟩, ⟨j, hj, ?_, fun k hk => hf ▸ g4 _ (hmem k hk)⟩⟩
  rw [gridEnds_snd, hf]

/-- The ends are moderate (R145). -/
theorem gridEnds_bounds (block : Word) :
    ((gridEnds (samplePositions block)).1.isFinite = true ∧ 19 / 10 ≤ (gridEnds (samplePositions block)).1.rat ∧
      (gridEnds (samplePositions block)).1.rat ≤ 52 / 10) ∧
    (gridEnds (samplePositions block)).2.isFinite = true ∧ 5129 / 10 ≤ (gridEnds (samplePositions block)).2.rat ∧
      (gridEnds (samplePositions block)).2.rat ≤ 5162 / 10 := by
  obtain ⟨⟨i, hi, he, hmin⟩, j, hj, hf, hmax⟩ := gridEnds_spec block
  rw [he, hf]
  have ni := samplePos_near hi (group block i).isLt
  have nj := samplePos_near hj (group block j).isLt
  have n0 := samplePos_near (show 0 < 256 by norm_num) (group block 0).isLt
  have n1 := samplePos_near (show 255 < 256 by norm_num) (group block 255).isLt
  have bi := sampleOffset_bounds (group block i).isLt
  have bj := sampleOffset_bounds (group block j).isLt
  have b0 := sampleOffset_bounds (group block 0).isLt
  have b1 := sampleOffset_bounds (group block 255).isLt
  have h0 := hmin 0 (by norm_num)
  have h1 := hmax 255 (by norm_num)
  generalize sampleOffset (group block i).toNat = oi at *
  generalize sampleOffset (group block j).toNat = oj at *
  generalize sampleOffset (group block 0).toNat = o0 at *
  generalize sampleOffset (group block 255).toNat = o1 at *
  generalize samplePos i (group block i).toNat = pi at *
  generalize samplePos j (group block j).toNat = pj at *
  generalize samplePos 0 (group block 0).toNat = p0 at *
  generalize samplePos 255 (group block 255).toNat = p1 at *
  have hi0 : (0 : ℚ) ≤ i := by positivity
  have hj1 : (j : ℚ) ≤ 255 := by exact_mod_cast (by omega : j ≤ 255)
  obtain ⟨fi, ni⟩ := ni
  obtain ⟨fj, nj⟩ := nj
  obtain ⟨f0, n0⟩ := n0
  obtain ⟨f1, n1⟩ := n1
  rw [abs_le] at ni nj n0 n1
  push_cast at n0 n1
  have one := F64.ofNat_exact 1 (by norm_num)
  have hadd := F64.near_add fj one.1 (by rw [one.2, abs_le]; push_cast; constructor <;> linarith)
  rw [one.2, abs_le] at hadd
  push_cast at hadd
  generalize pj.add (F64.ofNat 1) = b at *
  refine ⟨⟨fi, ?_, ?_⟩, hadd.1, ?_, ?_⟩ <;> linarith [hadd.2.1, hadd.2.2]

/-! ### The grid -/

theorem gridPoint_last (a b : F64) : gridPoint a b 2559 = b := by
  unfold gridPoint
  exact if_pos rfl

theorem gridPoint_of_lt (a b : F64) {k : Nat} (h : k < 2559) :
    gridPoint a b k = ((F64.ofNat k).mul ((b.sub a).div (F64.ofNat 2559))).add a := by
  unfold gridPoint
  exact if_neg (by unfold nGrid; omega)

/-- Every grid point is near the evenly spaced one. -/
theorem gridPoint_near {a b : F64} (ha : a.isFinite = true) (hb : b.isFinite = true) (ha0 : 19 / 10 ≤ a.rat)
    (ha1 : a.rat ≤ 52 / 10) (hb0 : 5129 / 10 ≤ b.rat) (hb1 : b.rat ≤ 5162 / 10) {k : Nat} (hk : k < 2560) :
    (gridPoint a b k).isFinite = true ∧
      |(gridPoint a b k).rat - (a.rat + k * ((b.rat - a.rat) / 2559))| ≤ 1 / 2 ^ 30 := by
  rcases Nat.lt_or_ge k 2559 with h | h
  · rw [gridPoint_of_lt a b h]
    have n1 := F64.ofNat_exact 2559 (by norm_num)
    have n2 := F64.ofNat_exact k (by omega)
    have hk1 : (k : ℚ) ≤ 2558 := by exact_mod_cast (by omega : k ≤ 2558)
    have hk0 : (0 : ℚ) ≤ k := by positivity
    generalize F64.ofNat 2559 = n at *
    generalize F64.ofNat k = m at *
    obtain ⟨f1, n1⟩ := n1
    obtain ⟨f2, n2⟩ := n2
    push_cast at n1
    have d := F64.near_sub hb ha (by rw [abs_le]; constructor <;> linarith)
    generalize b.sub a = u at *
    obtain ⟨f3, d⟩ := d
    rw [abs_le] at d
    have e := F64.near_div f3 f1 (by rw [n1]; norm_num)
      (by rw [n1, abs_of_nonneg (by apply div_nonneg <;> linarith), div_le_iff₀ (by norm_num)]; linarith)
    rw [n1] at e
    generalize u.div n = s at *
    obtain ⟨f4, e⟩ := e
    rw [abs_le] at e
    have hs : (19 / 100 : ℚ) ≤ s.rat ∧ s.rat ≤ 21 / 100 := by constructor <;> linarith
    have hks : m.rat * s.rat ≤ 2558 * (21 / 100) := by rw [n2]; nlinarith
    have hks0 : 0 ≤ m.rat * s.rat := by rw [n2]; nlinarith
    have g := F64.near_mul f2 f4 (by rw [abs_of_nonneg hks0]; linarith)
    generalize m.mul s = v at *
    obtain ⟨f5, g⟩ := g
    rw [abs_le] at g
    have w := F64.near_add f5 ha (by rw [abs_le]; constructor <;> linarith)
    generalize v.add a = z at *
    obtain ⟨f6, w⟩ := w
    refine ⟨f6, ?_⟩
    rw [abs_le] at w ⊢
    rw [n2] at g
    have key : |(k : ℚ) * s.rat - k * ((b.rat - a.rat) / 2559)| ≤ 1 / 2 ^ 31 := by
      rw [← mul_sub, abs_mul, abs_of_nonneg hk0]
      have h3 : |s.rat - (b.rat - a.rat) / 2559| ≤ 1 / 2 ^ 43 + 1 / 2 ^ 53 := by
        rw [abs_le]
        constructor <;> linarith
      have h4 := mul_le_mul hk1 h3 (abs_nonneg _) (by norm_num)
      norm_num at h4 ⊢
      linarith
    rw [abs_le] at key
    constructor <;> linarith
  · have hk' : k = 2559 := by omega
    subst hk'
    rw [gridPoint_last]
    refine ⟨hb, ?_⟩
    have : b.rat - (a.rat + (2559 : Nat) * ((b.rat - a.rat) / 2559)) = 0 := by push_cast; ring
    rw [this]
    norm_num

/-- Every grid point is finite and moderate (R145, R151). -/
theorem gridPoint_bounds {a b : F64} (ha : a.isFinite = true) (hb : b.isFinite = true) (ha0 : 19 / 10 ≤ a.rat)
    (ha1 : a.rat ≤ 52 / 10) (hb0 : 5129 / 10 ≤ b.rat) (hb1 : b.rat ≤ 5162 / 10) {k : Nat} (hk : k < 2560) :
    (gridPoint a b k).isFinite = true ∧ 18 / 10 ≤ (gridPoint a b k).rat ∧ (gridPoint a b k).rat ≤ 5163 / 10 := by
  have h := gridPoint_near ha hb ha0 ha1 hb0 hb1 hk
  generalize gridPoint a b k = x at *
  obtain ⟨f, h⟩ := h
  rw [abs_le] at h
  have hk1 : (k : ℚ) ≤ 2559 := by exact_mod_cast (by omega : k ≤ 2559)
  have hk0 : (0 : ℚ) ≤ k := by positivity
  have hs : 0 ≤ (b.rat - a.rat) / 2559 := by apply div_nonneg <;> linarith
  have h1 : (k : ℚ) * ((b.rat - a.rat) / 2559) ≤ b.rat - a.rat := by
    have := mul_le_mul_of_nonneg_right hk1 hs
    linarith
  have h2 := mul_nonneg hk0 hs
  exact ⟨f, by linarith, by linarith⟩

/-- The grid is increasing, by almost 0.2 a point (R145, R151). -/
theorem gridPoint_spacing {a b : F64} (ha : a.isFinite = true) (hb : b.isFinite = true) (ha0 : 19 / 10 ≤ a.rat)
    (ha1 : a.rat ≤ 52 / 10) (hb0 : 5129 / 10 ≤ b.rat) (hb1 : b.rat ≤ 5162 / 10) {j k : Nat} (hjk : j < k) (hk : k < 2560) :
    ((gridPoint a b k).sub (gridPoint a b j)).isFinite = true ∧
      19 / 100 < ((gridPoint a b k).sub (gridPoint a b j)).rat := by
  have h1 := gridPoint_near ha hb ha0 ha1 hb0 hb1 hk
  have h2 := gridPoint_near ha hb ha0 ha1 hb0 hb1 (hjk.trans hk)
  have h3 := gridPoint_bounds ha hb ha0 ha1 hb0 hb1 hk
  have h4 := gridPoint_bounds ha hb ha0 ha1 hb0 hb1 (hjk.trans hk)
  generalize gridPoint a b k = x at *
  generalize gridPoint a b j = y at *
  have d := F64.near_sub h1.1 h2.1 (by rw [abs_le]; constructor <;> linarith [h3.2.1, h3.2.2, h4.2.1, h4.2.2])
  generalize x.sub y = z at *
  refine ⟨d.1, ?_⟩
  have e1 := h1.2
  have e2 := h2.2
  have e3 := d.2
  rw [abs_le] at e1 e2 e3
  have hd : (1 : ℚ) ≤ (k : ℚ) - j := by
    have : (j : ℚ) + 1 ≤ k := by exact_mod_cast hjk
    linarith
  have hs : (198 / 1000 : ℚ) ≤ (b.rat - a.rat) / 2559 := by rw [le_div_iff₀ (by norm_num)]; linarith
  have h5 : (198 / 1000 : ℚ) ≤ ((k : ℚ) - j) * ((b.rat - a.rat) / 2559) := by nlinarith
  rw [sub_mul] at h5
  linarith

end Sys2Proof
end

