-- ==== Sys2Proof/Laws/Decode.lean ====
section
/-! SUPPORT. The command word and its five fields determine each other, and what the decoder answers, said once. -/

namespace Sys2Proof

/-- A command word is its five fields (30_encoding.md R61). -/
theorem Fields.toWord_ofWord (c : Word32) : (Fields.ofWord c).toWord = c := by
  apply BitVec.eq_of_getLsbD_eq
  intro i hi
  simp only [Fields.toWord, Fields.ofWord, BitVec.getLsbD_append, BitVec.getLsbD_extractLsb']
  split_ifs <;> grind

theorem Fields.ofWord_toWord (f : Fields) : Fields.ofWord f.toWord = f := by
  obtain ⟨op, wd, wa, wb, imm⟩ := f
  simp only [Fields.toWord, Fields.ofWord, Fields.mk.injEq]
  refine ⟨?_, ?_, ?_, ?_, ?_⟩ <;>
  · apply BitVec.eq_of_getLsbD_eq
    intro i hi
    simp only [BitVec.getLsbD_extractLsb', BitVec.getLsbD_append]
    split_ifs <;> grind

/-- Masking a command word masks its fields. -/
theorem Fields.toWord_and (f g : Fields) :
    f.toWord &&& g.toWord = Fields.toWord ⟨f.op &&& g.op, f.wd &&& g.wd, f.wa &&& g.wa, f.wb &&& g.wb, f.imm &&& g.imm⟩ := by
  apply BitVec.eq_of_getLsbD_eq
  intro i hi
  simp only [Fields.toWord, BitVec.getLsbD_and, BitVec.getLsbD_append]
  split_ifs <;> rfl

/-- A legal register field has bit 3 clear. -/
theorem legalReg_and {r : RegField} (h : legalReg r = true) : r &&& 8#4 = 0#4 := by
  revert r
  decide

/-- A command's word matches a row where its masked fields are the row's pattern. -/
theorem matchesWord_encode (r : Row) (i : Instr) (m p : Fields) (hm : r.format.mask = m.toWord) (hp : r.pattern = p.toWord)
    (h : Fields.mk (i.fields.op &&& m.op) (i.fields.wd &&& m.wd) (i.fields.wa &&& m.wa) (i.fields.wb &&& m.wb)
      (i.fields.imm &&& m.imm) = p) : r.matchesWord (encode i) = true := by
  rw [Row.matchesWord, hm, hp, encode, Fields.toWord_and, h]
  exact beq_self_eq_true _

end Sys2Proof
end

