-- ==== Sys2Proof/Laws/Niven.lean ====
section
/-! SUPPORT. Niven's proof that the cosine of a rational is irrational, made quantitative: `cos (a / b)` keeps the
distance that `Numerics.separation` names from every quotient by `d` (for 00_scope.md R14). -/

open Polynomial

namespace Sys2Proof.Niven

/-! ### The alternating sum of the even derivatives of a polynomial -/

/-- `g - g'' + g'''' - ...`, `N` terms. -/
noncomputable def altSum {R : Type} [CommRing R] (N : Nat) (g : R[X]) : R[X] :=
  ∑ j ∈ Finset.range N, (-1) ^ j * derivative^[2 * j] g

theorem altSum_add_deriv {R : Type} [CommRing R] (N : Nat) (g : R[X]) (h : g.natDegree < 2 * N) :
    altSum N g + derivative (derivative (altSum N g)) = g := by
  have key : ∀ N, altSum N g + derivative (derivative (altSum N g)) = g - (-1) ^ N * derivative^[2 * N] g := by
    intro N
    induction N with
    | zero => simp [altSum]
    | succ N ih =>
      have e : altSum (N + 1) g = altSum N g + (-1) ^ N * derivative^[2 * N] g := Finset.sum_range_succ _ _
      have hc : ∀ q : R[X], derivative ((-1) ^ N * q) = (-1) ^ N * derivative q := by
        intro q
        rcases neg_one_pow_eq_or R[X] N with h | h <;> rw [h] <;> simp
      rw [e, derivative_add, derivative_add, hc, hc]
      rw [show derivative (derivative (derivative^[2 * N] g)) = derivative^[2 * (N + 1)] g by
        rw [show 2 * (N + 1) = 2 * N + 1 + 1 by ring, Function.iterate_succ_apply', Function.iterate_succ_apply']]
      linear_combination ih
  rw [key, iterate_derivative_eq_zero h]
  simp

theorem altSum_eval_zero {R : Type} [CommRing R] (N : Nat) (g : R[X]) :
    (altSum N g).eval 0 = ∑ j ∈ Finset.range N, (-1) ^ j * (((2 * j).factorial : R) * g.coeff (2 * j)) := by
  rw [altSum, eval_finsetSum]
  refine Finset.sum_congr rfl fun j _ => ?_
  rw [eval_mul, eval_pow, eval_neg, eval_one, ← coeff_zero_eq_eval_zero (derivative^[2 * j] g), coeff_iterate_derivative]
  simp [Nat.descFactorial_self]

theorem altSum_deriv_eval_zero {R : Type} [CommRing R] (N : Nat) (g : R[X]) (h : ∀ j, g.coeff (2 * j + 1) = 0) :
    (derivative (altSum N g)).eval 0 = 0 := by
  rw [altSum, derivative_sum, eval_finsetSum]
  refine Finset.sum_eq_zero fun j _ => ?_
  have hc : derivative ((-1) ^ j * derivative^[2 * j] g) = (-1) ^ j * derivative^[2 * j + 1] g := by
    rw [Function.iterate_succ_apply']
    rcases neg_one_pow_eq_or R[X] j with h | h <;> rw [h] <;> simp
  rw [hc, eval_mul, ← coeff_zero_eq_eval_zero (derivative^[2 * j + 1] g), coeff_iterate_derivative, Nat.zero_add, h j]
  simp

theorem altSum_comp {R : Type} [CommRing R] (N : Nat) (g : R[X]) (r : R) :
    (altSum N g).comp (X + C r) = altSum N (g.comp (X + C r)) := by
  have key : ∀ k, (derivative^[k] g).comp (X + C r) = derivative^[k] (g.comp (X + C r)) := by
    intro k
    induction k with
    | zero => rfl
    | succ k ih =>
      rw [Function.iterate_succ_apply', Function.iterate_succ_apply', ← ih, derivative_comp]
      simp
  rw [altSum, altSum, sum_comp]
  refine Finset.sum_congr rfl fun j _ => ?_
  rw [mul_comp, key]
  simp

theorem altSum_map (N : Nat) (g : ℤ[X]) :
    altSum N (g.map (Int.castRingHom ℝ)) = (altSum N g).map (Int.castRingHom ℝ) := by
  simp [altSum, Polynomial.map_sum, iterate_derivative_map]

/-- What the sum is for: the derivative of `S' sin - S cos` is `g sin`, so a small `g` gives a small
`S(0) - S(r) cos r` wherever `S'(r)` is 0. -/
theorem altSum_bound (N : Nat) (g : ℝ[X]) (h : g.natDegree < 2 * N) (r M : ℝ) (hr : 0 ≤ r)
    (hM : ∀ x, 0 ≤ x → x ≤ r → |g.eval x| ≤ M) (hd : (derivative (altSum N g)).eval r = 0) :
    |(altSum N g).eval 0 - (altSum N g).eval r * Real.cos r| ≤ M * r := by
  set S := altSum N g with hS
  have hder : ∀ x : ℝ, HasDerivAt (fun x => (derivative S).eval x * Real.sin x - S.eval x * Real.cos x)
      (g.eval x * Real.sin x) x := by
    intro x
    have h1 := ((derivative S).hasDerivAt x).mul (Real.hasDerivAt_sin x)
    have h2 := (S.hasDerivAt x).mul (Real.hasDerivAt_cos x)
    refine (h1.sub h2).congr_deriv ?_
    have e : g.eval x = S.eval x + (derivative (derivative S)).eval x := by
      rw [← eval_add, hS, altSum_add_deriv N g h]
    rw [e]
    ring
  have hb := Convex.norm_image_sub_le_of_norm_hasDerivWithin_le (s := Set.Icc 0 r) (C := M)
    (fun x _ => (hder x).hasDerivWithinAt) (fun x hx => by
      rw [norm_mul, Real.norm_eq_abs, Real.norm_eq_abs]
      have h1 := hM x hx.1 hx.2
      have h2 := Real.abs_sin_le_one x
      calc |eval x g| * |Real.sin x| ≤ |eval x g| * 1 := mul_le_mul_of_nonneg_left h2 (abs_nonneg _)
        _ ≤ M := by linarith) (convex_Icc 0 r)
    (Set.left_mem_Icc.2 hr) (Set.right_mem_Icc.2 hr)
  simp only [hd, Real.sin_zero, Real.cos_zero, Real.norm_eq_abs, sub_zero, abs_of_nonneg hr] at hb
  refine le_trans (le_of_eq ?_) hb
  congr 1
  ring

/-! ### Niven's polynomial -/

/-- Niven's polynomial, `(p - 1)!` times the one of his proof. -/
noncomputable def nivenPoly (p a b : Nat) : ℤ[X] :=
  X ^ (p - 1) * ((C (a : ℤ) - C (b : ℤ) * X) ^ (2 * p) * (C (2 * a : ℤ) - C (b : ℤ) * X) ^ (p - 1))

/-- The same polynomial around `a / b`, in the square of the distance. -/
noncomputable def evenPoly (p a b : Nat) : ℤ[X] :=
  C (b : ℤ) ^ (p + 1) * (X ^ p * (C ((a : ℤ) ^ 2) - C ((b : ℤ) ^ 2) * X) ^ (p - 1))

theorem natDegree_linear_le (u v : ℤ) : (C u - C v * X).natDegree ≤ 1 :=
  (natDegree_sub_le _ _).trans (by simpa using (natDegree_C_mul_X_pow_le v 1))

theorem nivenPoly_natDegree (p a b : Nat) (hp : 0 < p) : (nivenPoly p a b).natDegree < 2 * (2 * p) := by
  have h1 : ((C (a : ℤ) - C (b : ℤ) * X) ^ (2 * p)).natDegree ≤ 2 * p := by
    refine natDegree_pow_le.trans ?_
    have := natDegree_linear_le a b
    nlinarith
  have h2 : ((C (2 * a : ℤ) - C (b : ℤ) * X) ^ (p - 1)).natDegree ≤ p - 1 := by
    refine natDegree_pow_le.trans ?_
    have := natDegree_linear_le (2 * a) b
    nlinarith
  have h3 : (X ^ (p - 1) : ℤ[X]).natDegree ≤ p - 1 := natDegree_X_pow_le _
  have h4 := natDegree_mul_le (p := (C (a : ℤ) - C (b : ℤ) * X) ^ (2 * p))
    (q := (C (2 * a : ℤ) - C (b : ℤ) * X) ^ (p - 1))
  have h5 := natDegree_mul_le (p := (X ^ (p - 1) : ℤ[X]))
    (q := (C (a : ℤ) - C (b : ℤ) * X) ^ (2 * p) * (C (2 * a : ℤ) - C (b : ℤ) * X) ^ (p - 1))
  unfold nivenPoly
  omega

/-- Around `a / b` Niven's polynomial is even. -/
theorem nivenPoly_comp (p a b : Nat) (hp : 0 < p) (hb : 0 < b) :
    ((nivenPoly p a b).map (Int.castRingHom ℝ)).comp (X + C ((a : ℝ) / b)) =
      expand ℝ 2 ((evenPoly p a b).map (Int.castRingHom ℝ)) := by
  have hb' : (b : ℝ) ≠ 0 := by positivity
  obtain ⟨n, rfl⟩ : ∃ n, p = n + 1 := ⟨p - 1, by omega⟩
  refine Polynomial.funext fun x => ?_
  simp [nivenPoly, evenPoly]
  have e1 : (a : ℝ) - b * (x + a / b) = -(b * x) := by field_simp; ring
  have e2 : 2 * (a : ℝ) - b * (x + a / b) = a - b * x := by field_simp; ring
  have e3 : ((a : ℝ) ^ 2 - b ^ 2 * x ^ 2) = b * (x + a / b) * (a - b * x) := by field_simp; ring
  rw [e1, e2, e3, mul_pow, mul_pow, pow_mul, neg_sq]
  ring

theorem coeff_linear_pow (u v : Nat) (n j : Nat) :
    |((C (u : ℤ) - C (v : ℤ) * X) ^ n).coeff j| ≤ ((u : ℤ) + v) ^ n := by
  induction n generalizing j with
  | zero =>
    rw [pow_zero, pow_zero, coeff_one]
    split_ifs <;> simp
  | succ n ih =>
    rw [pow_succ, mul_sub, coeff_sub, coeff_mul_C, ← mul_assoc]
    have h1 := ih j
    have hu : (0 : ℤ) ≤ u := by positivity
    have hv : (0 : ℤ) ≤ v := by positivity
    have hpos : (0 : ℤ) ≤ ((u : ℤ) + v) ^ n := by positivity
    have h2 : |((C (u : ℤ) - C (v : ℤ) * X) ^ n * C (v : ℤ) * X).coeff j| ≤ ((u : ℤ) + v) ^ n * v := by
      cases j with
      | zero => simp; positivity
      | succ j =>
        rw [coeff_mul_X, coeff_mul_C, abs_mul, abs_of_nonneg hv]
        exact mul_le_mul_of_nonneg_right (ih j) hv
    refine (abs_sub _ _).trans ?_
    rw [abs_mul, abs_of_nonneg hu, pow_succ, mul_add]
    exact add_le_add (mul_le_mul_of_nonneg_right h1 hu) h2

theorem evenPoly_coeff (p a b : Nat) (j : Nat) : (evenPoly p a b).coeff j = if p ≤ j then
    (b : ℤ) ^ (p + 1) * ((C ((a : ℤ) ^ 2) - C ((b : ℤ) ^ 2) * X) ^ (p - 1)).coeff (j - p) else 0 := by
  rw [evenPoly, ← C_pow, coeff_C_mul, coeff_X_pow_mul']
  split_ifs <;> simp

theorem evenPoly_coeff_le (p a b : Nat) (j : Nat) :
    |(evenPoly p a b).coeff j| ≤ (b : ℤ) ^ (p + 1) * ((a : ℤ) ^ 2 + b ^ 2) ^ (p - 1) := by
  rw [evenPoly_coeff]
  split_ifs
  · rw [abs_mul, abs_of_nonneg (by positivity)]
    have := coeff_linear_pow (a ^ 2) (b ^ 2) (p - 1) (j - p)
    push_cast at this
    exact mul_le_mul_of_nonneg_left this (by positivity)
  · simp; positivity

/-- The sum's value at `a / b`, which `p!` divides. -/
noncomputable def atEnd (p a b : Nat) : ℤ :=
  ∑ j ∈ Finset.range (2 * p), (-1) ^ j * (((2 * j).factorial : ℤ) * (evenPoly p a b).coeff j)

theorem eval_end (p a b : Nat) (hp : 0 < p) (hb : 0 < b) :
    (altSum (2 * p) ((nivenPoly p a b).map (Int.castRingHom ℝ))).eval ((a : ℝ) / b) = atEnd p a b := by
  have h : (altSum (2 * p) ((nivenPoly p a b).map (Int.castRingHom ℝ))).eval ((a : ℝ) / b) =
      ((altSum (2 * p) ((nivenPoly p a b).map (Int.castRingHom ℝ))).comp (X + C ((a : ℝ) / b))).eval 0 := by
    simp [eval_comp]
  rw [h, altSum_comp, nivenPoly_comp p a b hp hb, altSum_eval_zero, atEnd]
  push_cast
  refine Finset.sum_congr rfl fun j _ => ?_
  rw [mul_comm 2 j, coeff_expand_mul (by norm_num), coeff_map]
  simp

theorem deriv_end (p a b : Nat) (hp : 0 < p) (hb : 0 < b) :
    (derivative (altSum (2 * p) ((nivenPoly p a b).map (Int.castRingHom ℝ)))).eval ((a : ℝ) / b) = 0 := by
  have h : (derivative (altSum (2 * p) ((nivenPoly p a b).map (Int.castRingHom ℝ)))).eval ((a : ℝ) / b) =
      (derivative ((altSum (2 * p) ((nivenPoly p a b).map (Int.castRingHom ℝ))).comp (X + C ((a : ℝ) / b)))).eval 0 := by
    simp [derivative_comp, eval_comp]
  rw [h, altSum_comp, nivenPoly_comp p a b hp hb]
  refine altSum_deriv_eval_zero _ _ fun j => ?_
  rw [coeff_expand (by norm_num)]
  simp

theorem atEnd_dvd (p a b : Nat) : (p.factorial : ℤ) ∣ atEnd p a b := by
  refine Finset.dvd_sum fun j _ => ?_
  rw [evenPoly_coeff]
  split_ifs with h
  · refine Dvd.dvd.mul_left (Dvd.dvd.mul_right ?_ _) _
    exact_mod_cast Nat.factorial_dvd_factorial (by omega)
  · simp

theorem atEnd_le (p a b : Nat) :
    |atEnd p a b| ≤ 2 * p * ((4 * p).factorial * ((b : ℤ) ^ (p + 1) * ((a : ℤ) ^ 2 + b ^ 2) ^ (p - 1))) := by
  have h : ∀ j ∈ Finset.range (2 * p), |(-1) ^ j * (((2 * j).factorial : ℤ) * (evenPoly p a b).coeff j)| ≤
      (4 * p).factorial * ((b : ℤ) ^ (p + 1) * ((a : ℤ) ^ 2 + b ^ 2) ^ (p - 1)) := by
    intro j hj
    rw [Finset.mem_range] at hj
    rw [abs_mul, abs_mul, abs_pow, abs_neg, abs_one, one_pow, one_mul, Nat.abs_cast]
    refine mul_le_mul ?_ (evenPoly_coeff_le p a b j) (abs_nonneg _) (by positivity)
    exact_mod_cast Nat.factorial_le (by omega)
  refine (Finset.abs_sum_le_sum_abs _ _).trans ((Finset.sum_le_card_nsmul _ _ _ h).trans (le_of_eq ?_))
  simp [mul_assoc]

/-- The sum's value at 0, in which `(p - 1)!` divides every term and `p!` all but one. -/
noncomputable def atZero (p a b : Nat) : ℤ :=
  ∑ j ∈ Finset.range (2 * p), (-1) ^ j * (((2 * j).factorial : ℤ) * (nivenPoly p a b).coeff (2 * j))

theorem eval_zero_eq (p a b : Nat) :
    (altSum (2 * p) ((nivenPoly p a b).map (Int.castRingHom ℝ))).eval 0 = atZero p a b := by
  rw [altSum_eval_zero, atZero]
  push_cast
  refine Finset.sum_congr rfl fun j _ => ?_
  rw [coeff_map]
  simp

theorem atZero_eq (p a b : Nat) (hp : 2 ≤ p) (hodd : p % 2 = 1) :
    ∃ w : ℤ, atZero p a b = (p - 1).factorial * ((-1) ^ ((p - 1) / 2) * ((a : ℤ) ^ (2 * p) * (2 * a) ^ (p - 1)) + p * w) := by
  have key : ∀ j ∈ Finset.range (2 * p), j ≠ (p - 1) / 2 →
      ((p.factorial : Nat) : ℤ) ∣ (-1) ^ j * (((2 * j).factorial : ℤ) * (nivenPoly p a b).coeff (2 * j)) := by
    intro j _ hj
    rcases lt_or_ge (2 * j) p with h | h
    · have : (nivenPoly p a b).coeff (2 * j) = 0 := by
        rw [nivenPoly, coeff_X_pow_mul', if_neg (by omega)]
      rw [this]
      simp
    · refine Dvd.dvd.mul_left (Dvd.dvd.mul_right ?_ _) _
      exact_mod_cast Nat.factorial_dvd_factorial h
  have hmem : (p - 1) / 2 ∈ Finset.range (2 * p) := by rw [Finset.mem_range]; omega
  rw [atZero, ← Finset.add_sum_erase _ _ hmem]
  obtain ⟨w, hw⟩ : ((p.factorial : Nat) : ℤ) ∣ ∑ j ∈ (Finset.range (2 * p)).erase ((p - 1) / 2),
      (-1) ^ j * (((2 * j).factorial : ℤ) * (nivenPoly p a b).coeff (2 * j)) :=
    Finset.dvd_sum fun j hj => key j (Finset.mem_of_mem_erase hj) (Finset.ne_of_mem_erase hj)
  refine ⟨w, ?_⟩
  have h2 : 2 * ((p - 1) / 2) = p - 1 := by omega
  have hc : (nivenPoly p a b).coeff (p - 1) = (a : ℤ) ^ (2 * p) * (2 * a) ^ (p - 1) := by
    rw [nivenPoly, coeff_X_pow_mul', if_pos le_rfl, Nat.sub_self, coeff_zero_eq_eval_zero]
    simp
  rw [hw, h2, hc, ← Nat.mul_factorial_pred (by omega : p ≠ 0)]
  push_cast
  ring

/-! ### The distance -/

theorem pow_le_factorial (e n : Nat) (h : Numerics.seriesLength e ≤ n) : e ^ n ≤ (n - 1).factorial := by
  unfold Numerics.seriesLength at h
  obtain ⟨m, hm⟩ : ∃ m, n = e ^ 2 + m + 1 := ⟨n - e ^ 2 - 1, by omega⟩
  have hm1 : e ^ 2 + 1 ≤ m := by omega
  have h1 := Nat.factorial_mul_pow_le_factorial (m := e ^ 2) (n := m)
  rw [show n - 1 = e ^ 2 + m by omega]
  refine le_trans ?_ h1
  rcases Nat.eq_zero_or_pos e with rfl | he
  · rw [hm]; simp
  · calc e ^ n ≤ e ^ (2 * m) := Nat.pow_le_pow_right he (by omega)
      _ = (e ^ 2) ^ m := by rw [pow_mul]
      _ ≤ (e ^ 2 + 1) ^ m := Nat.pow_le_pow_left (by omega) m
      _ ≤ (e ^ 2).factorial * (e ^ 2 + 1) ^ m := Nat.le_mul_of_pos_left _ (Nat.factorial_pos _)

theorem nivenPoly_eval_le (p a b : Nat) (hb : 0 < b) (x : ℝ) (h0 : 0 ≤ x) (hx : x ≤ (a : ℝ) / b) :
    |((nivenPoly p a b).map (Int.castRingHom ℝ)).eval x| ≤ (a : ℝ) ^ (p - 1) * ((a : ℝ) ^ (2 * p) * (2 * a) ^ (p - 1)) := by
  have hb' : (1 : ℝ) ≤ b := by exact_mod_cast hb
  have hbx : b * x ≤ a := by rw [le_div_iff₀ (by positivity)] at hx; linarith
  have hbx0 : 0 ≤ b * x := by positivity
  have hxa : x ≤ a := by nlinarith
  have e : ((nivenPoly p a b).map (Int.castRingHom ℝ)).eval x =
      x ^ (p - 1) * (((a : ℝ) - b * x) ^ (2 * p) * (2 * a - b * x) ^ (p - 1)) := by
    simp [nivenPoly]
  have h1 : (0 : ℝ) ≤ a - b * x := by linarith
  have h2 : (0 : ℝ) ≤ 2 * a - b * x := by linarith
  rw [e, abs_of_nonneg (by positivity)]
  gcongr
  · linarith
  · linarith

/-- An integer form that a prime above `2 a` and `d` does not divide. -/
theorem not_dvd_form {p a d : Nat} (hp : p.Prime) (ha : 0 < a) (hap : 2 * a < p) (hd : 0 < d) (hdp : d < p) (w z c : ℤ) :
    ¬ (p : ℤ) ∣ ((-1) ^ ((p - 1) / 2) * ((a : ℤ) ^ (2 * p) * (2 * a) ^ (p - 1)) + p * w) * d - p * z * c := by
  intro hdvd
  set q : ℤ := (-1) ^ ((p - 1) / 2) * ((a : ℤ) ^ (2 * p) * (2 * a) ^ (p - 1)) with hq
  have h1 : (p : ℤ) ∣ q * d := by
    have : q * d = ((q + p * w) * d - p * z * c) + p * (z * c - w * d) := by ring
    rw [this]
    exact dvd_add hdvd (dvd_mul_right _ _)
  have hpp : Prime (p : ℤ) := Nat.prime_iff_prime_int.1 hp
  have small : ∀ m : Nat, 0 < m → m < p → ¬ (p : ℤ) ∣ m := by
    intro m hm0 hm hdv
    have := Nat.le_of_dvd hm0 (by exact_mod_cast hdv)
    omega
  rcases hpp.dvd_or_dvd h1 with h | h
  · rw [hq] at h
    rcases hpp.dvd_or_dvd h with h | h
    · exact hpp.not_isUnit (isUnit_of_dvd_unit (hpp.dvd_of_dvd_pow h) (by simp))
    · rcases hpp.dvd_or_dvd h with h | h
      · exact small a ha (by omega) (hpp.dvd_of_dvd_pow h)
      · have := hpp.dvd_of_dvd_pow h
        exact small (2 * a) (by omega) (by omega) (by push_cast; exact this)
  · exact small d hd (by omega) h

/-- The sum's value at `a / b`, without its factorial, for a `p` of at most `2 l`. -/
theorem atEnd_quotient_le {p a b l : Nat} (hb : 0 < b) (hp : 0 < p) (hpl : p ≤ 2 * l) {z1 : ℤ}
    (hz1 : atEnd p a b = (p.factorial : ℤ) * z1) :
    |(p : ℝ) * z1| ≤ (4 * l * ((8 * l).factorial * (b ^ (2 * l + 1) * (a ^ 2 + b ^ 2) ^ (2 * l))) : Nat) := by
  have hn1pos : 0 < (p - 1).factorial := Nat.factorial_pos _
  have hpf : (p.factorial : ℤ) = (p - 1).factorial * p := by
    rw [← Nat.mul_factorial_pred (by omega : p ≠ 0)]
    push_cast
    ring
  generalize (p - 1).factorial = n1 at *
  have h1 := atEnd_le p a b
  rw [hz1, hpf] at h1
  have h2 : |(p : ℤ) * z1| ≤ |(n1 : ℤ) * p * z1| := by
    rw [mul_assoc, abs_mul (n1 : ℤ), Nat.abs_cast]
    have : (1 : ℤ) ≤ n1 := by exact_mod_cast hn1pos
    nlinarith [abs_nonneg ((p : ℤ) * z1)]
  have h3 : 2 * p * ((4 * p).factorial * (b ^ (p + 1) * (a ^ 2 + b ^ 2) ^ (p - 1))) ≤
      4 * l * ((8 * l).factorial * (b ^ (2 * l + 1) * (a ^ 2 + b ^ 2) ^ (2 * l))) := by
    refine Nat.mul_le_mul (by omega) (Nat.mul_le_mul (Nat.factorial_le (by omega)) (Nat.mul_le_mul ?_ ?_))
    · exact Nat.pow_le_pow_right hb (by omega)
    · exact Nat.pow_le_pow_right (by positivity) (by omega)
  have h4 : |(p : ℤ) * z1| ≤ (4 * l * ((8 * l).factorial * (b ^ (2 * l + 1) * (a ^ 2 + b ^ 2) ^ (2 * l))) : Nat) := by
    refine (h2.trans h1).trans ?_
    exact_mod_cast h3
  exact_mod_cast h4

/-- A bound of Niven's polynomial on the interval, times the interval's length. -/
theorem bound_mul_le {p a b : Nat} (ha : 0 < a) (hb : 0 < b) (hp : 0 < p) :
    (a : ℝ) ^ (p - 1) * ((a : ℝ) ^ (2 * p) * (2 * a) ^ (p - 1)) * ((a : ℝ) / b) ≤ (2 * a) ^ (4 * p) := by
  have h1 : (1 : ℝ) ≤ 2 * a := by
    have : (1 : ℝ) ≤ a := by exact_mod_cast ha
    linarith
  have h2 : (a : ℝ) ≤ 2 * a := by linarith
  have h3 : (a : ℝ) / b ≤ 2 * a := by
    have hb' : (1 : ℝ) ≤ b := by exact_mod_cast hb
    rw [div_le_iff₀ (by linarith)]
    nlinarith
  calc (a : ℝ) ^ (p - 1) * ((a : ℝ) ^ (2 * p) * (2 * a) ^ (p - 1)) * ((a : ℝ) / b)
      ≤ (2 * a) ^ (p - 1) * ((2 * a) ^ (2 * p) * (2 * a) ^ (p - 1)) * (2 * a) ^ 1 := by
        rw [pow_one]
        gcongr
    _ = (2 * a) ^ (4 * p - 1) := by
        rw [← pow_add, ← pow_add, ← pow_add]
        congr 1
        omega
    _ ≤ (2 * a) ^ (4 * p) := pow_le_pow_right₀ h1 (by omega)

/-- The cosine of a positive rational keeps its distance from every quotient by `d`. -/
theorem cos_separation {a b d : Nat} (ha : 0 < a) (hb : 0 < b) (hd : 0 < d) (c : ℤ) :
    1 / (Numerics.separation a b d : ℝ) ≤ |Real.cos ((a : ℝ) / b) - c / d| := by
  set E := 2 * d * (2 * a) ^ 4 with hE
  set l := Numerics.seriesLength E with hl
  obtain ⟨p, hp, hlp, hpl⟩ := Nat.exists_prime_lt_and_le_two_mul l (by rw [hl]; unfold Numerics.seriesLength; omega)
  have hEl : E < l := by rw [hl]; unfold Numerics.seriesLength; nlinarith [Nat.le_self_pow (n := 2) (by norm_num) E]
  have ha4 : 2 * a ≤ (2 * a) ^ 4 := Nat.le_self_pow (by norm_num) _
  have haE : 2 * a ≤ E := by rw [hE]; nlinarith
  have hdE : d ≤ E := by rw [hE]; nlinarith [Nat.pow_pos (n := 4) (show 0 < 2 * a by omega)]
  have hp2 := hp.two_le
  have hodd : p % 2 = 1 := by
    rcases hp.eq_two_or_odd with h | h
    · omega
    · exact h
  obtain ⟨w, hw⟩ := atZero_eq p a b hp2 hodd
  obtain ⟨z1, hz1⟩ := atEnd_dvd p a b
  set n1 : ℕ := (p - 1).factorial with hn1
  have hn1pos : 0 < n1 := Nat.factorial_pos _
  set q : ℤ := (-1) ^ ((p - 1) / 2) * ((a : ℤ) ^ (2 * p) * (2 * a) ^ (p - 1)) with hq
  have hpf : (p.factorial : ℤ) = n1 * p := by
    rw [hn1, ← Nat.mul_factorial_pred (by omega : p ≠ 0)]
    push_cast
    ring
  have hpa := not_dvd_form hp ha (by omega) hd (by omega) w z1 c
  have hne : (1 : ℤ) ≤ |(q + p * w) * d - p * z1 * c| :=
    Int.one_le_abs fun h => hpa (by rw [h]; exact dvd_zero _)
  have hbound := altSum_bound (2 * p) ((nivenPoly p a b).map (Int.castRingHom ℝ))
    ((natDegree_map_le).trans_lt (nivenPoly_natDegree p a b (by omega))) ((a : ℝ) / b)
    ((a : ℝ) ^ (p - 1) * ((a : ℝ) ^ (2 * p) * (2 * a) ^ (p - 1))) (by positivity)
    (fun x h0 hx => nivenPoly_eval_le p a b hb x h0 hx) (deriv_end p a b (by omega) hb)
  rw [eval_zero_eq, eval_end p a b (by omega) hb, hw, hz1, hpf] at hbound
  have hTle := atEnd_quotient_le hb hp.pos hpl hz1
  have hdr : (0 : ℝ) < d := by exact_mod_cast hd
  have hn1r : (0 : ℝ) < n1 := by exact_mod_cast hn1pos
  have hsmall := bound_mul_le (p := p) ha hb hp.pos
  have hfac : (2 * d : ℝ) * (2 * a) ^ (4 * p) ≤ n1 := by
    have h1 := pow_le_factorial E p hlp.le
    have h2 : 2 * d * (2 * a) ^ (4 * p) ≤ E ^ p := by
      rw [hE, mul_pow (2 * d), ← pow_mul]
      exact Nat.mul_le_mul_right _ (Nat.le_self_pow (by omega) _)
    exact_mod_cast h2.trans h1
  have hlow : (1 : ℝ) / d ≤ |((q + p * w : ℤ) : ℝ) - p * z1 * (c / d)| := by
    have e : ((q + p * w : ℤ) : ℝ) - p * z1 * (c / d) = (((q + p * w) * d - p * z1 * c : ℤ) : ℝ) / d := by
      push_cast
      field_simp
    rw [e, abs_div, abs_of_pos hdr]
    refine div_le_div_of_nonneg_right ?_ hdr.le
    exact_mod_cast hne
  have hup : |((q + p * w : ℤ) : ℝ) - p * z1 * Real.cos ((a : ℝ) / b)| ≤ 1 / (2 * d) := by
    have e : ((((n1 : ℤ) * (q + p * w) : ℤ) : ℝ) - (((n1 : ℤ) * p * z1 : ℤ) : ℝ) * Real.cos ((a : ℝ) / b)) =
        n1 * (((q + p * w : ℤ) : ℝ) - p * z1 * Real.cos ((a : ℝ) / b)) := by
      push_cast
      ring
    rw [e, abs_mul, abs_of_pos hn1r] at hbound
    rw [le_div_iff₀ (by positivity)]
    have h5 := hbound.trans hsmall
    have h6 := abs_nonneg (((q + p * w : ℤ) : ℝ) - p * z1 * Real.cos ((a : ℝ) / b))
    have h7 : (0 : ℝ) < (2 * a) ^ (4 * p) := by
      have : (0 : ℝ) < a := by exact_mod_cast ha
      positivity
    have h8 : (2 * d : ℝ) * (2 * a) ^ (4 * p) * |((q + p * w : ℤ) : ℝ) - p * z1 * Real.cos ((a : ℝ) / b)| ≤ (2 * a) ^ (4 * p) :=
      (mul_le_mul_of_nonneg_right hfac h6).trans h5
    have h9 : (2 * a : ℝ) ^ (4 * p) * (|((q + p * w : ℤ) : ℝ) - p * z1 * Real.cos ((a : ℝ) / b)| * (2 * d)) ≤
        (2 * a) ^ (4 * p) * 1 := by linarith
    exact le_of_mul_le_mul_left h9 h7
  have hprod : 1 / (2 * d : ℝ) ≤ |(p : ℝ) * z1| * |Real.cos ((a : ℝ) / b) - c / d| := by
    rw [← abs_mul]
    have e : ((q + p * w : ℤ) : ℝ) - p * z1 * (c / d) =
        (((q + p * w : ℤ) : ℝ) - p * z1 * Real.cos ((a : ℝ) / b)) + p * z1 * (Real.cos ((a : ℝ) / b) - c / d) := by ring
    rw [e] at hlow
    have h1 := hlow.trans (abs_add_le _ _)
    have h2 : (1 : ℝ) / d = 1 / (2 * d) + 1 / (2 * d) := by field_simp; norm_num
    linarith
  set B : Nat := 4 * l * ((8 * l).factorial * (b ^ (2 * l + 1) * (a ^ 2 + b ^ 2) ^ (2 * l))) with hB
  have hBpos : (0 : ℝ) < B := by
    have : 0 < B := by
      rw [hB]
      have : 0 < l := by rw [hl]; unfold Numerics.seriesLength; omega
      positivity
    exact_mod_cast this
  have hgap : (Numerics.separation a b d : ℝ) = 2 * d * B := by
    rw [hB]
    simp only [Numerics.separation, ← hE, ← hl]
    push_cast
    ring
  have h10 : 1 / (2 * d : ℝ) ≤ B * |Real.cos ((a : ℝ) / b) - c / d| :=
    hprod.trans (mul_le_mul_of_nonneg_right hTle (abs_nonneg _))
  rw [hgap, div_le_iff₀ (by positivity)]
  rw [div_le_iff₀ (by positivity)] at h10
  linarith
end Sys2Proof.Niven
end

