-- ==== Sys2Proof/Laws/Separation.lean ====
section
/-! SUPPORT. Sine, cosine and arctangent of a positive rational keep a known distance from every tie of two binary64
values, and the approximations of Machine/Elementary.lean come nearer than that; so they round as the real values do
(00_scope.md R14). -/

namespace Sys2Proof

/-! ### The power series and the sum -/

/-- The power series of the exponential on the imaginary axis is those of the cosine and the sine. -/
theorem exp_mul_I_series (x : ℝ) (n : Nat) :
    ∑ m ∈ Finset.range (2 * n), ((x : ℂ) * Complex.I) ^ m / (m.factorial : ℂ) =
      ((∑ k ∈ Finset.range n, (-1) ^ k * x ^ (2 * k) / (2 * k).factorial : ℝ) : ℂ) +
      ((∑ k ∈ Finset.range n, (-1) ^ k * x ^ (2 * k + 1) / (2 * k + 1).factorial : ℝ) : ℂ) * Complex.I := by
  induction n with
  | zero => simp
  | succ n ih =>
    have h : ((x : ℂ) * Complex.I) ^ (2 * n) = (-1) ^ n * (x : ℂ) ^ (2 * n) := by
      rw [mul_pow, pow_mul Complex.I, Complex.I_sq, mul_comm]
    rw [show 2 * (n + 1) = 2 * n + 1 + 1 by ring, Finset.sum_range_succ, Finset.sum_range_succ, ih,
      Finset.sum_range_succ, Finset.sum_range_succ, pow_succ ((x : ℂ) * Complex.I), h]
    push_cast
    ring

/-- The remainders of the power series of the cosine and the sine. -/
theorem exp_mul_I_bound (x : ℝ) (n : Nat) (h : |x| / (2 * n + 1) ≤ 1 / 2) :
    |Real.cos x - ∑ k ∈ Finset.range n, (-1) ^ k * x ^ (2 * k) / (2 * k).factorial| ≤
        |x| ^ (2 * n) / (2 * n).factorial * 2 ∧
      |Real.sin x - ∑ k ∈ Finset.range n, (-1) ^ k * x ^ (2 * k + 1) / (2 * k + 1).factorial| ≤
        |x| ^ (2 * n) / (2 * n).factorial * 2 := by
  have hn : ‖(x : ℂ) * Complex.I‖ = |x| := by simp
  have hb := Complex.exp_bound' (x := (x : ℂ) * Complex.I) (n := 2 * n) (by rw [hn]; push_cast; exact h)
  rw [hn, exp_mul_I_series, Complex.exp_mul_I, ← Complex.ofReal_cos, ← Complex.ofReal_sin] at hb
  generalize Real.cos x = c at *
  generalize Real.sin x = s at *
  constructor
  · refine le_trans ?_ hb
    refine le_trans (le_of_eq ?_) (Complex.abs_re_le_norm _)
    simp [-Complex.ofReal_sum]
  · refine le_trans ?_ hb
    refine le_trans (le_of_eq ?_) (Complex.abs_im_le_norm _)
    simp [-Complex.ofReal_sum]

/-- With `seriesLength` terms the remainder is below `1 / g`. -/
theorem series_error {a b g : Nat} (hb : 0 < b) (hg : 0 < g) :
    let n := Numerics.seriesLength (2 * g * (a + 1))
    (a : ℝ) / b / (2 * n + 1) ≤ 1 / 2 ∧ ((a : ℝ) / b) ^ (2 * n) / (2 * n).factorial * 2 < 1 / g := by
  intro n
  have hb' : (1 : ℝ) ≤ b := by exact_mod_cast hb
  have hg' : (0 : ℝ) < g := by exact_mod_cast hg
  have hq : (a : ℝ) / b ≤ a := div_le_self (by positivity) hb'
  have hnge : a + 1 ≤ n := by
    have h1 : a + 1 ≤ 2 * g * (a + 1) := by nlinarith
    have h2 : 2 * g * (a + 1) ≤ (2 * g * (a + 1)) ^ 2 := Nat.le_self_pow (by norm_num) _
    show a + 1 ≤ 2 * _ ^ 2 + 2
    omega
  have hnr : (a : ℝ) + 1 ≤ n := by exact_mod_cast hnge
  constructor
  · rw [div_le_iff₀ (by positivity)]
    linarith
  · have h1 : (2 * g * (a + 1)) ^ (2 * n) ≤ (2 * n).factorial :=
      (Niven.pow_le_factorial _ _ (by show n ≤ 2 * n; omega)).trans (Nat.factorial_le (by omega))
    have h2 : 2 * g * a ^ (2 * n) < (2 * g * (a + 1)) ^ (2 * n) := by
      rw [mul_pow (2 * g)]
      calc 2 * g * a ^ (2 * n) < 2 * g * (a + 1) ^ (2 * n) :=
            Nat.mul_lt_mul_of_pos_left (Nat.pow_lt_pow_left (by omega) (by omega)) (by omega)
        _ ≤ (2 * g) ^ (2 * n) * (a + 1) ^ (2 * n) := Nat.mul_le_mul_right _ (Nat.le_self_pow (by omega) _)
    have h3 : (2 * g * (a : ℝ) ^ (2 * n)) < (2 * n).factorial := by exact_mod_cast h2.trans_le h1
    have h4 : ((a : ℝ) / b) ^ (2 * n) ≤ (a : ℝ) ^ (2 * n) := pow_le_pow_left₀ (by positivity) hq _
    have hf : (0 : ℝ) < (2 * n).factorial := by exact_mod_cast Nat.factorial_pos _
    rw [div_mul_eq_mul_div, div_lt_div_iff₀ hf hg']
    nlinarith

/-- An increment of the arctangent lies between its slopes at the two ends. -/
theorem arctan_step {s t : ℝ} (h0 : 0 ≤ s) (h : s ≤ t) :
    (t - s) / (1 + t ^ 2) ≤ Real.arctan t - Real.arctan s ∧ Real.arctan t - Real.arctan s ≤ (t - s) / (1 + s ^ 2) := by
  rcases h.eq_or_lt with rfl | hlt
  · simp
  obtain ⟨c, hc, he⟩ := exists_deriv_eq_slope Real.arctan hlt Real.continuous_arctan.continuousOn
    Real.differentiable_arctan.differentiableOn
  rw [Real.deriv_arctan] at he
  have hpos : 0 < t - s := by linarith
  have e : Real.arctan t - Real.arctan s = (t - s) / (1 + c ^ 2) := by
    rw [eq_div_iff hpos.ne'] at he
    rw [← he]
    ring
  have h1 : s ^ 2 ≤ c ^ 2 := pow_le_pow_left₀ h0 hc.1.le 2
  have h2 : c ^ 2 ≤ t ^ 2 := pow_le_pow_left₀ (h0.trans hc.1.le) hc.2.le 2
  rw [e]
  constructor
  · exact div_le_div_of_nonneg_left hpos.le (by positivity) (by linarith)
  · exact div_le_div_of_nonneg_left hpos.le (by positivity) (by linarith)

/-- The sum for the arctangent is above it, by less than one step. -/
theorem arctan_sum (h : ℝ) (hh : 0 ≤ h) (n : Nat) :
    Real.arctan (n * h) ≤ ∑ k ∈ Finset.range n, h / (1 + (k * h) ^ 2) ∧
      ∑ k ∈ Finset.range n, h / (1 + (k * h) ^ 2) ≤ Real.arctan (n * h) + (h - h / (1 + (n * h) ^ 2)) := by
  induction n with
  | zero => simp
  | succ n ih =>
    rw [Finset.sum_range_succ]
    have hs := arctan_step (s := n * h) (t := (n + 1) * h) (by positivity) (by nlinarith)
    rw [show ((n : ℝ) + 1) * h - n * h = h by ring] at hs
    push_cast
    constructor <;> linarith [ih.1, ih.2, hs.1, hs.2]

/-- With enough steps the sum is within `1 / g`. -/
theorem arctan_sum_bound {a b g : Nat} (hb : 0 < b) (hg : 0 < g) :
    |((Numerics.atanSum (mkRat a b) (g * a + 1) : ℚ) : ℝ) - Real.arctan ((a : ℝ) / b)| < 1 / g := by
  have hb' : (1 : ℝ) ≤ b := by exact_mod_cast hb
  have hg' : (0 : ℝ) < g := by exact_mod_cast hg
  have hq : (a : ℝ) / b ≤ a := div_le_self (by positivity) hb'
  set n := g * a + 1 with hn
  have hnr : (0 : ℝ) < n := by rw [hn]; positivity
  have hs := arctan_sum ((a : ℝ) / b / n) (by positivity) n
  rw [mul_div_cancel₀ _ hnr.ne'] at hs
  have e : ((Numerics.atanSum (mkRat a b) n : ℚ) : ℝ) =
      ∑ k ∈ Finset.range n, (a : ℝ) / b / n / (1 + (k * ((a : ℝ) / b / n)) ^ 2) := by
    rw [Numerics.atanSum, Rat.mkRat_eq_div]
    push_cast
    rfl
  have hsmall : (a : ℝ) / b / n < 1 / g := by
    rw [div_lt_div_iff₀ hnr hg', hn]
    push_cast
    nlinarith
  have hpos : 0 ≤ (a : ℝ) / b / n / (1 + ((a : ℝ) / b) ^ 2) := by positivity
  rw [e, abs_lt]
  constructor <;> linarith [hs.1, hs.2]


/-! ### Ties -/

theorem tieDen_pos : 0 < Numerics.tieDen := by unfold Numerics.tieDen; positivity

/-- A finite binary64 is a whole number of least significand units. -/
theorem F64.rat_scaled {f : F64} (hf : f.isFinite = true) : ∃ k : ℤ, f.rat = k / 2 ^ F64.leastExp := by
  cases f with
  | finite neg m e => exact ⟨signed neg m * 2 ^ e, by rw [F64.rat_finite]; push_cast; rfl⟩
  | infinite neg => simp [F64.isFinite] at hf
  | nan => simp [F64.isFinite] at hf

/-- Half the sum of two finite binary64 values is a quotient by `tieDen`. -/
theorem tie_form {f g : F64} (hf : f.isFinite = true) (hg : g.isFinite = true) :
    ∃ c : ℤ, ((f.rat : ℝ) + g.rat) / 2 = c / (Numerics.tieDen : ℝ) := by
  obtain ⟨k, hk⟩ := F64.rat_scaled hf
  obtain ⟨l, hl⟩ := F64.rat_scaled hg
  refine ⟨k + l, ?_⟩
  rw [hk, hl, Numerics.tieDen, pow_succ]
  push_cast
  field_simp

/-- A rational nearer to a number than any tie is rounds as the number does. -/
theorem rn_isRounding_of_near {v : ℝ} {q : ℚ} {g : Nat} (hq : |q| < 2 ^ 100) (hnear : |(q : ℝ) - v| < 1 / g)
    (hsep : ∀ c : ℤ, 1 / (g : ℝ) ≤ |v - c / Numerics.tieDen|) : F64.IsRounding v (F64.rn q) := by
  have hr := F64.rn_isRounding q (F64.rn_isFinite q hq)
  generalize F64.rn q = f at hr
  have key : ∀ h : F64, h.canonical = true → h.isFinite = true → h.rat ≠ f.rat →
      |(f.rat : ℝ) - v| < |(h.rat : ℝ) - v| := by
    intro h hc hf hne
    obtain ⟨c, hc'⟩ := tie_form hr.finite hf
    have h1 := hr.nearest h hc hf
    have h2 := hsep c
    rw [← hc'] at h2
    have hne' : (h.rat : ℝ) ≠ f.rat := by exact_mod_cast hne
    rw [← sq_le_sq] at h1
    rw [← sq_lt_sq]
    have h3 := hnear.trans_le h2
    generalize (h.rat : ℝ) = y at *
    generalize (f.rat : ℝ) = x at *
    generalize (q : ℝ) = t at *
    rcases lt_or_gt_of_ne hne' with hlt | hlt
    · have ht : (x + y) / 2 ≤ t := by nlinarith
      have hv : (x + y) / 2 < v := by
        by_contra hge
        push Not at hge
        rw [abs_of_nonneg (by linarith : 0 ≤ t - v), abs_of_nonpos (by linarith)] at h3
        linarith
      nlinarith
    · have ht : t ≤ (x + y) / 2 := by nlinarith
      have hv : v < (x + y) / 2 := by
        by_contra hge
        push Not at hge
        rw [abs_of_nonpos (by linarith : t - v ≤ 0), abs_of_nonneg (by linarith)] at h3
        linarith
      nlinarith
  refine ⟨hr.canonical, hr.finite, fun h hc hf => ?_, fun h hc hf heq hne => ?_⟩
  · by_cases he : h.rat = f.rat
    · rw [he]
    · exact (key h hc hf he).le
  · exact absurd heq (key h hc hf hne).ne

/-! ### The distance from every tie -/

theorem cosSeparation_spec {a b : Nat} (ha : 0 < a) (hb : 0 < b) (c : ℤ) :
    1 / (Numerics.cosSeparation a b : ℝ) ≤ |Real.cos ((a : ℝ) / b) - c / Numerics.tieDen| :=
  Niven.cos_separation ha hb tieDen_pos c

theorem separation_pos (a b d : Nat) (ha : 0 < a) (hb : 0 < b) (hd : 0 < d) : 0 < Numerics.separation a b d := by
  unfold Numerics.separation Numerics.seriesLength
  positivity

theorem sinSeparation_spec {a b : Nat} (ha : 0 < a) (hb : 0 < b) (c : ℤ) :
    1 / (Numerics.sinSeparation a b : ℝ) ≤ |Real.sin ((a : ℝ) / b) - c / Numerics.tieDen| := by
  have hD : (0 : ℝ) < Numerics.tieDen := by exact_mod_cast tieDen_pos
  have hg0 := separation_pos (2 * a) b (Numerics.tieDen ^ 2) (by omega) hb (pow_pos tieDen_pos 2)
  have h := Niven.cos_separation (a := 2 * a) (d := Numerics.tieDen ^ 2) (by omega) hb (pow_pos tieDen_pos 2)
    ((Numerics.tieDen : ℤ) ^ 2 - 2 * c ^ 2)
  have hs := Real.abs_sin_le_one ((a : ℝ) / b)
  have e1 : Real.cos (((2 * a : Nat) : ℝ) / b) = 1 - 2 * Real.sin ((a : ℝ) / b) ^ 2 := by
    have h2 := Real.cos_two_mul' ((a : ℝ) / b)
    have h3 := Real.sin_sq_add_cos_sq ((a : ℝ) / b)
    rw [show ((2 * a : Nat) : ℝ) / b = 2 * ((a : ℝ) / b) by push_cast; ring, h2]
    linarith
  have e2 : ((((Numerics.tieDen : ℤ) ^ 2 - 2 * c ^ 2 : ℤ) : ℝ)) / ((Numerics.tieDen ^ 2 : Nat) : ℝ) =
      1 - 2 * (c / Numerics.tieDen) ^ 2 := by
    push_cast
    field_simp
  rw [e1, e2] at h
  have e3 : (Numerics.sinSeparation a b : ℝ) = 6 * Numerics.separation (2 * a) b (Numerics.tieDen ^ 2) := by
    rw [Numerics.sinSeparation]
    push_cast
    rfl
  rw [e3]
  generalize Real.sin ((a : ℝ) / b) = s at *
  generalize (c : ℝ) / Numerics.tieDen = m at *
  have hg : (1 : ℝ) ≤ Numerics.separation (2 * a) b (Numerics.tieDen ^ 2) := by exact_mod_cast hg0
  generalize (Numerics.separation (2 * a) b (Numerics.tieDen ^ 2) : ℝ) = g at *
  rw [div_le_iff₀ (by linarith)] at h ⊢
  rcases le_or_gt (|m|) 2 with hm | hm
  · have h1 : |1 - 2 * s ^ 2 - (1 - 2 * m ^ 2)| = 2 * |s + m| * |s - m| := by
      rw [show 1 - 2 * s ^ 2 - (1 - 2 * m ^ 2) = -(2 * ((s + m) * (s - m))) by ring, abs_neg, abs_mul, abs_mul]
      norm_num
      ring
    rw [h1] at h
    have h2 : |s + m| ≤ 3 := (abs_add_le s m).trans (by linarith)
    have h3 := abs_nonneg (s - m)
    have h4 : 2 * |s + m| * |s - m| ≤ 6 * |s - m| := by nlinarith
    nlinarith
  · have h1 : 1 ≤ |s - m| := by
      have := abs_sub_abs_le_abs_sub m s
      rw [abs_sub_comm m s] at this
      linarith
    nlinarith

theorem separation_mono {a a' : Nat} (h : a ≤ a') (b d : Nat) (hb : 0 < b) :
    Numerics.separation a b d ≤ Numerics.separation a' b d := by
  unfold Numerics.separation Numerics.seriesLength
  have hl : 2 * (2 * d * (2 * a) ^ 4) ^ 2 + 2 ≤ 2 * (2 * d * (2 * a') ^ 4) ^ 2 + 2 := by gcongr
  simp only
  generalize 2 * (2 * d * (2 * a) ^ 4) ^ 2 + 2 = l at *
  generalize 2 * (2 * d * (2 * a') ^ 4) ^ 2 + 2 = l' at *
  refine Nat.mul_le_mul_left _ (Nat.mul_le_mul (by omega) (Nat.mul_le_mul (Nat.factorial_le (by omega))
    (Nat.mul_le_mul (Nat.pow_le_pow_right hb (by omega)) ?_)))
  calc (a ^ 2 + b ^ 2) ^ (2 * l) ≤ (a' ^ 2 + b ^ 2) ^ (2 * l) := by gcongr
    _ ≤ (a' ^ 2 + b ^ 2) ^ (2 * l') := Nat.pow_le_pow_right (by positivity) (by omega)

theorem cos_two_arctan (x : ℝ) : Real.cos (2 * Real.arctan x) = (1 - x ^ 2) / (1 + x ^ 2) := by
  rw [Real.cos_two_mul, Real.cos_sq_arctan]
  field_simp
  ring

theorem atanSeparation_spec {a b : Nat} (ha : 0 < a) (hb : 0 < b) (c : ℤ) :
    1 / (Numerics.atanSeparation a b : ℝ) ≤ |Real.arctan ((a : ℝ) / b) - c / Numerics.tieDen| := by
  have hD : (0 : ℝ) < Numerics.tieDen := by exact_mod_cast tieDen_pos
  have haR : (0 : ℝ) < a := by exact_mod_cast ha
  have hbR : (0 : ℝ) < b := by exact_mod_cast hb
  have hd0 : 0 < a ^ 2 + b ^ 2 := by positivity
  have hg0 := separation_pos (6 * Numerics.tieDen) Numerics.tieDen (a ^ 2 + b ^ 2)
    (by have := tieDen_pos; omega) tieDen_pos hd0
  have hg : (1 : ℝ) ≤ Numerics.separation (6 * Numerics.tieDen) Numerics.tieDen (a ^ 2 + b ^ 2) := by exact_mod_cast hg0
  have e3 : (Numerics.atanSeparation a b : ℝ) =
      2 * Numerics.separation (6 * Numerics.tieDen) Numerics.tieDen (a ^ 2 + b ^ 2) := by
    rw [Numerics.atanSeparation]
    push_cast
    rfl
  set v := Real.arctan ((a : ℝ) / b) with hv
  set m := (c : ℝ) / Numerics.tieDen with hm
  have hv1 : |v| < 2 := by
    rw [abs_lt]
    have h1 := Real.neg_pi_div_two_lt_arctan ((a : ℝ) / b)
    have h2 := Real.arctan_lt_pi_div_two ((a : ℝ) / b)
    have h3 := Real.pi_le_four
    constructor <;> linarith
  have hlip : |Real.cos (2 * m) - Real.cos (2 * v)| ≤ 2 * |v - m| := by
    have h1 := Real.abs_cos_sub_cos_le (2 * m) (2 * v)
    rw [← mul_sub, abs_mul, abs_two, abs_sub_comm m v] at h1
    exact h1
  have hcv : Real.cos (2 * v) = (((b : ℤ) ^ 2 - (a : ℤ) ^ 2 : ℤ) : ℝ) / ((a ^ 2 + b ^ 2 : Nat) : ℝ) := by
    rw [hv, cos_two_arctan]
    push_cast
    field_simp
    ring
  rw [e3]
  suffices h : 1 / (Numerics.separation (6 * Numerics.tieDen) Numerics.tieDen (a ^ 2 + b ^ 2) : ℝ) ≤ 2 * |v - m| by
    rw [div_le_iff₀ (by linarith)] at h ⊢
    linarith
  rcases le_or_gt (|m|) 3 with hm3 | hm3
  · rcases eq_or_ne c 0 with hc | hc
    · refine le_trans ?_ hlip
      have hm0 : m = 0 := by rw [hm, hc]; simp
      rw [hm0, mul_zero, Real.cos_zero, hcv]
      have e : (1 : ℝ) - (((b : ℤ) ^ 2 - (a : ℤ) ^ 2 : ℤ) : ℝ) / ((a ^ 2 + b ^ 2 : Nat) : ℝ) =
          2 * a ^ 2 / ((a ^ 2 + b ^ 2 : Nat) : ℝ) := by
        push_cast
        field_simp
        ring
      rw [e, abs_of_nonneg (by positivity)]
      have h1 : ((a ^ 2 + b ^ 2 : Nat) : ℝ) ≤ Numerics.separation (6 * Numerics.tieDen) Numerics.tieDen (a ^ 2 + b ^ 2) := by
        have h2 : a ^ 2 + b ^ 2 ≤ Numerics.separation (6 * Numerics.tieDen) Numerics.tieDen (a ^ 2 + b ^ 2) := by
          unfold Numerics.separation Numerics.seriesLength
          refine le_trans (by omega : a ^ 2 + b ^ 2 ≤ 2 * (a ^ 2 + b ^ 2)) (Nat.le_mul_of_pos_right _ ?_)
          have := tieDen_pos
          positivity
        exact_mod_cast h2
      have hdR : (0 : ℝ) < ((a ^ 2 + b ^ 2 : Nat) : ℝ) := by exact_mod_cast hd0
      have ha1 : (1 : ℝ) ≤ a := by exact_mod_cast ha
      have ha2 : (1 : ℝ) ≤ 2 * (a : ℝ) ^ 2 := by nlinarith
      rw [div_le_div_iff₀ (by linarith) hdR, one_mul]
      exact h1.trans (le_mul_of_one_le_left (by linarith) ha2)
    · have hcpos : 0 < 2 * c.natAbs := by have := Int.natAbs_pos.2 hc; omega
      have h1 := Niven.cos_separation hcpos tieDen_pos hd0 ((b : ℤ) ^ 2 - (a : ℤ) ^ 2)
      have e : Real.cos (((2 * c.natAbs : Nat) : ℝ) / (Numerics.tieDen : ℝ)) = Real.cos (2 * m) := by
        rw [← Real.cos_abs (2 * m), hm]
        congr 1
        rw [abs_mul, abs_div, abs_of_pos hD, abs_two]
        push_cast
        rw [Nat.cast_natAbs, Int.cast_abs]
        ring
      rw [e, ← hcv] at h1
      refine le_trans ?_ (h1.trans hlip)
      have hcle : 2 * c.natAbs ≤ 6 * Numerics.tieDen := by
        rw [hm, abs_div, abs_of_pos hD, div_le_iff₀ hD] at hm3
        have : ((c.natAbs : Nat) : ℝ) ≤ 3 * Numerics.tieDen := by
          rw [Nat.cast_natAbs, Int.cast_abs]
          exact hm3
        have : c.natAbs ≤ 3 * Numerics.tieDen := by exact_mod_cast this
        omega
      have hmono := separation_mono hcle Numerics.tieDen (a ^ 2 + b ^ 2) tieDen_pos
      have hpos := separation_pos (2 * c.natAbs) Numerics.tieDen (a ^ 2 + b ^ 2) hcpos tieDen_pos hd0
      exact one_div_le_one_div_of_le (by exact_mod_cast hpos) (by exact_mod_cast hmono)
  · have h1 : 1 ≤ |v - m| := by
      have := abs_sub_abs_le_abs_sub m v
      rw [abs_sub_comm m v] at this
      linarith
    rw [div_le_iff₀ (by linarith)]
    nlinarith


/-! ### The approximations round as the real values do -/

/-- A quotient of naturals as a rational and as a real. -/
theorem mkRat_real (a b : Nat) : ((mkRat a b : ℚ) : ℝ) = (a : ℝ) / b := by
  rw [Rat.mkRat_eq_div]
  push_cast
  rfl

/-- What is near a number of at most 2 is small. -/
theorem abs_rat_lt {q : ℚ} {v : ℝ} {g : Nat} (hg : 0 < g) (h : |(q : ℝ) - v| < 1 / g) (hv : |v| ≤ 2) : |q| < 2 ^ 100 := by
  have hg1 : (1 : ℝ) ≤ g := by exact_mod_cast hg
  have h1 : 1 / (g : ℝ) ≤ 1 := by rw [div_le_one (by linarith)]; exact hg1
  have h2 : |(q : ℝ)| ≤ |(q : ℝ) - v| + |v| := by
    have := abs_add_le ((q : ℝ) - v) v
    rwa [sub_add_cancel] at this
  have h3 : |(q : ℝ)| < 2 ^ 100 := by
    have : (3 : ℝ) < 2 ^ 100 := by norm_num
    linarith
  exact_mod_cast h3

theorem sinApprox_isRounding {a b : Nat} (ha : 0 < a) (hb : 0 < b) :
    F64.IsRounding (Real.sin ((a : ℝ) / b)) (F64.rn (Numerics.sinApprox a b)) := by
  have hg : 0 < Numerics.sinSeparation a b :=
    Nat.mul_pos (by norm_num) (separation_pos _ _ _ (by omega) hb (pow_pos tieDen_pos 2))
  have herr := series_error (a := a) hb hg
  have hnear : |((Numerics.sinApprox a b : ℚ) : ℝ) - Real.sin ((a : ℝ) / b)| < 1 / (Numerics.sinSeparation a b : ℝ) := by
    have h := (exp_mul_I_bound ((a : ℝ) / b) _ (by rw [abs_of_nonneg (by positivity)]; exact herr.1)).2
    rw [abs_of_nonneg (by positivity : (0 : ℝ) ≤ (a : ℝ) / b)] at h
    rw [abs_sub_comm]
    refine lt_of_le_of_lt (le_of_eq ?_) (h.trans_lt herr.2)
    rw [Numerics.sinApprox, Numerics.sinSeries]
    push_cast
    rw [mkRat_real]
  refine rn_isRounding_of_near (abs_rat_lt hg hnear ?_) hnear (sinSeparation_spec ha hb)
  linarith [Real.abs_sin_le_one ((a : ℝ) / b)]

theorem cosApprox_isRounding {a b : Nat} (ha : 0 < a) (hb : 0 < b) :
    F64.IsRounding (Real.cos ((a : ℝ) / b)) (F64.rn (Numerics.cosApprox a b)) := by
  have hg : 0 < Numerics.cosSeparation a b := separation_pos _ _ _ ha hb tieDen_pos
  have herr := series_error (a := a) hb hg
  have hnear : |((Numerics.cosApprox a b : ℚ) : ℝ) - Real.cos ((a : ℝ) / b)| < 1 / (Numerics.cosSeparation a b : ℝ) := by
    have h := (exp_mul_I_bound ((a : ℝ) / b) _ (by rw [abs_of_nonneg (by positivity)]; exact herr.1)).1
    rw [abs_of_nonneg (by positivity : (0 : ℝ) ≤ (a : ℝ) / b)] at h
    rw [abs_sub_comm]
    refine lt_of_le_of_lt (le_of_eq ?_) (h.trans_lt herr.2)
    rw [Numerics.cosApprox, Numerics.cosSeries]
    push_cast
    rw [mkRat_real]
  refine rn_isRounding_of_near (abs_rat_lt hg hnear ?_) hnear (cosSeparation_spec ha hb)
  linarith [Real.abs_cos_le_one ((a : ℝ) / b)]

theorem atanApprox_isRounding {a b : Nat} (ha : 0 < a) (hb : 0 < b) :
    F64.IsRounding (Real.arctan ((a : ℝ) / b)) (F64.rn (Numerics.atanApprox a b)) := by
  have hg : 0 < Numerics.atanSeparation a b :=
    Nat.mul_pos (by norm_num) (separation_pos _ _ _ (by have := tieDen_pos; omega) tieDen_pos (by positivity))
  have hnear := arctan_sum_bound (a := a) hb hg
  refine rn_isRounding_of_near (abs_rat_lt hg hnear ?_) hnear (atanSeparation_spec ha hb)
  rw [abs_le]
  have h1 := Real.neg_pi_div_two_lt_arctan ((a : ℝ) / b)
  have h2 := Real.arctan_lt_pi_div_two ((a : ℝ) / b)
  have h3 := Real.pi_le_four
  constructor <;> linarith

end Sys2Proof
end

