-- ==== Sys2Proof/Laws/Elementary.lean ====
section
/-! SUPPORT. The enclosures of Machine/Elementary.lean contain the real sine, cosine and arctangent, so that what a search
finds is the correctly rounded value, as is what stands in where it finds none (00_scope.md R14). -/

namespace Sys2Proof

/-- The real number `x` lies in the interval `a` at precision `p`. -/
def Ival.Has (p : Nat) (a : Ival) (x : ℝ) : Prop := (a.lo : ℝ) ≤ x * 2 ^ p ∧ x * 2 ^ p ≤ a.hi

/-! ### Division of integers, rounded down and up -/

theorem floorDiv_le (a : Int) {d : Nat} (hd : 0 < d) : ((a / (d : Int) : Int) : ℝ) ≤ a / d := by
  rw [le_div_iff₀ (by exact_mod_cast hd)]
  have := Int.ediv_mul_le a (b := (d : Int)) (by omega)
  exact_mod_cast this

theorem le_ceilDiv (a : Int) {d : Nat} (hd : 0 < d) : (a : ℝ) / d ≤ ((-(-a / (d : Int)) : Int) : ℝ) := by
  have := floorDiv_le (-a) hd
  push_cast at this ⊢
  linarith [neg_div (d : ℝ) (a : ℝ)]

theorem shiftFloor_le (p : Nat) (a : Int) : (shiftFloor p a : ℝ) ≤ a / 2 ^ p := by
  have := floorDiv_le a (d := 2 ^ p) (by positivity)
  simpa [shiftFloor] using this

theorem le_shiftCeil (p : Nat) (a : Int) : (a : ℝ) / 2 ^ p ≤ shiftCeil p a := by
  have := le_ceilDiv a (d := 2 ^ p) (by positivity)
  simpa [shiftCeil] using this

/-! ### The interval operations -/

theorem mul_between {c y d : ℝ} (h1 : c ≤ y) (h2 : y ≤ d) (a : ℝ) : min (a * c) (a * d) ≤ a * y ∧ a * y ≤ max (a * c) (a * d) := by
  rcases le_total 0 a with h | h
  · exact ⟨(min_le_left _ _).trans (mul_le_mul_of_nonneg_left h1 h), (mul_le_mul_of_nonneg_left h2 h).trans (le_max_right _ _)⟩
  · exact ⟨(min_le_right _ _).trans (mul_le_mul_of_nonpos_left h2 h), (mul_le_mul_of_nonpos_left h1 h).trans (le_max_left _ _)⟩

theorem Ival.mul_has {p : Nat} {a b : Ival} {x y : ℝ} (ha : a.Has p x) (hb : b.Has p y) : (Ival.mul p a b).Has p (x * y) := by
  have hl := mul_between hb.1 hb.2 (a.lo : ℝ)
  have hh := mul_between hb.1 hb.2 (a.hi : ℝ)
  have hx := mul_between ha.1 ha.2 (y * 2 ^ p)
  rw [mul_comm (y * 2 ^ p) (a.lo : ℝ), mul_comm (y * 2 ^ p) (a.hi : ℝ)] at hx
  have e : x * y * 2 ^ p = y * 2 ^ p * (x * 2 ^ p) / 2 ^ p := by field_simp
  constructor
  · refine (shiftFloor_le p _).trans ?_
    rw [e]
    refine div_le_div_of_nonneg_right ?_ (by positivity)
    push_cast
    exact (min_le_min hl.1 hh.1).trans hx.1
  · refine le_trans ?_ (le_shiftCeil p _)
    rw [e]
    refine div_le_div_of_nonneg_right ?_ (by positivity)
    push_cast
    exact hx.2.trans (max_le_max hl.2 hh.2)

theorem Ival.scale_has {p : Nat} {a : Ival} {x : ℝ} (ha : a.Has p x) (n : Nat) {d : Nat} (hd : 0 < d) :
    (a.scale n d).Has p (x * (n / d)) := by
  have hdr : (0 : ℝ) < d := by exact_mod_cast hd
  have e : x * (n / d) * 2 ^ p = x * 2 ^ p * n / d := by ring
  constructor
  · refine (floorDiv_le _ hd).trans ?_
    rw [e]
    refine div_le_div_of_nonneg_right ?_ hdr.le
    push_cast
    exact mul_le_mul_of_nonneg_right ha.1 (by positivity)
  · refine le_trans ?_ (le_ceilDiv _ hd)
    rw [e]
    refine div_le_div_of_nonneg_right ?_ hdr.le
    push_cast
    exact mul_le_mul_of_nonneg_right ha.2 (by positivity)

theorem Ival.one_has (p : Nat) : (Ival.one p).Has p 1 := by simp [Ival.Has, Ival.one]

theorem Ival.oneMinus_has {p : Nat} {a : Ival} {x : ℝ} (ha : a.Has p x) : (Ival.oneMinus p a).Has p (1 - x) := by
  obtain ⟨h1, h2⟩ := ha
  simp only [Ival.Has, Ival.oneMinus]
  push_cast
  constructor <;> linarith

theorem Ival.twice_has {p : Nat} {a : Ival} {x : ℝ} (ha : a.Has p x) : a.twice.Has p (2 * x) := by
  obtain ⟨h1, h2⟩ := ha
  simp only [Ival.Has, Ival.twice]
  push_cast
  constructor <;> linarith

theorem Ival.widen_has {p : Nat} {a : Ival} {x y : ℝ} (ha : a.Has p x) (h : |y - x| * 2 ^ p ≤ 1) : a.widen.Has p y := by
  obtain ⟨h1, h2⟩ := ha
  have hp : (0 : ℝ) < 2 ^ p := by positivity
  have h3 : |(y - x) * 2 ^ p| ≤ 1 := by rwa [abs_mul, abs_of_pos hp]
  rw [abs_le] at h3
  simp only [Ival.Has, Ival.widen]
  push_cast
  constructor <;> nlinarith [h3.1, h3.2]

theorem Ival.clamp_has {p : Nat} {a : Ival} {x : ℝ} (ha : a.Has p x) (h : |x| ≤ 1) : (a.clamp p).Has p x := by
  obtain ⟨h1, h2⟩ := ha
  have hp : (0 : ℝ) < 2 ^ p := by positivity
  rw [abs_le] at h
  simp only [Ival.Has, Ival.clamp]
  push_cast
  exact ⟨max_le (by nlinarith [h.1]) h1, le_min (by nlinarith [h.2]) h2⟩

theorem Ival.ofQuot_has (p n : Nat) {d : Nat} (hd : 0 < d) : (Ival.ofQuot p n d).Has p ((n : ℝ) / d) := by
  have hdr : (0 : ℝ) < d := by exact_mod_cast hd
  have e : (n : ℝ) / d * 2 ^ p = ((n * 2 ^ p : Nat) : ℝ) / d := by push_cast; ring
  simp only [Ival.Has, Ival.ofQuot, e]
  constructor
  · have := Nat.cast_div_le (α := ℝ) (m := n * 2 ^ p) (n := d)
    exact_mod_cast this
  · rw [div_le_iff₀ hdr]
    have := (Nat.lt_mul_div_succ (n * 2 ^ p) hd).le
    have h2 : n * 2 ^ p ≤ (n * 2 ^ p / d + 1) * d := by rwa [mul_comm _ d]
    exact_mod_cast h2

/-! ### The alternating series -/

/-- What `hornerIval` evaluates: the first `n` factors of the series in `z`, from coefficient `i` on. -/
noncomputable def hornerReal (z : ℝ) (coeff : Nat → Nat × Nat) : Nat → Nat → ℝ
  | 0, _ => 1
  | n + 1, i => 1 - z * hornerReal z coeff n (i + 1) * ((coeff i).1 / (coeff i).2)

theorem hornerIval_has {p : Nat} {z : Ival} {x : ℝ} (hz : z.Has p x) {coeff : Nat → Nat × Nat} (hc : ∀ i, 0 < (coeff i).2)
    (n i : Nat) : (hornerIval p z coeff n i).Has p (hornerReal x coeff n i) := by
  induction n generalizing i with
  | zero => exact Ival.one_has p
  | succ n ih => exact Ival.oneMinus_has (Ival.scale_has (Ival.mul_has hz (ih (i + 1))) _ (hc i))

/-- The factor of the term in `z^k` of the series from coefficient `i` on. -/
noncomputable def seriesCoeff (coeff : Nat → Nat × Nat) (i : Nat) : Nat → ℝ
  | 0 => 1
  | k + 1 => ((coeff i).1 / (coeff i).2 : ℝ) * seriesCoeff coeff (i + 1) k

theorem seriesCoeff_bounds {coeff : Nat → Nat × Nat} (hc : ∀ i, (coeff i).1 ≤ (coeff i).2 ∧ 0 < (coeff i).2) (i k : Nat) :
    0 ≤ seriesCoeff coeff i k ∧ seriesCoeff coeff i k ≤ 1 := by
  induction k generalizing i with
  | zero => simp [seriesCoeff]
  | succ k ih =>
    have h1 : (0 : ℝ) ≤ (coeff i).1 / (coeff i).2 := by positivity
    have h2 : ((coeff i).1 / (coeff i).2 : ℝ) ≤ 1 := by
      rw [div_le_one (by exact_mod_cast (hc i).2)]
      exact_mod_cast (hc i).1
    exact ⟨mul_nonneg h1 (ih _).1, mul_le_one₀ h2 (ih _).1 (ih _).2⟩

/-- The whole series from coefficient `i` on. -/
noncomputable def seriesSum (z : ℝ) (coeff : Nat → Nat × Nat) (i : Nat) : ℝ := ∑' k, (-z) ^ k * seriesCoeff coeff i k

theorem series_summable {z : ℝ} (h0 : 0 ≤ z) (h1 : z ≤ 1 / 2) {coeff : Nat → Nat × Nat}
    (hc : ∀ i, (coeff i).1 ≤ (coeff i).2 ∧ 0 < (coeff i).2) (i : Nat) :
    Summable (fun k => (-z) ^ k * seriesCoeff coeff i k) := by
  refine Summable.of_norm_bounded (g := fun k => (1 / 2 : ℝ) ^ k)
    (summable_geometric_of_lt_one (by norm_num) (by norm_num)) fun k => ?_
  have hb := seriesCoeff_bounds hc i k
  rw [norm_mul, norm_pow, norm_neg, Real.norm_of_nonneg h0, Real.norm_of_nonneg hb.1]
  calc z ^ k * seriesCoeff coeff i k ≤ z ^ k * 1 := mul_le_mul_of_nonneg_left hb.2 (pow_nonneg h0 k)
    _ ≤ (1 / 2) ^ k := by rw [mul_one]; exact pow_le_pow_left₀ h0 h1 k

theorem seriesSum_step {z : ℝ} (h0 : 0 ≤ z) (h1 : z ≤ 1 / 2) {coeff : Nat → Nat × Nat}
    (hc : ∀ i, (coeff i).1 ≤ (coeff i).2 ∧ 0 < (coeff i).2) (i : Nat) :
    seriesSum z coeff i = 1 - z * seriesSum z coeff (i + 1) * ((coeff i).1 / (coeff i).2) := by
  unfold seriesSum
  rw [(series_summable h0 h1 hc i).tsum_eq_zero_add]
  have e : ∀ k, (-z) ^ (k + 1) * seriesCoeff coeff i (k + 1) =
      (-z * ((coeff i).1 / (coeff i).2)) * ((-z) ^ k * seriesCoeff coeff (i + 1) k) := by
    intro k
    simp only [seriesCoeff, pow_succ]
    ring
  rw [tsum_congr e, tsum_mul_left]
  simp only [pow_zero, seriesCoeff]
  ring

theorem seriesSum_near_one {z : ℝ} (h0 : 0 ≤ z) (h1 : z ≤ 1 / 2) {coeff : Nat → Nat × Nat}
    (hc : ∀ i, (coeff i).1 ≤ (coeff i).2 ∧ 0 < (coeff i).2) (i : Nat) : |seriesSum z coeff i - 1| ≤ 1 := by
  have bound : ∀ j, |seriesSum z coeff j| ≤ 2 := by
    intro j
    have hs : Summable (fun k => (1 / 2 : ℝ) ^ k) := summable_geometric_of_lt_one (by norm_num) (by norm_num)
    have h := tsum_of_norm_bounded (f := fun k => (-z) ^ k * seriesCoeff coeff j k) hs.hasSum fun k => ?_
    · rw [tsum_geometric_two] at h
      exact h
    · have hb := seriesCoeff_bounds hc j k
      rw [norm_mul, norm_pow, norm_neg, Real.norm_of_nonneg h0, Real.norm_of_nonneg hb.1]
      calc z ^ k * seriesCoeff coeff j k ≤ z ^ k * 1 := mul_le_mul_of_nonneg_left hb.2 (pow_nonneg h0 k)
        _ ≤ (1 / 2) ^ k := by rw [mul_one]; exact pow_le_pow_left₀ h0 h1 k
  have hq0 : (0 : ℝ) ≤ (coeff i).1 / (coeff i).2 := by positivity
  have hq1 : ((coeff i).1 / (coeff i).2 : ℝ) ≤ 1 := by
    rw [div_le_one (by exact_mod_cast (hc i).2)]
    exact_mod_cast (hc i).1
  rw [seriesSum_step h0 h1 hc i, sub_sub_cancel_left, abs_neg, abs_mul, abs_mul, abs_of_nonneg h0, abs_of_nonneg hq0]
  calc z * |seriesSum z coeff (i + 1)| * ((coeff i).1 / (coeff i).2) ≤ z * |seriesSum z coeff (i + 1)| * 1 :=
        mul_le_mul_of_nonneg_left hq1 (mul_nonneg h0 (abs_nonneg _))
    _ ≤ 1 := by nlinarith [bound (i + 1), abs_nonneg (seriesSum z coeff (i + 1))]

/-- What is cut off after `n` factors is at most `z^n`. -/
theorem hornerReal_error {z : ℝ} (h0 : 0 ≤ z) (h1 : z ≤ 1 / 2) {coeff : Nat → Nat × Nat}
    (hc : ∀ i, (coeff i).1 ≤ (coeff i).2 ∧ 0 < (coeff i).2) (n i : Nat) :
    |seriesSum z coeff i - hornerReal z coeff n i| ≤ z ^ n := by
  induction n generalizing i with
  | zero => simpa [hornerReal] using seriesSum_near_one h0 h1 hc i
  | succ n ih =>
    have hq0 : (0 : ℝ) ≤ (coeff i).1 / (coeff i).2 := by positivity
    have hq1 : ((coeff i).1 / (coeff i).2 : ℝ) ≤ 1 := by
      rw [div_le_one (by exact_mod_cast (hc i).2)]
      exact_mod_cast (hc i).1
    have e : seriesSum z coeff i - hornerReal z coeff (n + 1) i =
        -(z * ((coeff i).1 / (coeff i).2) * (seriesSum z coeff (i + 1) - hornerReal z coeff n (i + 1))) := by
      rw [seriesSum_step h0 h1 hc i, hornerReal]
      ring
    rw [e, abs_neg, abs_mul, abs_of_nonneg (mul_nonneg h0 hq0), pow_succ, mul_comm (z ^ n) z]
    refine mul_le_mul ?_ (ih (i + 1)) (abs_nonneg _) h0
    nlinarith

/-! ### Sine and cosine -/

theorem sinCoeff_ok (i : Nat) : (sinCoeff i).1 ≤ (sinCoeff i).2 ∧ 0 < (sinCoeff i).2 := by
  simp only [sinCoeff]
  exact ⟨Nat.one_le_iff_ne_zero.2 (by positivity), by positivity⟩

theorem cosCoeff_ok (i : Nat) : (cosCoeff i).1 ≤ (cosCoeff i).2 ∧ 0 < (cosCoeff i).2 := by
  simp only [cosCoeff]
  exact ⟨Nat.one_le_iff_ne_zero.2 (by positivity), by positivity⟩

theorem atanCoeff_ok (i : Nat) : (atanCoeff i).1 ≤ (atanCoeff i).2 ∧ 0 < (atanCoeff i).2 := by
  simp only [atanCoeff]
  omega

theorem seriesCoeff_sin (i k : Nat) :
    seriesCoeff sinCoeff i k = (Nat.factorial (2 * i + 1) : ℝ) / Nat.factorial (2 * i + 1 + 2 * k) := by
  induction k generalizing i with
  | zero => simp [seriesCoeff, Nat.factorial_ne_zero]
  | succ k ih =>
    have e1 : 2 * (i + 1) + 1 + 2 * k = 2 * i + 1 + 2 * (k + 1) := by ring
    have e2 : Nat.factorial (2 * (i + 1) + 1) = (2 * i + 3) * ((2 * i + 2) * Nat.factorial (2 * i + 1)) := by
      rw [show 2 * (i + 1) + 1 = 2 * i + 1 + 1 + 1 by ring, Nat.factorial_succ, Nat.factorial_succ]
    rw [seriesCoeff, ih, e1, e2, sinCoeff]
    push_cast
    have h : (Nat.factorial (2 * i + 1 + 2 * (k + 1)) : ℝ) ≠ 0 := by exact_mod_cast Nat.factorial_ne_zero _
    field_simp

theorem seriesCoeff_cos (i k : Nat) :
    seriesCoeff cosCoeff i k = (Nat.factorial (2 * i) : ℝ) / Nat.factorial (2 * i + 2 * k) := by
  induction k generalizing i with
  | zero => simp [seriesCoeff, Nat.factorial_ne_zero]
  | succ k ih =>
    have e1 : 2 * (i + 1) + 2 * k = 2 * i + 2 * (k + 1) := by ring
    have e2 : Nat.factorial (2 * (i + 1)) = (2 * i + 2) * ((2 * i + 1) * Nat.factorial (2 * i)) := by
      rw [show 2 * (i + 1) = 2 * i + 1 + 1 by ring, Nat.factorial_succ, Nat.factorial_succ]
    rw [seriesCoeff, ih, e1, e2, cosCoeff]
    push_cast
    have h : (Nat.factorial (2 * i + 2 * (k + 1)) : ℝ) ≠ 0 := by exact_mod_cast Nat.factorial_ne_zero _
    field_simp

theorem seriesCoeff_atan (i k : Nat) :
    seriesCoeff atanCoeff i k = (2 * i + 1 : ℝ) / (2 * i + 1 + 2 * k) := by
  induction k generalizing i with
  | zero =>
    have h : (2 * i + 1 : ℝ) ≠ 0 := by positivity
    simp [seriesCoeff, h]
  | succ k ih =>
    rw [seriesCoeff, ih, atanCoeff]
    push_cast
    have h : (2 * (i + 1) + 1 : ℝ) ≠ 0 := by positivity
    field_simp
    ring

theorem sin_eq_series (y : ℝ) : Real.sin y = y * seriesSum (y * y) sinCoeff 0 := by
  rw [seriesSum, ← tsum_mul_left, ← (Real.hasSum_sin y).tsum_eq]
  refine tsum_congr fun k => ?_
  have e : (-(y * y)) ^ k = (-1) ^ k * y ^ (2 * k) := by rw [neg_pow, ← pow_two, ← pow_mul]
  rw [seriesCoeff_sin, e, pow_succ]
  simp only [mul_zero, zero_add, Nat.factorial_one, Nat.cast_one, add_comm 1 (2 * k)]
  ring

theorem cos_eq_series (y : ℝ) : Real.cos y = seriesSum (y * y) cosCoeff 0 := by
  rw [seriesSum, ← (Real.hasSum_cos y).tsum_eq]
  refine tsum_congr fun k => ?_
  have e : (-(y * y)) ^ k = (-1) ^ k * y ^ (2 * k) := by rw [neg_pow, ← pow_two, ← pow_mul]
  rw [seriesCoeff_cos, e]
  simp only [mul_zero, zero_add, Nat.factorial_zero, Nat.cast_one]
  ring

theorem arctan_eq_series {y : ℝ} (h : |y| < 1) : Real.arctan y = y * seriesSum (y * y) atanCoeff 0 := by
  rw [seriesSum, ← tsum_mul_left, ← (Real.hasSum_arctan (by rwa [Real.norm_eq_abs])).tsum_eq]
  refine tsum_congr fun k => ?_
  have e : (-(y * y)) ^ k = (-1) ^ k * y ^ (2 * k) := by rw [neg_pow, ← pow_two, ← pow_mul]
  rw [seriesCoeff_atan, e, pow_succ]
  push_cast
  simp only [mul_zero, zero_add, add_comm 1 (2 * (k : ℝ))]
  ring

/-- With `p / 8` factors the part cut off is below `1 / 2^p`, `p` being a multiple of 8 and `y` at most 1/16. -/
theorem cutoff_small {p : Nat} (hp : 8 ∣ p) {y e f : ℝ} (hy : |y| ≤ 1 / 16) (h : |e| ≤ (y * y) ^ (p / 8)) (hf : |f| ≤ 1) :
    |f * e| * 2 ^ p ≤ 1 := by
  obtain ⟨k, rfl⟩ := hp
  rw [Nat.mul_div_cancel_left k (by norm_num)] at h
  have hz : y * y ≤ 1 / 2 ^ 8 := by
    rw [← abs_mul_abs_self y]
    nlinarith [abs_nonneg y]
  have h1 : (y * y) ^ k ≤ (1 / 2 ^ 8) ^ k := pow_le_pow_left₀ (mul_self_nonneg y) hz k
  have h2 : |f * e| ≤ (1 / 2 ^ 8) ^ k := by
    rw [abs_mul]
    calc |f| * |e| ≤ 1 * |e| := mul_le_mul_of_nonneg_right hf (abs_nonneg e)
      _ ≤ _ := by rw [one_mul]; exact h.trans h1
  calc |f * e| * 2 ^ (8 * k) ≤ (1 / 2 ^ 8) ^ k * 2 ^ (8 * k) := mul_le_mul_of_nonneg_right h2 (by positivity)
    _ = 1 := by rw [pow_mul, ← mul_pow]; norm_num

theorem sq_le_half {y : ℝ} (hy : |y| ≤ 1 / 16) : y * y ≤ 1 / 2 := by
  rw [← abs_mul_abs_self y]
  nlinarith [abs_nonneg y]

/-- A power series at a small `x`, times the factor `f` that stands before it: the enclosure of its first `p / 8` factors,
widened by what is cut off, contains it. -/
theorem series_has {p : Nat} (hp : 8 ∣ p) {y : Ival} {x f v : ℝ} (hy : y.Has p x) (hx : |x| ≤ 1 / 16) (hf : |f| ≤ 1)
    {coeff : Nat → Nat × Nat} (hc : ∀ i, (coeff i).1 ≤ (coeff i).2 ∧ 0 < (coeff i).2)
    (hv : v = f * seriesSum (x * x) coeff 0) {a : Ival}
    (ha : (hornerIval p (Ival.mul p y y) coeff (p / 8) 0).Has p (hornerReal (x * x) coeff (p / 8) 0) →
      a.Has p (f * hornerReal (x * x) coeff (p / 8) 0)) : a.widen.Has p v := by
  have hz := Ival.mul_has hy hy
  have hb := hornerIval_has hz (fun i => (hc i).2) (p / 8) 0
  refine Ival.widen_has (ha hb) ?_
  rw [hv, ← mul_sub]
  exact cutoff_small hp hx (hornerReal_error (mul_self_nonneg x) (sq_le_half hx) hc (p / 8) 0) hf

theorem sinCosSmall_has {p : Nat} (hp : 8 ∣ p) {y : Ival} {x : ℝ} (hy : y.Has p x) (hx : |x| ≤ 1 / 16) :
    (sinCosSmall p y).1.Has p (Real.sin x) ∧ (sinCosSmall p y).2.Has p (Real.cos x) := by
  constructor
  · refine series_has hp hy hx (f := x) (by linarith) sinCoeff_ok (sin_eq_series x) ?_
    exact fun hb => Ival.mul_has hy hb
  · refine series_has hp hy hx (f := 1) (by simp) cosCoeff_ok (by rw [one_mul, cos_eq_series]) ?_
    exact fun hb => by rwa [one_mul]

theorem doubleAngle_has {p : Nat} {sc : Ival × Ival} {x : ℝ} (hs : sc.1.Has p (Real.sin x)) (hc : sc.2.Has p (Real.cos x)) :
    (doubleAngle p sc).1.Has p (Real.sin (2 * x)) ∧ (doubleAngle p sc).2.Has p (Real.cos (2 * x)) := by
  constructor
  · refine Ival.clamp_has ?_ (Real.abs_sin_le_one _)
    rw [Real.sin_two_mul, mul_assoc]
    exact Ival.twice_has (Ival.mul_has hs hc)
  · refine Ival.clamp_has ?_ (Real.abs_cos_le_one _)
    rw [Real.cos_two_mul', Real.cos_sq', pow_two, show 1 - Real.sin x * Real.sin x - Real.sin x * Real.sin x =
      1 - 2 * (Real.sin x * Real.sin x) by ring]
    exact Ival.oneMinus_has (Ival.twice_has (Ival.mul_has hs hs))

theorem doubleAngle_times_has {p : Nat} (k : Nat) {sc : Ival × Ival} {x : ℝ} (hs : sc.1.Has p (Real.sin x))
    (hc : sc.2.Has p (Real.cos x)) :
    (applyTimes (doubleAngle p) k sc).1.Has p (Real.sin (2 ^ k * x)) ∧
      (applyTimes (doubleAngle p) k sc).2.Has p (Real.cos (2 ^ k * x)) := by
  induction k generalizing sc x with
  | zero => simpa [applyTimes] using ⟨hs, hc⟩
  | succ k ih =>
    have h := doubleAngle_has hs hc
    rw [pow_succ, mul_assoc]
    exact ih h.1 h.2

/-- The halved angle is at most 1/16. -/
theorem halvings_small (n : Nat) {d : Nat} (hd : 0 < d) : (n : ℝ) / (d * 2 ^ halvings n d : Nat) ≤ 1 / 16 := by
  have hdr : (0 : ℝ) < d := by exact_mod_cast hd
  have h1 : n / d < 2 ^ ((n / d).log2 + 1) := Nat.lt_log2_self
  have h2 : n < 2 ^ ((n / d).log2 + 1) * d := (Nat.div_lt_iff_lt_mul hd).1 h1
  have h3 : (n : ℝ) ≤ 2 ^ ((n / d).log2 + 1) * d := by exact_mod_cast h2.le
  push_cast
  rw [div_le_iff₀ (by positivity), halvings, pow_add]
  rw [pow_add] at h3
  linarith

/-- The enclosures of `sinCosIval` contain the sine and the cosine. -/
theorem sinCosIval_has {p : Nat} (hp : 8 ∣ p) (n : Nat) {d : Nat} (hd : 0 < d) :
    (sinCosIval p n d).1.Has p (Real.sin ((n : ℝ) / d)) ∧ (sinCosIval p n d).2.Has p (Real.cos ((n : ℝ) / d)) := by
  have hdr : (0 : ℝ) < d := by exact_mod_cast hd
  have hq := Ival.ofQuot_has p n (d := d * 2 ^ halvings n d) (by positivity)
  have hs := sinCosSmall_has hp hq (by rw [abs_of_nonneg (by positivity)]; exact halvings_small n hd)
  have h := doubleAngle_times_has (halvings n d) hs.1 hs.2
  have e : (2 : ℝ) ^ halvings n d * ((n : ℝ) / (d * 2 ^ halvings n d : Nat)) = n / d := by
    push_cast
    field_simp
  rwa [e] at h

/-! ### Arctangent -/

theorem le_sqrtUp_sq (n : Nat) : n ≤ sqrtUp n * sqrtUp n := by
  unfold sqrtUp
  simp only
  split_ifs with h
  · exact h
  · nlinarith

theorem sqrtDown_sq_le (n : Nat) : sqrtDown n * sqrtDown n ≤ n := by
  have h := le_sqrtUp_sq n
  unfold sqrtDown
  generalize sqrtUp n = u at h
  have h1 : n / u ≤ u := by
    rcases Nat.eq_zero_or_pos u with rfl | hu
    · simp
    · exact Nat.div_le_of_le_mul h
  calc n / u * (n / u) ≤ n / u * u := Nat.mul_le_mul_left _ h1
    _ ≤ n := Nat.div_mul_le_self n u

theorem sqrt_le_sqrtUp (n : Nat) : Real.sqrt n ≤ sqrtUp n := by
  rw [Real.sqrt_le_left (by positivity), pow_two]
  exact_mod_cast le_sqrtUp_sq n

theorem sqrtDown_le_sqrt (n : Nat) : (sqrtDown n : ℝ) ≤ Real.sqrt n := by
  refine Real.le_sqrt_of_sq_le ?_
  rw [pow_two]
  exact_mod_cast sqrtDown_sq_le n

/-- The tangent of half an angle, of the angle's tangent. -/
noncomputable def halfTan (t : ℝ) : ℝ := t / (1 + Real.sqrt (1 + t * t))

theorem halfTan_nonneg {t : ℝ} (h : 0 ≤ t) : 0 ≤ halfTan t := div_nonneg h (by positivity)

theorem halfTan_le_half {t : ℝ} (h : 0 ≤ t) : halfTan t ≤ t / 2 := by
  refine div_le_div_of_nonneg_left h (by norm_num) ?_
  have : (1 : ℝ) ≤ Real.sqrt (1 + t * t) := Real.one_le_sqrt.2 (by nlinarith)
  linarith

theorem halfTan_lt_one (t : ℝ) : halfTan t < 1 := by
  rw [halfTan, div_lt_one (by positivity)]
  have : |t| ≤ Real.sqrt (1 + t * t) := Real.abs_le_sqrt (by nlinarith)
  linarith [le_abs_self t]

theorem arctan_halfTan {t : ℝ} (h : 0 ≤ t) : 2 * Real.arctan (halfTan t) = Real.arctan t := by
  have h0 := halfTan_nonneg h
  have h1 := halfTan_lt_one t
  rw [Real.two_mul_arctan (by linarith) h1]
  congr 1
  have hs : Real.sqrt (1 + t * t) * Real.sqrt (1 + t * t) = 1 + t * t := Real.mul_self_sqrt (by nlinarith)
  have hs0 : 0 ≤ Real.sqrt (1 + t * t) := Real.sqrt_nonneg _
  rw [div_eq_iff (by nlinarith)]
  unfold halfTan
  generalize Real.sqrt (1 + t * t) = u at *
  have hu : 1 + u ≠ 0 := by positivity
  field_simp
  nlinarith

theorem halfTan_mono {a b : ℝ} (ha : 0 ≤ a) (h : a ≤ b) : halfTan a ≤ halfTan b := by
  have e1 := arctan_halfTan ha
  have e2 := arctan_halfTan (ha.trans h)
  have := Real.arctan_mono h
  exact Real.arctan_strictMono.le_iff_le.1 (by linarith)

/-- The two bounds of a tangent, as an interval. -/
def boundsIval (t : Nat × Nat) : Ival := ⟨t.1, t.2⟩

/-- `halfTan` of a quotient by a power of two. -/
theorem halfTan_scaled (p l : Nat) :
    halfTan ((l : ℝ) / 2 ^ p) * 2 ^ p = (l * 2 ^ p : Nat) / (2 ^ p + Real.sqrt ((2 ^ (2 * p) + l * l : Nat) : ℝ)) := by
  have hp : (0 : ℝ) < 2 ^ p := by positivity
  have e : Real.sqrt ((2 ^ (2 * p) + l * l : Nat) : ℝ) = 2 ^ p * Real.sqrt (1 + (l : ℝ) / 2 ^ p * ((l : ℝ) / 2 ^ p)) := by
    have e1 : ((2 ^ (2 * p) + l * l : Nat) : ℝ) = (2 ^ p) ^ 2 * (1 + (l : ℝ) / 2 ^ p * ((l : ℝ) / 2 ^ p)) := by
      push_cast
      rw [pow_mul']
      field_simp
    rw [e1, Real.sqrt_mul (by positivity), Real.sqrt_sq hp.le]
  rw [e, halfTan]
  have hs : (0 : ℝ) < 1 + Real.sqrt (1 + (l : ℝ) / 2 ^ p * ((l : ℝ) / 2 ^ p)) := by positivity
  push_cast
  field_simp

theorem halfTangent_has {p : Nat} {t : Nat × Nat} {x : ℝ} (hx : 0 ≤ x) (ht : (boundsIval t).Has p x) :
    (boundsIval (halfTangent p t)).Has p (halfTan x) := by
  have hp : (0 : ℝ) < 2 ^ p := by positivity
  obtain ⟨h1, h2⟩ := ht
  simp only [boundsIval] at h1 h2
  have hl : (t.1 : ℝ) / 2 ^ p ≤ x := by rw [div_le_iff₀ hp]; exact_mod_cast h1
  have hh : x ≤ (t.2 : ℝ) / 2 ^ p := by rw [le_div_iff₀ hp]; exact_mod_cast h2
  constructor
  · refine le_trans ?_ (mul_le_mul_of_nonneg_right (halfTan_mono (by positivity) hl) hp.le)
    rw [halfTan_scaled]
    simp only [boundsIval, halfTangent, Int.cast_natCast]
    refine Nat.cast_div_le.trans ?_
    refine div_le_div_of_nonneg_left (by positivity) (by positivity) ?_
    push_cast
    have := sqrt_le_sqrtUp (2 ^ (2 * p) + t.1 * t.1)
    push_cast at this
    linarith
  · refine le_trans (mul_le_mul_of_nonneg_right (halfTan_mono hx hh) hp.le) ?_
    rw [halfTan_scaled]
    simp only [boundsIval, halfTangent, Int.cast_natCast]
    have hd : 0 < 2 ^ p + sqrtDown (2 ^ (2 * p) + t.2 * t.2) := by positivity
    have h3 := (Nat.lt_mul_div_succ (t.2 * 2 ^ p) hd).le
    have h4 : ((t.2 * 2 ^ p : Nat) : ℝ) / (2 ^ p + sqrtDown (2 ^ (2 * p) + t.2 * t.2) : Nat) ≤
        (t.2 * 2 ^ p / (2 ^ p + sqrtDown (2 ^ (2 * p) + t.2 * t.2)) + 1 : Nat) := by
      rw [div_le_iff₀ (by exact_mod_cast hd)]
      rw [mul_comm (2 ^ p + _)] at h3
      exact_mod_cast h3
    refine le_trans ?_ h4
    refine div_le_div_of_nonneg_left (by positivity) (by exact_mod_cast hd) ?_
    push_cast
    have := sqrtDown_le_sqrt (2 ^ (2 * p) + t.2 * t.2)
    push_cast at this
    linarith

theorem halfTangent_times_has {p : Nat} (k : Nat) {t : Nat × Nat} {x : ℝ} (hx : 0 ≤ x) (ht : (boundsIval t).Has p x) :
    ∃ y, 0 ≤ y ∧ (boundsIval (applyTimes (halfTangent p) k t)).Has p y ∧ Real.arctan y * 2 ^ k = Real.arctan x ∧
      y * 2 ^ k ≤ x := by
  induction k generalizing t x with
  | zero => exact ⟨x, hx, ht, by simp, by simp⟩
  | succ k ih =>
    obtain ⟨y, hy, hby, hay, hky⟩ := ih (halfTan_nonneg hx) (halfTangent_has hx ht)
    refine ⟨y, hy, hby, ?_, ?_⟩
    · rw [pow_succ, ← mul_assoc, hay, mul_comm, arctan_halfTan hx]
    · have := halfTan_le_half hx
      rw [pow_succ, ← mul_assoc]
      linarith

/-- The enclosure of `atanIval` contains the arctangent. -/
theorem atanIval_has {p : Nat} (hp : 8 ∣ p) (n : Nat) {d : Nat} (hd : 0 < d) :
    (atanIval p n d).Has p (Real.arctan ((n : ℝ) / d)) := by
  have hq : (boundsIval (n * 2 ^ p / d, n * 2 ^ p / d + 1)).Has p ((n : ℝ) / d) := Ival.ofQuot_has p n hd
  have h0 : (0 : ℝ) ≤ (n : ℝ) / d := by positivity
  obtain ⟨y, hy, hby, hay, hky⟩ := halfTangent_times_has 4 (halfTan_nonneg h0) (halfTangent_has h0 hq)
  have hsmall : |y| ≤ 1 / 16 := by
    rw [abs_of_nonneg hy]
    linarith [halfTan_lt_one ((n : ℝ) / d)]
  have e : Real.arctan ((n : ℝ) / d) = Real.arctan y * ((32 : Nat) / (1 : Nat)) := by
    rw [← arctan_halfTan h0, ← hay]
    push_cast
    ring
  rw [e]
  refine Ival.scale_has (series_has hp hby hsmall (f := y) (by linarith) atanCoeff_ok
    (arctan_eq_series (by linarith)) ?_) 32 (by norm_num)
  exact fun hb => Ival.mul_has hby hb

/-! ### The search -/

/-- Where both ends of an enclosure of `x` round to one binary64, that is the rounding of `x`. -/
theorem decided_isRounding {p : Nat} {v : Ival} {x : ℝ} (hv : v.Has p x) (hx : |x| ≤ 2)
    (h : Numerics.candidate p v.lo = Numerics.candidate p v.hi) : F64.IsRounding x (Numerics.candidate p v.lo) := by
  have hp : (0 : ℝ) < 2 ^ p := by positivity
  have cast : ∀ a : Int, ((mkRat a (2 ^ p) : ℚ) : ℝ) = (a : ℝ) / 2 ^ p := by
    intro a
    rw [Rat.mkRat_eq_div]
    push_cast
    rfl
  have h1 : ((mkRat v.lo (2 ^ p) : ℚ) : ℝ) ≤ x := by rw [cast, div_le_iff₀ hp]; exact hv.1
  have h2 : x ≤ ((mkRat v.hi (2 ^ p) : ℚ) : ℝ) := by rw [cast, le_div_iff₀ hp]; exact hv.2
  rw [abs_le] at hx
  have hf : (Numerics.candidate p v.lo).isFinite = true := by
    by_contra hinf
    have hlo : ¬ |mkRat v.lo (2 ^ p)| < 2 ^ 100 := fun hlt => hinf (F64.rn_isFinite _ hlt)
    have hhi : ¬ |mkRat v.hi (2 ^ p)| < 2 ^ 100 := fun hlt => hinf (h ▸ F64.rn_isFinite _ hlt)
    have h3 : mkRat v.lo (2 ^ p) ≤ 2 := by exact_mod_cast h1.trans hx.2
    have h4 : -2 ≤ mkRat v.hi (2 ^ p) := by exact_mod_cast hx.1.trans h2
    have h5 : mkRat v.lo (2 ^ p) < 0 := by
      by_contra hc
      push Not at hc
      rw [abs_of_nonneg hc] at hlo
      exact hlo (h3.trans_lt (by norm_num))
    have h6 : 0 ≤ mkRat v.hi (2 ^ p) := by
      by_contra hc
      push Not at hc
      rw [abs_of_neg hc] at hhi
      exact hhi ((by linarith : -mkRat v.hi (2 ^ p) ≤ 2).trans_lt (by norm_num))
    have h7 := congrArg F64.isNeg h
    rw [Numerics.candidate, Numerics.candidate, F64.rn_isNeg, F64.rn_isNeg, decide_eq_true (Rat.num_neg.2 h5),
      decide_eq_false (not_lt.2 (Rat.num_nonneg.2 h6))] at h7
    cases h7
  have hl := F64.rn_isRounding (mkRat v.lo (2 ^ p)) hf
  have hh := F64.rn_isRounding (mkRat v.hi (2 ^ p)) (show (Numerics.candidate p v.hi).isFinite = true from h ▸ hf)
  exact hl.between (show F64.IsRounding _ (Numerics.candidate p v.lo) from h ▸ hh) h1 h2

/-- What a search finds among enclosures of `x` is the rounding of `x`. -/
theorem search_isRounding {enclose : Nat → Ival} {x : ℝ} (hx : |x| ≤ 2) {ps : List Nat}
    (hps : ∀ p ∈ ps, (enclose p).Has p x) {f : F64} (h : Numerics.search enclose ps = some f) : F64.IsRounding x f := by
  induction ps with
  | nil => cases h
  | cons p ps ih =>
    simp only [Numerics.search] at h
    split_ifs at h with hp
    · cases h
      exact decided_isRounding (hps p (by simp)) hx hp
    · exact ih (fun q hq => hps q (List.mem_cons_of_mem _ hq)) h

/-- The precisions tried are multiples of 8. -/
theorem precisions_dvd {p : Nat} (h : p ∈ Numerics.precisions) : 8 ∣ p := by
  simp only [Numerics.precisions, List.mem_cons, List.not_mem_nil, or_false] at h
  omega

/-- What `settle` answers is a rounding of `x` if what was found is one and the approximation's rounding is one. -/
theorem settle_isRounding {x : ℝ} {found : Option F64} {approx : Unit → ℚ} (h1 : ∀ f, found = some f → F64.IsRounding x f)
    (h2 : F64.IsRounding x (F64.rn (approx ()))) : F64.IsRounding x (Numerics.settle found approx) := by
  cases found with
  | none => exact h2
  | some f => exact h1 f rfl

/-! ### The functions on positive numbers -/

/-- `sinPos` is the correctly rounded sine. -/
theorem sinPos_isRounding {a b : Nat} (ha : 0 < a) (hb : 0 < b) :
    F64.IsRounding (Real.sin ((a : ℝ) / b)) (Numerics.sinPos a b) :=
  settle_isRounding (fun _ h => search_isRounding (by linarith [Real.abs_sin_le_one ((a : ℝ) / b)])
    (fun _ hp => (sinCosIval_has (precisions_dvd hp) a hb).1) h) (sinApprox_isRounding ha hb)

/-- `cosPos` is the correctly rounded cosine. -/
theorem cosPos_isRounding {a b : Nat} (ha : 0 < a) (hb : 0 < b) :
    F64.IsRounding (Real.cos ((a : ℝ) / b)) (Numerics.cosPos a b) :=
  settle_isRounding (fun _ h => search_isRounding (by linarith [Real.abs_cos_le_one ((a : ℝ) / b)])
    (fun _ hp => (sinCosIval_has (precisions_dvd hp) a hb).2) h) (cosApprox_isRounding ha hb)

/-- An arctangent is below 2 in size. -/
theorem abs_arctan_le_two (x : ℝ) : |Real.arctan x| ≤ 2 := by
  rw [abs_le]
  have h1 := Real.neg_pi_div_two_lt_arctan x
  have h2 := Real.arctan_lt_pi_div_two x
  have h3 := Real.pi_le_four
  constructor <;> linarith

/-- `atanPos` is the correctly rounded arctangent. -/
theorem atanPos_isRounding {a b : Nat} (ha : 0 < a) (hb : 0 < b) :
    F64.IsRounding (Real.arctan ((a : ℝ) / b)) (Numerics.atanPos a b) :=
  settle_isRounding (fun _ h => search_isRounding (abs_arctan_le_two _)
    (fun _ hp => atanIval_has (precisions_dvd hp) a hb) h) (atanApprox_isRounding ha hb)

/-- The quotient that the enclosures take is the absolute value of the operand. -/
theorem natAbs_div_den (r : ℚ) : (r.num.natAbs : ℝ) / r.den = |(r : ℝ)| := by
  conv_rhs => rw [← Rat.num_div_den r]
  have h : (0 : ℝ) < r.den := by exact_mod_cast r.den_pos
  push_cast
  rw [abs_div, abs_of_pos h, Nat.cast_natAbs, Int.cast_abs]

/-- The sign of a finite binary64 that is not zero. -/
theorem F64.isNeg_eq {x : F64} (hf : x.isFinite = true) (h : x.rat ≠ 0) : x.isNeg = decide (x.rat < 0) := by
  cases x with
  | finite neg m e =>
    rw [F64.rat_finite] at h ⊢
    have hm : (0 : ℚ) < m := by
      rcases Nat.eq_zero_or_pos m with rfl | hp
      · exact absurd (by cases neg <;> simp) h
      · exact_mod_cast hp
    have hpos : (0 : ℚ) < m * 2 ^ e / 2 ^ F64.leastExp := by positivity
    refine Bool.eq_iff_iff.2 ⟨fun hn => decide_eq_true ?_, fun hn => ?_⟩
    · have : neg = true := hn
      subst this
      simp only [signed_true]
      push_cast
      rw [neg_mul, neg_div]
      linarith
    · have hlt := of_decide_eq_true hn
      cases neg
      · simp only [signed_false] at hlt
        push_cast at hlt
        linarith
      · rfl
  | infinite neg => simp [F64.isFinite] at hf
  | nan => simp [F64.isFinite] at hf

/-! ### The functions on every finite operand: cite these, for unfolding further makes Lean evaluate the approximations -/

@[simp] theorem F64.withSign_false (f : F64) : F64.withSign false f = f := rfl
@[simp] theorem F64.withSign_true (f : F64) : F64.withSign true f = f.neg := rfl

theorem num_sin (x : F64) : Config.num.sin x = Numerics.sinRn x := rfl
theorem num_cos (x : F64) : Config.num.cos x = Numerics.cosRn x := rfl
theorem num_atan (x : F64) : Config.num.atan x = Numerics.atanRn x := rfl

theorem sinRn_of_zero {x : F64} (hf : x.isFinite = true) (h : x.rat = 0) : Numerics.sinRn x = F64.zero false := by
  unfold Numerics.sinRn
  rw [hf, if_neg (by decide), if_pos h]

theorem sinRn_of_ne_zero {x : F64} (hf : x.isFinite = true) (h : x.rat ≠ 0) :
    Numerics.sinRn x = F64.withSign (decide (x.rat < 0)) (Numerics.sinPos x.rat.num.natAbs x.rat.den) := by
  unfold Numerics.sinRn
  rw [hf, if_neg (by decide), if_neg h, F64.isNeg_eq hf h]

theorem cosRn_of_zero {x : F64} (hf : x.isFinite = true) (h : x.rat = 0) : Numerics.cosRn x = F64.ofNat 1 := by
  unfold Numerics.cosRn
  rw [hf, if_neg (by decide), if_pos h]

theorem cosRn_of_ne_zero {x : F64} (hf : x.isFinite = true) (h : x.rat ≠ 0) :
    Numerics.cosRn x = Numerics.cosPos x.rat.num.natAbs x.rat.den := by
  unfold Numerics.cosRn
  rw [hf, if_neg (by decide), if_neg h]

theorem atanRn_of_zero {x : F64} (hf : x.isFinite = true) (h : x.rat = 0) : Numerics.atanRn x = F64.zero false := by
  unfold Numerics.atanRn
  rw [hf, if_neg (by decide), if_pos h]

theorem atanRn_of_ne_zero {x : F64} (hf : x.isFinite = true) (h : x.rat ≠ 0) :
    Numerics.atanRn x = F64.withSign (decide (x.rat < 0)) (Numerics.atanPos x.rat.num.natAbs x.rat.den) := by
  unfold Numerics.atanRn
  rw [hf, if_neg (by decide), if_neg h, F64.isNeg_eq hf h]

/-! ### The bound of the arctangent -/

/-- `PI ⊘ 2` as a quotient (00_scope.md R14, R15). -/
theorem halfPi_rat : (F64.pi.div (F64.ofNat 2)).rat = 884279719003555 / 562949953421312 := by
  decide +kernel

/-- A binary64 of at least 1 is a multiple of `2^-52`. -/
theorem F64.multiple_of_one_le {g : F64} (hc : g.canonical = true) (h : 1 ≤ g.rat) : ∃ k : Int, g.rat = k / 2 ^ 52 := by
  cases g with
  | finite neg m e =>
    simp only [F64.canonical, Bool.and_eq_true, decide_eq_true_eq] at hc
    rw [F64.rat_finite, F64.leastExp_eq] at h ⊢
    have he : 1022 ≤ e := by
      by_contra hlt
      have h1 : (signed neg m : ℚ) ≤ m := by cases neg <;> simp [signed]
      have h2 : (m : ℚ) < 2 ^ 53 := by exact_mod_cast hc.1.1
      have h3 : (2 : ℚ) ^ e ≤ 2 ^ 1021 := pow_le_pow_right₀ (by norm_num) (by omega)
      have h4 : (signed neg m : ℚ) * 2 ^ e < 2 ^ 1074 := by
        calc (signed neg m : ℚ) * 2 ^ e ≤ m * 2 ^ e := mul_le_mul_of_nonneg_right h1 (by positivity)
          _ < 2 ^ 53 * 2 ^ e := mul_lt_mul_of_pos_right h2 (by positivity)
          _ ≤ 2 ^ 53 * 2 ^ 1021 := mul_le_mul_of_nonneg_left h3 (by positivity)
          _ = 2 ^ 1074 := by rw [← pow_add]
      rw [one_le_div (by positivity)] at h
      exact absurd h (not_le.2 h4)
    obtain ⟨k, rfl⟩ := Nat.exists_eq_add_of_le he
    refine ⟨signed neg m * 2 ^ k, ?_⟩
    push_cast
    rw [show (1074 : Nat) = 1022 + 52 by norm_num, pow_add, pow_add]
    have : (2 : ℚ) ^ 1022 ≠ 0 := by positivity
    generalize (2 : ℚ) ^ 1022 = t at *
    field_simp
  | infinite neg => simp [F64.rat] at h; norm_num at h
  | nan => simp [F64.rat] at h; norm_num at h

/-- `PI ⊘ 2` is the binary64 nearest half of π. -/
theorem halfPi_isRounding : F64.IsRounding (Real.pi / 2) (F64.pi.div (F64.ofNat 2)) := by
  have h1 := Real.pi_gt_d20
  have h2 := Real.pi_lt_d20
  have hr : ((F64.pi.div (F64.ofNat 2)).rat : ℝ) = 884279719003555 / 562949953421312 := by
    rw [halfPi_rat]
    norm_num
  have hnear : |((F64.pi.div (F64.ofNat 2)).rat : ℝ) - Real.pi / 2| < 1 / 2 ^ 53 := by
    rw [hr, abs_lt]
    constructor <;> linarith
  have key : ∀ g : F64, g.canonical = true → g.rat ≠ (F64.pi.div (F64.ofNat 2)).rat →
      |((F64.pi.div (F64.ofNat 2)).rat : ℝ) - Real.pi / 2| < |(g.rat : ℝ) - Real.pi / 2| := by
    intro g hc hne
    refine hnear.trans_le ?_
    rcases lt_or_ge g.rat 1 with hlt | hge
    · have : (g.rat : ℝ) < 1 := by exact_mod_cast hlt
      rw [abs_of_neg (by linarith)]
      linarith
    · obtain ⟨k, hk⟩ := F64.multiple_of_one_le hc hge
      have hkr : (g.rat : ℝ) = k / 2 ^ 52 := by rw [hk]; push_cast; rfl
      have hk1 : k ≠ 7074237752028440 := by
        rintro rfl
        refine hne ?_
        rw [hk, halfPi_rat]
        norm_num
      have hgap : (1 : ℝ) ≤ |(k : ℝ) - 7074237752028440| := by
        have : (1 : Int) ≤ |k - 7074237752028440| := Int.one_le_abs (sub_ne_zero.2 hk1)
        exact_mod_cast this
      have e : (k : ℝ) - 7074237752028440 =
          2 ^ 52 * ((g.rat : ℝ) - Real.pi / 2) + 2 ^ 52 * (Real.pi / 2 - (F64.pi.div (F64.ofNat 2)).rat) := by
        rw [hkr, hr]
        ring
      have hb : |(k : ℝ) - 7074237752028440| ≤
          2 ^ 52 * |(g.rat : ℝ) - Real.pi / 2| + 2 ^ 52 * |((F64.pi.div (F64.ofNat 2)).rat : ℝ) - Real.pi / 2| := by
        rw [e]
        refine (abs_add_le _ _).trans ?_
        rw [abs_mul, abs_mul, abs_of_nonneg (by positivity), abs_sub_comm (Real.pi / 2)]
      have := hnear
      linarith
  refine ⟨by decide +kernel, by decide +kernel, fun g hc _ => ?_, fun g hc _ heq hne => ?_⟩
  · by_cases h : g.rat = (F64.pi.div (F64.ofNat 2)).rat
    · rw [h]
    · exact (key g hc h).le
  · exact absurd heq (key g hc hne).ne

end Sys2Proof
end

