-- ==== Sys2Proof/Laws/State.lean ====
section
/-! SUPPORT. One small lemma per field per update of State, so that no later proof unfolds a record update. -/

namespace Sys2Proof.Machine

/-! ### `writeReg` -/

@[simp] theorem writeReg_w (r : RegField) (v : Word) (s : State) : (writeReg r v s).w = s.w.set (regIndex r) v := rfl
@[simp] theorem writeReg_err (r : RegField) (v : Word) (s : State) : (writeReg r v s).err = s.err := rfl
@[simp] theorem writeReg_errInfo (r : RegField) (v : Word) (s : State) : (writeReg r v s).errInfo = s.errInfo := rfl
@[simp] theorem writeReg_msgLen (r : RegField) (v : Word) (s : State) : (writeReg r v s).msgLen = s.msgLen := rfl
@[simp] theorem writeReg_msg (r : RegField) (v : Word) (s : State) : (writeReg r v s).msg = s.msg := rfl
@[simp] theorem writeReg_pending (r : RegField) (v : Word) (s : State) : (writeReg r v s).pending = s.pending := rfl
@[simp] theorem writeReg_answers (r : RegField) (v : Word) (s : State) : (writeReg r v s).answers = s.answers := rfl

/-! ### `clearError` -/

@[simp] theorem clearError_w (s : State) : (clearError s).w = s.w := rfl
@[simp] theorem clearError_err (s : State) : (clearError s).err = 0 := rfl
@[simp] theorem clearError_errInfo (s : State) : (clearError s).errInfo = 0 := rfl
@[simp] theorem clearError_msgLen (s : State) : (clearError s).msgLen = s.msgLen := rfl
@[simp] theorem clearError_msg (s : State) : (clearError s).msg = s.msg := rfl
@[simp] theorem clearError_pending (s : State) : (clearError s).pending = s.pending := rfl
@[simp] theorem clearError_answers (s : State) : (clearError s).answers = s.answers := rfl

/-! ### `raise` -/

@[simp] theorem raise_w (e : ErrorKind) (c : Word32) (s : State) : (raise e c s).w = s.w := by
  unfold raise; split <;> rfl
@[simp] theorem raise_msgLen (e : ErrorKind) (c : Word32) (s : State) : (raise e c s).msgLen = s.msgLen := by
  unfold raise; split <;> rfl
@[simp] theorem raise_msg (e : ErrorKind) (c : Word32) (s : State) : (raise e c s).msg = s.msg := by
  unfold raise; split <;> rfl
@[simp] theorem raise_pending (e : ErrorKind) (c : Word32) (s : State) : (raise e c s).pending = s.pending := by
  unfold raise; split <;> rfl
@[simp] theorem raise_answers (e : ErrorKind) (c : Word32) (s : State) : (raise e c s).answers = s.answers := by
  unfold raise; split <;> rfl
theorem raise_err (e : ErrorKind) (c : Word32) (s : State) :
    (raise e c s).err = if s.err = 0 then e.code else s.err := by
  unfold raise; split <;> rfl
theorem raise_errInfo (e : ErrorKind) (c : Word32) (s : State) :
    (raise e c s).errInfo = if s.err = 0 then c else s.errInfo := by
  unfold raise; split <;> rfl

/-! ### `msgWrite` -/

@[simp] theorem msgWrite_w (a : Nat) (bs : List Byte) (s : State) : (msgWrite a bs s).w = s.w := rfl
@[simp] theorem msgWrite_err (a : Nat) (bs : List Byte) (s : State) : (msgWrite a bs s).err = s.err := rfl
@[simp] theorem msgWrite_errInfo (a : Nat) (bs : List Byte) (s : State) : (msgWrite a bs s).errInfo = s.errInfo := rfl
@[simp] theorem msgWrite_msgLen (a : Nat) (bs : List Byte) (s : State) : (msgWrite a bs s).msgLen = s.msgLen := rfl
@[simp] theorem msgWrite_msg (a : Nat) (bs : List Byte) (s : State) :
    (msgWrite a bs s).msg = Memory.setMany a bs s.msg := rfl
@[simp] theorem msgWrite_pending (a : Nat) (bs : List Byte) (s : State) : (msgWrite a bs s).pending = s.pending := rfl
@[simp] theorem msgWrite_answers (a : Nat) (bs : List Byte) (s : State) : (msgWrite a bs s).answers = s.answers := rfl

/-! ### Reads that an update of another field leaves alone -/

@[simp] theorem readReg_pending (r : RegField) (s : State) (p : List HostAction) :
    readReg r { s with pending := p } = readReg r s := rfl
@[simp] theorem readReg_answers (r : RegField) (s : State) (a : List Word32) :
    readReg r { s with answers := a } = readReg r s := rfl
@[simp] theorem readReg_raise (r : RegField) (e : ErrorKind) (c : Word32) (s : State) :
    readReg r (raise e c s) = readReg r s := by simp [readReg]
@[simp] theorem readReg_clearError (r : RegField) (s : State) : readReg r (clearError s) = readReg r s := rfl
@[simp] theorem readReg_msgWrite (r : RegField) (a : Nat) (bs : List Byte) (s : State) :
    readReg r (msgWrite a bs s) = readReg r s := rfl
@[simp] theorem msgByte_pending (a : Nat) (s : State) (p : List HostAction) :
    msgByte a { s with pending := p } = msgByte a s := rfl
@[simp] theorem msgByte_writeReg (a : Nat) (r : RegField) (v : Word) (s : State) :
    msgByte a (writeReg r v s) = msgByte a s := rfl
@[simp] theorem msgByte_raise (a : Nat) (e : ErrorKind) (c : Word32) (s : State) :
    msgByte a (raise e c s) = msgByte a s := by simp [msgByte]
@[simp] theorem msgByte_clearError (a : Nat) (s : State) : msgByte a (clearError s) = msgByte a s := rfl
@[simp] theorem message_writeReg (r : RegField) (v : Word) (s : State) : message (writeReg r v s) = message s := rfl

end Sys2Proof.Machine
end

