-- ==== Sys2Proof/Laws/Ops.lean ====
section
/-! SUPPORT. What each named operation can do, said once: registers, the message memory and its canonical form, errors. -/

namespace Sys2Proof.Machine

/-! ### Registers -/

theorem regIndex_val (r : RegField) : (regIndex r).val = r.toNat % 8 := rfl

/-- Legal register fields name different registers when they differ. -/
theorem regIndex_inj {r t : RegField} (hr : legalReg r = true) (ht : legalReg t = true)
    (h : regIndex r = regIndex t) : r = t := by
  simp only [legalReg, decide_eq_true_eq] at hr ht
  have := congrArg Fin.val h
  simp only [regIndex_val] at this
  exact BitVec.eq_of_toNat_eq (by omega)

theorem readReg_writeReg (r t : RegField) (v : Word) (s : State) :
    readReg r (writeReg t v s) = if regIndex t = regIndex r then v else readReg r s := by
  simp only [readReg, writeReg_w, Fin.getElem_fin, Vector.getElem_set, Fin.ext_iff]

@[simp] theorem readReg_writeReg_same (r : RegField) (v : Word) (s : State) : readReg r (writeReg r v s) = v := by
  simp [readReg_writeReg]

theorem readReg_writeReg_ne {r t : RegField} (h : regIndex t ≠ regIndex r) (v : Word) (s : State) :
    readReg r (writeReg t v s) = readReg r s := by
  simp [readReg_writeReg, h]

/-- A register write in the terms of Safety.lean. -/
theorem wrote_writeReg (r : RegField) (v : Word) (s : State) : State.Wrote r v s (writeReg r v s) where
  value := readReg_writeReg_same r v s
  others := fun t ht => by
    simp only [writeReg_w, Fin.getElem_fin, Vector.getElem_set]
    exact if_neg fun h => ht (Fin.ext h.symm)
  err := rfl
  errInfo := rfl
  msgLen := rfl
  bytes := fun _ => rfl
  pending := rfl
  answers := rfl

/-! ### The message memory -/

theorem Memory.get_set (a b : Nat) (v : Byte) (m : Memory) :
    Memory.get a (Memory.set b v m) = if a = b then some v else Memory.get a m := by
  induction m with
  | nil => simp [Memory.set, Memory.get, eq_comm]
  | cons c m ih =>
    simp only [Memory.set]
    split
    · simp [Memory.get, eq_comm]
    · split
      · rename_i h
        subst h
        by_cases h2 : c.1 = a
        · simp [Memory.get, h2]
        · simp [Memory.get, h2, Ne.symm h2]
      · simp only [Memory.get, ih]
        split
        · rename_i h1 h2 h3
          simp only [h3] at h2
          simp [Ne.symm h2]
        · rfl

/-- Below the first address of a canonical memory nothing is listed. -/
theorem Memory.get_of_lt {low : Nat} {m : Memory} (h : Memory.wfFrom low m = true) {a : Nat} (ha : a < low) :
    Memory.get a m = none := by
  induction m generalizing low with
  | nil => rfl
  | cons c m ih =>
    simp only [Memory.wfFrom, Bool.and_eq_true, decide_eq_true_eq] at h
    have hne : c.1 ≠ a := by omega
    simp only [Memory.get, if_neg hne]
    exact ih h.2 (by omega)

theorem Memory.wfFrom_mono {low low' : Nat} {m : Memory} (h : Memory.wfFrom low m = true) (hl : low' ≤ low) :
    Memory.wfFrom low' m = true := by
  cases m with
  | nil => rfl
  | cons c m =>
    simp only [Memory.wfFrom, Bool.and_eq_true, decide_eq_true_eq] at h ⊢
    exact ⟨by omega, h.2⟩

theorem Memory.set_wfFrom {low a : Nat} {m : Memory} (h : Memory.wfFrom low m = true) (ha : low ≤ a) (v : Byte) :
    Memory.wfFrom low (Memory.set a v m) = true := by
  induction m generalizing low with
  | nil => simp [Memory.set, Memory.wfFrom, ha]
  | cons c m ih =>
    simp only [Memory.wfFrom, Bool.and_eq_true, decide_eq_true_eq] at h
    simp only [Memory.set]
    split
    · simp only [Memory.wfFrom, Bool.and_eq_true, decide_eq_true_eq]
      exact ⟨ha, by omega, h.2⟩
    · split
      · rename_i _ h2
        simp only [Memory.wfFrom, Bool.and_eq_true, decide_eq_true_eq]
        exact ⟨ha, by rw [h2]; exact h.2⟩
      · simp only [Memory.wfFrom, Bool.and_eq_true, decide_eq_true_eq]
        exact ⟨h.1, ih h.2 (by omega)⟩

/-- A store of one byte keeps the canonical form. -/
theorem Memory.set_wf {m : Memory} (h : Memory.wf m = true) (a : Nat) (v : Byte) :
    Memory.wf (Memory.set a v m) = true :=
  Memory.set_wfFrom h (Nat.zero_le a) v

/-- A store of several bytes keeps the canonical form. -/
theorem Memory.setMany_wf {m : Memory} (h : Memory.wf m = true) (a : Nat) (bs : List Byte) :
    Memory.wf (Memory.setMany a bs m) = true := by
  induction bs generalizing a m with
  | nil => exact h
  | cons b bs ih => exact ih (Memory.set_wf h a b) (a + 1)

theorem Memory.get_setMany (a b : Nat) (bs : List Byte) (m : Memory) :
    Memory.get a (Memory.setMany b bs m) = if b ≤ a ∧ a < b + bs.length then bs[a - b]? else Memory.get a m := by
  induction bs generalizing b m with
  | nil =>
    simp [Memory.setMany]
  | cons v bs ih =>
    rw [Memory.setMany, ih, Memory.get_set]
    simp only [List.length_cons]
    by_cases h1 : a = b
    · subst h1
      simp
    · by_cases h2 : b + 1 ≤ a ∧ a < b + 1 + bs.length
      · have h3 : b ≤ a ∧ a < b + (bs.length + 1) := by omega
        have h4 : a - b = (a - (b + 1)) + 1 := by omega
        simp [h2, h3, h4]
      · have h3 : ¬ (b ≤ a ∧ a < b + (bs.length + 1)) := by omega
        rw [if_neg h2, if_neg h3, if_neg h1]

theorem Memory.set_inRange {m : Memory} (h : Memory.inRange m = true) {a : Nat} (ha : a < Config.msgCap) (v : Byte) :
    Memory.inRange (Memory.set a v m) = true := by
  induction m with
  | nil => simp [Memory.set, Memory.inRange, ha]
  | cons c m ih =>
    simp only [Memory.inRange, List.all_cons, Bool.and_eq_true, decide_eq_true_eq] at h ih ⊢
    simp only [Memory.set]
    split
    · simp [ha, h.1, h.2]
    · split
      · simp [ha, h.2]
      · simp [h.1, ih h.2]

theorem Memory.setMany_inRange {m : Memory} (h : Memory.inRange m = true) {a : Nat} {bs : List Byte}
    (ha : a + bs.length ≤ Config.msgCap) : Memory.inRange (Memory.setMany a bs m) = true := by
  induction bs generalizing a m with
  | nil => exact h
  | cons b bs ih =>
    simp only [List.length_cons] at ha
    exact ih (Memory.set_inRange h (by omega) b) (by omega)

/-- What a byte of MSG reads as after a store of bytes. -/
theorem msgByte_msgWrite (a b : Nat) (bs : List Byte) (s : State) :
    msgByte a (msgWrite b bs s) =
      if b ≤ a ∧ a < b + bs.length then (bs[a - b]?).getD (Config.msgInit a) else msgByte a s := by
  simp only [msgByte, msgWrite_msg, Memory.get_setMany]
  split <;> rfl

@[simp] theorem msgRead_length (a n : Nat) (s : State) : (msgRead a n s).length = n := by simp [msgRead]

theorem msgRead_getElem? (a n k : Nat) (hk : k < n) (s : State) : (msgRead a n s)[k]? = some (msgByte (a + k) s) := by
  simp [msgRead, hk]

@[simp] theorem message_length (s : State) : (message s).length = s.msgLen.toNat := by simp [message]

/-! ### Errors -/

/-- The whole of `raise`: either ERR was 0 and the pair takes the error, or nothing changes. -/
theorem raise_cases (e : ErrorKind) (c : Word32) (s : State) :
    (s.err = 0 ∧ raise e c s = { s with err := e.code, errInfo := c }) ∨ (s.err ≠ 0 ∧ raise e c s = s) := by
  unfold raise
  split
  · exact .inl ⟨‹_›, rfl⟩
  · exact .inr ⟨‹_›, rfl⟩

/-- The whole of a STATUS write: either nothing changes or the error is cleared. -/
theorem writeStatus_cases (v : Word32) (s : State) :
    (v.extractLsb' 0 4 = 0 ∧ writeStatus v s = s) ∨ (v.extractLsb' 0 4 ≠ 0 ∧ writeStatus v s = clearError s) := by
  unfold writeStatus
  split
  · exact .inl ⟨‹_›, rfl⟩
  · exact .inr ⟨‹_›, rfl⟩

/-! ### The frame of a command -/

theorem ifLegal_of_wellFormed {i : Instr} (h : i.wellFormed = true) (s t : State) : ifLegal i s t = .next t := by
  simp [ifLegal, h]

theorem ifLegal_of_illFormed {i : Instr} (h : i.wellFormed = false) (s t : State) :
    ifLegal i s t = .next (raise .illegalCommand (encode i) s) := by
  simp [ifLegal, h]

theorem ifLegal_cases {i : Instr} {s t u : State} (h : ifLegal i s t = .next u) :
    (i.wellFormed = true ∧ u = t) ∨ (i.wellFormed = false ∧ u = raise .illegalCommand (encode i) s) := by
  unfold ifLegal at h
  split at h
  · exact .inl ⟨‹_›, (Host.Outcome.next.inj h).symm⟩
  · rename_i hw
    exact .inr ⟨by simpa using hw, (Host.Outcome.next.inj h).symm⟩

theorem ifInRange_cases (i : Instr) (s t : State) :
    (Config.msgCap < s.msgLen.toNat ∧ ifInRange i s t = raise .lengthRange (encode i) s) ∨
      (s.msgLen.toNat ≤ Config.msgCap ∧ ifInRange i s t = t) := by
  unfold ifInRange
  split
  · exact .inl ⟨‹_›, rfl⟩
  · exact .inr ⟨by omega, rfl⟩

/-- MSGCAP is at least 128 (00_scope.md R9), a multiple of 4, and below 2^32 (R102). -/
theorem msgCap_ge : 128 ≤ Config.msgCap := by unfold Config.msgCap; omega
theorem msgCap_dvd : 4 ∣ Config.msgCap := ⟨Config.msgCapExtraWords.val + 32, by unfold Config.msgCap; omega⟩
theorem msgCap_lt : Config.msgCap < 2 ^ 32 := by
  have := Config.msgCapExtraWords.isLt
  unfold Config.msgCap
  omega

end Sys2Proof.Machine
end

