-- ==== Sys2Proof/Laws/Exec.lean ====
section
/-! SUPPORT. What `exec`, a CMD write and a host action can do, said once each. -/

namespace Sys2Proof.Machine

/-- The three ways a command can end: its destination takes a value and nothing else is written, or one of the errors it
can raise is raised and nothing else is written. -/
inductive Effect (i : Instr) (s t : State) : Prop where
  | wrote (v : Word) (legal : i.wellFormed = true) (h : t = writeReg i.dest v s)
  | raised (e : ErrorKind) (ne : e ≠ .encodingError) (h : t = raise e (encode i) s)

theorem Effect.ofLegal {i : Instr} {s t u : State} (h : ifLegal i s t = .next u)
    (ht : i.wellFormed = true → Effect i s t) : Effect i s u := by
  rcases ifLegal_cases h with ⟨hw, rfl⟩ | ⟨_, rfl⟩
  · exact ht hw
  · exact .raised .illegalCommand (by decide) rfl

theorem Effect.ofInRange {i : Instr} {s t : State} (ht : Effect i s t) : Effect i s (ifInRange i s t) := by
  rcases ifInRange_cases i s t with ⟨_, h⟩ | ⟨_, h⟩ <;> rw [h]
  · exact .raised .lengthRange (by decide) rfl
  · exact ht

/-- Everything `exec` can do. -/
theorem exec_effect {i : Instr} {s t : State} (h : exec i s = .next t) : Effect i s t := by
  cases i with
  | ldi wd imm => exact .ofLegal h fun hw => .wrote _ hw rfl
  | ldb wd =>
    refine .ofLegal h fun hw => .ofInRange ?_
    split
    · exact .raised .invalidBlockLength (by decide) rfl
    · exact .wrote _ hw rfl
  | rol wd wa imm => exact .ofLegal h fun hw => .wrote _ hw rfl
  | ror wd wa imm => exact .ofLegal h fun hw => .wrote _ hw rfl
  | inv wd wa => exact .ofLegal h fun hw => .wrote _ hw rfl
  | enc wd => exact .ofLegal h fun hw => .ofInRange (.wrote _ hw rfl)
  | mix wd wa wb => exact .ofLegal h fun hw => .wrote _ hw rfl
  | ext wd wa wb => exact .ofLegal h fun hw => .wrote _ hw rfl
  | fmix wd wa wb => exact .ofLegal h fun hw => .wrote _ hw rfl
  | digest wd => exact .ofLegal h fun hw => .ofInRange (.wrote _ hw rfl)

/-- What a CMD write can do: an illegal word raises IllegalCommand, a legal one has its command's effect. -/
theorem writeCmd_cases {c : Word32} {s t : State} (h : writeCmd c s = .next t) :
    (decode c = none ∧ t = raise .illegalCommand c s) ∨ (∃ i, decode c = some i ∧ exec i s = .next t) := by
  unfold writeCmd at h
  split at h
  · exact .inl ⟨‹_›, (Host.Outcome.next.inj h).symm⟩
  · exact .inr ⟨_, ‹_›, h⟩

/-- What a host write can do: it runs a command, or it writes a cell other than CMD. -/
theorem hostWrite_cases (word : Nat) (v : Word32) (s : State) :
    (locate word = .cmd ∧ hostWrite word v s = writeCmd v s) ∨
      (locate word ≠ .cmd ∧ hostWrite word v s = .next (writeCell v s (locate word))) := by
  unfold hostWrite
  generalize locate word = cell
  cases cell with
  | cmd => exact .inl ⟨rfl, rfl⟩
  | _ => exact .inr ⟨WindowCell.noConfusion, rfl⟩

/-- What a step can do: nothing where no action is pending, else the first pending action. -/
theorem step_cases {s t : State} (h : step s = .next t) :
    (s.pending = [] ∧ t = s) ∨
      (∃ a rest, s.pending = a :: rest ∧ perform a { s with pending := rest } = .next t) := by
  unfold step advance at h
  split at h
  · exact .inl ⟨‹_›, (Host.Outcome.next.inj h).symm⟩
  · exact .inr ⟨_, _, ‹_›, h⟩

theorem registerCell_ne_msgWin (offset n : Nat) : registerCell offset ≠ .msgWin n := by
  unfold registerCell
  split_ifs <;> exact WindowCell.noConfusion

theorem sinCell_ne_msgWin (offset n : Nat) : sinCell offset ≠ .msgWin n := by
  unfold sinCell
  split_ifs <;> exact WindowCell.noConfusion

theorem cosCell_ne_msgWin (offset n : Nat) : cosCell offset ≠ .msgWin n := by
  unfold cosCell
  split_ifs <;> exact WindowCell.noConfusion

/-- A message cell of the window lies within the message space. -/
theorem locate_msgWin {word n : Nat} (h : locate word = .msgWin n) :
    0x4000 ≤ 4 * word ∧ n = word - 0x1000 ∧ 4 * n + 4 ≤ Config.msgCap := by
  obtain ⟨k, hk⟩ := msgCap_dvd
  unfold locate locateOffset at h
  split_ifs at h with h1 h2 h3
  · exact absurd h (registerCell_ne_msgWin _ _)
  · exact absurd h (sinCell_ne_msgWin _ _)
  · exact absurd h (cosCell_ne_msgWin _ _)
  · unfold msgCell at h
    split_ifs at h with h4
    injection h with h
    omega

end Sys2Proof.Machine
end

