-- ==== Sys2Proof/Laws/Mixer.lean ====
section
/-! SUPPORT. The modular power and the parts of the mixer's iteration, said once. -/

namespace Sys2Proof.Machine

theorem powModFuel_eq (m : Nat) (fuel b e : Nat) (h : e < 2 ^ fuel) : powModFuel m fuel b e = b ^ e % m := by
  induction fuel generalizing b e with
  | zero =>
    have : e = 0 := by omega
    simp [powModFuel, this]
  | succ fuel ih =>
    have hsq (k : Nat) : (b * b % m) ^ k % m = b ^ (2 * k) % m := by rw [← Nat.pow_mod, ← pow_two, ← pow_mul]
    unfold powModFuel
    by_cases h0 : e = 0
    · simp [h0]
    · have hlt : e / 2 < 2 ^ fuel := by rw [pow_succ] at h; omega
      simp only [if_neg h0, ih _ _ hlt, hsq]
      rcases Nat.mod_two_eq_zero_or_one e with h1 | h1
      · have he : 2 * (e / 2) = e := by omega
        simp [h1, he]
      · have he : e = 2 * (e / 2) + 1 := by omega
        rw [if_pos h1, Nat.mul_mod_mod]
        conv_rhs => rw [he, pow_succ, mul_comm]

/-- `powMod` is the power modulo (43_modexp_mixer.md R120). -/
theorem powMod_eq (b e m : Nat) : powMod b e m = b ^ e % m :=
  powModFuel_eq m _ b e Nat.lt_log2_self

/-- What one iteration hands on (43_modexp_mixer.md R125, R126). -/
theorem mixRound_prevBase (num : Numerics) (q : QuantMul) (block : Word) (acc : MixAcc) (i : Nat) :
    (mixRound num q block acc i).prevBase = baseTable (group block i) := rfl

/-- The state after an iteration has at most 512 bits (R113). -/
theorem mixRound_state_lt (num : Numerics) (q : QuantMul) (block : Word) (acc : MixAcc) (i : Nat) :
    (mixRound num q block acc i).state < 2 ^ 512 := BitVec.isLt _

theorem mixRounds_succ (num : Numerics) (q : QuantMul) (block previousState : Word) (n : Nat) :
    mixRounds num q block previousState (n + 1) = mixRound num q block (mixRounds num q block previousState n) n := by
  simp [mixRounds, List.range_succ]

end Sys2Proof.Machine
end

