-- ==== Sys2Proof/Laws/PerInstr.lean ====
section
/-! SUPPORT. One lemma per command: a legal command's word matches the row of its mnemonic (30_encoding.md R63). -/

namespace Sys2Proof.Laws.MatchesRow

/-- The word of a legal command has its row's pattern under its row's mask, and the row makes the command again. -/
def Statement (i : Instr) : Prop :=
  i.wellFormed = true → ∃ r ∈ opcodeMap, r.op = i.fields.op ∧ r.matchesWord (encode i) = true ∧ r.command i.fields = i

theorem ldi (wd : RegField) (imm : Imm) : Statement (.ldi wd imm) := by
  intro h
  simp only [Instr.wellFormed] at h
  refine ⟨opcodeMap[0], List.getElem_mem _, rfl, matchesWord_encode _ _ ⟨0xFF#8, 8#4, 15#4, 15#4, 0#12⟩ ⟨0x01#8, 0#4, 0#4, 0#4, 0#12⟩ rfl rfl ?_, rfl⟩
  simp [Instr.fields, legalReg_and h]

theorem ldb (wd : RegField) : Statement (.ldb wd) := by
  intro h
  simp only [Instr.wellFormed] at h
  refine ⟨opcodeMap[1], List.getElem_mem _, rfl, matchesWord_encode _ _ ⟨0xFF#8, 8#4, 15#4, 15#4, 4095#12⟩ ⟨0x02#8, 0#4, 0#4, 0#4, 0#12⟩ rfl rfl ?_, rfl⟩
  simp [Instr.fields, legalReg_and h]

theorem rol (wd wa : RegField) (imm : Imm) : Statement (.rol wd wa imm) := by
  intro h
  simp only [Instr.wellFormed, Bool.and_eq_true] at h
  refine ⟨opcodeMap[2], List.getElem_mem _, rfl, matchesWord_encode _ _ ⟨0xFF#8, 8#4, 8#4, 15#4, 0#12⟩ ⟨0x10#8, 0#4, 0#4, 0#4, 0#12⟩ rfl rfl ?_, rfl⟩
  simp [Instr.fields, legalReg_and h.1, legalReg_and h.2]

theorem ror (wd wa : RegField) (imm : Imm) : Statement (.ror wd wa imm) := by
  intro h
  simp only [Instr.wellFormed, Bool.and_eq_true] at h
  refine ⟨opcodeMap[3], List.getElem_mem _, rfl, matchesWord_encode _ _ ⟨0xFF#8, 8#4, 8#4, 15#4, 0#12⟩ ⟨0x11#8, 0#4, 0#4, 0#4, 0#12⟩ rfl rfl ?_, rfl⟩
  simp [Instr.fields, legalReg_and h.1, legalReg_and h.2]

theorem inv (wd wa : RegField) : Statement (.inv wd wa) := by
  intro h
  simp only [Instr.wellFormed, Bool.and_eq_true] at h
  refine ⟨opcodeMap[4], List.getElem_mem _, rfl, matchesWord_encode _ _ ⟨0xFF#8, 8#4, 8#4, 15#4, 4095#12⟩ ⟨0x12#8, 0#4, 0#4, 0#4, 0#12⟩ rfl rfl ?_, rfl⟩
  simp [Instr.fields, legalReg_and h.1, legalReg_and h.2]

theorem enc (wd : RegField) : Statement (.enc wd) := by
  intro h
  simp only [Instr.wellFormed] at h
  refine ⟨opcodeMap[5], List.getElem_mem _, rfl, matchesWord_encode _ _ ⟨0xFF#8, 8#4, 15#4, 15#4, 4095#12⟩ ⟨0x20#8, 0#4, 0#4, 0#4, 0#12⟩ rfl rfl ?_, rfl⟩
  simp [Instr.fields, legalReg_and h]

theorem mix (wd wa wb : RegField) : Statement (.mix wd wa wb) := by
  intro h
  simp only [Instr.wellFormed, Bool.and_eq_true] at h
  refine ⟨opcodeMap[6], List.getElem_mem _, rfl, matchesWord_encode _ _ ⟨0xFF#8, 8#4, 8#4, 8#4, 4095#12⟩ ⟨0x30#8, 0#4, 0#4, 0#4, 0#12⟩ rfl rfl ?_, rfl⟩
  simp [Instr.fields, legalReg_and h.1.1, legalReg_and h.1.2, legalReg_and h.2]

theorem ext (wd wa wb : RegField) : Statement (.ext wd wa wb) := by
  intro h
  simp only [Instr.wellFormed, Bool.and_eq_true] at h
  refine ⟨opcodeMap[7], List.getElem_mem _, rfl, matchesWord_encode _ _ ⟨0xFF#8, 8#4, 8#4, 8#4, 4095#12⟩ ⟨0x40#8, 0#4, 0#4, 0#4, 0#12⟩ rfl rfl ?_, rfl⟩
  simp [Instr.fields, legalReg_and h.1.1, legalReg_and h.1.2, legalReg_and h.2]

theorem fmix (wd wa wb : RegField) : Statement (.fmix wd wa wb) := by
  intro h
  simp only [Instr.wellFormed, Bool.and_eq_true] at h
  refine ⟨opcodeMap[8], List.getElem_mem _, rfl, matchesWord_encode _ _ ⟨0xFF#8, 8#4, 8#4, 8#4, 4095#12⟩ ⟨0x50#8, 0#4, 0#4, 0#4, 0#12⟩ rfl rfl ?_, rfl⟩
  simp [Instr.fields, legalReg_and h.1.1, legalReg_and h.1.2, legalReg_and h.2]

theorem digest (wd : RegField) : Statement (.digest wd) := by
  intro h
  simp only [Instr.wellFormed] at h
  refine ⟨opcodeMap[9], List.getElem_mem _, rfl, matchesWord_encode _ _ ⟨0xFF#8, 8#4, 15#4, 15#4, 4095#12⟩ ⟨0x60#8, 0#4, 0#4, 0#4, 0#12⟩ rfl rfl ?_, rfl⟩
  simp [Instr.fields, legalReg_and h]

end Sys2Proof.Laws.MatchesRow
end

