-- ==== Sys2Proof/Machine/Listing.lean ====
section
/-! DEFINITION. The host actions that a listing line stands for (30_encoding.md R68, 70_reset_and_hazards.md R216). -/

namespace Sys2Proof.Machine

/-- A mnemonic line: its command word written to CMD. -/
def cmdLine (i : Instr) : List HostAction := [.write 0 (encode i)]

/-- `.word c`: a 32-bit word written to CMD as it stands. -/
def wordLine (c : Word32) : List HostAction := [.write 0 c]

/-- `.len n`: MSGLEN written. -/
def lenLine (n : Word32) : List HostAction := [.write 3 n]

/-- `.clrerr`: 0xF written to STATUS. -/
def clrErrLine : List HostAction := [.write 1 0xF#32]

/-- `.status`: STATUS read, and ERRINFO too if the host wants it (R216). -/
def statusLine (errInfoWanted : Bool) : List HostAction := if errInfoWanted then [.read 1, .read 2] else [.read 1]

/-- `.read Wn`: the sixteen words of a data register read, the most significant first. -/
def readLine (n : Fin 8) : List HostAction := (List.range 16).map (fun k => .read (64 + 16 * n.val + k))

/-- Whole-word writes of a message, from word `n` of the message window on; the padding lanes of the last word are 0. -/
def msgWrites (n : Nat) : List Byte → List HostAction
  | [] => []
  | [a] => [.write (4096 + n) (a ++ 0#8 ++ 0#8 ++ 0#8)]
  | [a, b] => [.write (4096 + n) (a ++ b ++ 0#8 ++ 0#8)]
  | [a, b, c] => [.write (4096 + n) (a ++ b ++ c ++ 0#8)]
  | a :: b :: c :: d :: rest => .write (4096 + n) (a ++ b ++ c ++ d) :: msgWrites (n + 1) rest

/-- `.msg`: the bytes written to MSG[0..] and their count to MSGLEN. -/
def msgLine (bytes : List Byte) : List HostAction := msgWrites 0 bytes ++ lenLine (BitVec.ofNat 32 bytes.length)

end Sys2Proof.Machine
end

