-- ==== Sys2Proof/Tests/Slice0.lean ====
section
/-! SUPPORT. Small tests: ill-formed commands refused, words written out from the spec's encodings, spec vectors, and a
witness for the hypotheses of every statement that has some. Expected values are the spec's own (V-...: 95_test_vectors.md
and 96_test_vectors_hardware.md). -/

namespace Sys2Proof.Tests

open Sys2Proof Sys2Proof.Machine

/-! ### WellFormed: one ill-formed command for each check -/

theorem test_illFormed_ldi_wd : Instr.wellFormed (.ldi 8 0) = false := by decide
theorem test_illFormed_ldb_wd : Instr.wellFormed (.ldb 15) = false := by decide
theorem test_illFormed_rol_wd : Instr.wellFormed (.rol 8 0 1) = false := by decide
theorem test_illFormed_rol_wa : Instr.wellFormed (.rol 0 10 1) = false := by decide
theorem test_illFormed_ror_wd : Instr.wellFormed (.ror 9 0 1) = false := by decide
theorem test_illFormed_ror_wa : Instr.wellFormed (.ror 0 8 1) = false := by decide
theorem test_illFormed_inv_wd : Instr.wellFormed (.inv 8 0) = false := by decide
theorem test_illFormed_inv_wa : Instr.wellFormed (.inv 0 8) = false := by decide
theorem test_illFormed_enc_wd : Instr.wellFormed (.enc 8) = false := by decide
theorem test_illFormed_mix_wd : Instr.wellFormed (.mix 8 0 1) = false := by decide
theorem test_illFormed_mix_wa : Instr.wellFormed (.mix 2 8 1) = false := by decide
theorem test_illFormed_mix_wb : Instr.wellFormed (.mix 2 0 9) = false := by decide
theorem test_illFormed_ext_wd : Instr.wellFormed (.ext 8 0 1) = false := by decide
theorem test_illFormed_ext_wa : Instr.wellFormed (.ext 2 8 1) = false := by decide
theorem test_illFormed_ext_wb : Instr.wellFormed (.ext 2 0 8) = false := by decide
theorem test_illFormed_fmix_wd : Instr.wellFormed (.fmix 8 0 1) = false := by decide
theorem test_illFormed_fmix_wa : Instr.wellFormed (.fmix 2 8 1) = false := by decide
theorem test_illFormed_fmix_wb : Instr.wellFormed (.fmix 2 0 8) = false := by decide
theorem test_illFormed_digest_wd : Instr.wellFormed (.digest 8) = false := by decide

/-! ### Decode: every command's word written out bit by bit from R61 to R63 (op, wd, wa, wb, imm), and V-DEC's illegal words -/

/-- `LDI W7, #4095` -/
theorem test_decode_ldi : decode 0b00000001_0111_0000_0000_111111111111#32 = some (.ldi 7 4095) := by decide
/-- `LDB W2` -/
theorem test_decode_ldb : decode 0b00000010_0010_0000_0000_000000000000#32 = some (.ldb 2) := by decide
/-- `ROL W0, W2, #511` -/
theorem test_decode_rol : decode 0b00010000_0000_0010_0000_000111111111#32 = some (.rol 0 2 511) := by decide
/-- `ROR W1, W0, #1030` -/
theorem test_decode_ror : decode 0b00010001_0001_0000_0000_010000000110#32 = some (.ror 1 0 1030) := by decide
/-- `INV W4, W3` -/
theorem test_decode_inv : decode 0b00010010_0100_0011_0000_000000000000#32 = some (.inv 4 3) := by decide
/-- `ENC W0` -/
theorem test_decode_enc : decode 0b00100000_0000_0000_0000_000000000000#32 = some (.enc 0) := by decide
/-- `MIX W2, W0, W1` -/
theorem test_decode_mix : decode 0b00110000_0010_0000_0001_000000000000#32 = some (.mix 2 0 1) := by decide
/-- `EXT W3, W0, W2` -/
theorem test_decode_ext : decode 0b01000000_0011_0000_0010_000000000000#32 = some (.ext 3 0 2) := by decide
/-- `FMIX W6, W3, W5` -/
theorem test_decode_fmix : decode 0b01010000_0110_0011_0101_000000000000#32 = some (.fmix 6 3 5) := by decide
/-- `DIGEST W7` -/
theorem test_decode_digest : decode 0b01100000_0111_0000_0000_000000000000#32 = some (.digest 7) := by decide

theorem test_decode_illegal : [0x00000000#32, 0xFFFFFFFF#32, 0x03000000#32, 0x30801000#32, 0x30281000#32, 0x30209000#32,
    0x30201001#32, 0x20010000#32, 0x20000001#32, 0x12431000#32, 0x100A0001#32, 0x10002000#32, 0x01110001#32, 0x02800000#32,
    0x31201000#32].all (fun c => decode c == none) = true := by decide

/-- R68: the listing of R179's third line. -/
theorem test_listing : Instr.listing (.mix 2 0 1) = "MIX W2, W0, W1" := by decide
theorem test_listing_immediate : Instr.listing (.ldi 1 1) = "LDI W1, #1" := by decide

/-- The host's table words: the decoder and the step, right after reset. -/
theorem test_fetch : decodeTableWord 32 0x50635000 = some (.fmix 6 3 5) ∧
    step (State.reset.withFetchWord 32 0x50635000) = exec (.fmix 6 3 5) State.reset := ⟨by decide, rfl⟩

/-! ### One step of each command -/

/-- The state after reset with three registers set. -/
def withRegs (w0 w3 w5 : Word) : State := { State.reset with w := #v[w0, 0, 0, w3, 0, w5, 0, 0] }

/-- The next state, where there is one. -/
def nextState : Host.Outcome State Fault Refusal → Option State
  | .next t => some t
  | .fault _ => none
  | .refused _ => none

/-- Register `r` of the next state. -/
def regAfter (r : Fin 8) (o : Host.Outcome State Fault Refusal) : Option Word := (nextState o).map (fun t => t.w[r])

/-- V-LD-1 -/
theorem test_ldi : regAfter 7 (exec (.ldi 7 4095) (withRegs 0 0 0)) = some 4095 := by decide +kernel
/-- V-ROT-2 and V-ROT-7 -/
theorem test_rol : regAfter 1 (exec (.rol 1 0 1) (withRegs (BitVec.twoPow 512 511) 0 0)) = some 1 := by decide +kernel
theorem test_rol_4095 : regAfter 1 (exec (.rol 1 0 4095) (withRegs 1 0 0)) = some (BitVec.twoPow 512 511) := by decide +kernel
/-- V-ROT-3 and V-ROT-8 -/
theorem test_ror : regAfter 1 (exec (.ror 1 0 7) (withRegs 1 0 0)) = some (BitVec.twoPow 512 505) := by decide +kernel
theorem test_ror_1030 : regAfter 1 (exec (.ror 1 0 1030) (withRegs (BitVec.twoPow 512 511 ||| 1) 0 0)) =
    some (BitVec.twoPow 512 506 ||| BitVec.twoPow 512 505) := by decide +kernel
/-- R96's example -/
theorem test_inv : regAfter 4 (exec (.inv 4 3) (withRegs 0 0 0)) = some (BitVec.allOnes 512) := by decide +kernel
/-- V-FMIX-1 and V-FMIX-2 -/
theorem test_fmix : regAfter 6 (exec (.fmix 6 3 5) (withRegs 0 1 0)) =
    some (BitVec.twoPow 512 505 ||| BitVec.twoPow 512 13 ||| BitVec.twoPow 512 6 ||| 1) := by decide +kernel
theorem test_fmix_wraps : regAfter 3 (exec (.fmix 3 3 5) (withRegs 0 (BitVec.twoPow 512 511) 0)) =
    some (BitVec.twoPow 512 511 ||| BitVec.twoPow 512 504 ||| BitVec.twoPow 512 12 ||| BitVec.twoPow 512 5) := by
  decide +kernel

/-- A state whose message is the given bytes. -/
def withMessage (bytes : List Byte) : State :=
  { msgWrite 0 bytes State.reset with msgLen := BitVec.ofNat 32 bytes.length }

/-- A length of at most 128 is within MSGCAP, whatever MSGCAP is (R9). -/
theorem inRange_of_le {s : State} (h : s.msgLen.toNat ≤ 128) (i : Instr) (t : State) : ifInRange i s t = t := by
  unfold ifInRange
  have := msgCap_ge
  exact if_neg (by omega)

/-- V-LD-3 -/
theorem test_ldb : regAfter 0 (exec (.ldb 0) (withMessage (0x80#8 :: List.replicate 63 0#8))) =
    some (BitVec.twoPow 512 511) := by
  have h : exec (.ldb 0) (withMessage (0x80#8 :: List.replicate 63 0#8)) =
      .next (writeReg 0 (bytesToWord (message (withMessage (0x80#8 :: List.replicate 63 0#8))))
        (withMessage (0x80#8 :: List.replicate 63 0#8))) := by
    simp only [exec, execLdb]
    rw [inRange_of_le (by decide)]
    rfl
  rw [h]
  decide +kernel
/-- V-ERR-3: a width of 504 bits. -/
theorem test_ldb_short : nextState (exec (.ldb 1) (withMessage (List.replicate 63 0#8))) =
    some { withMessage (List.replicate 63 0#8) with err := 1, errInfo := 0x02100000#32 } := by
  simp only [exec, execLdb]
  rw [inRange_of_le (by decide)]
  decide +kernel

/-- V-ENC-2: "abc" -/
theorem test_enc : nextState (exec (.enc 0) (withMessage [0x61#8, 0x62#8, 0x63#8])) =
    some (writeReg 0 (0x61626380#512 <<< 480 ||| 0x18#512) (withMessage [0x61#8, 0x62#8, 0x63#8])) := by
  simp only [exec, execEnc]
  rw [inRange_of_le (by decide)]
  decide +kernel
/-- V-ENC-1, V-ENC-6: the empty message, and 64 bytes 0x61 in two chunks. -/
theorem test_encodeToBlock : encodeToBlock [] = BitVec.twoPow 512 511 ∧
    encodeToBlock (List.replicate 64 0x61#8) = 0xe1616161616161616161616161616161616161616161616161616161616161616161616161616161616161616161616161616161616161616161616161616361#512 := by
  decide +kernel

/-- V-MIX-2: the state after iteration 2 of `Mix(2^511, 1)`. -/
theorem test_mix_rounds : (mixRounds Config.num Config.quantMul (BitVec.twoPow 512 511) 1 3).state =
    0xe8e55b6dbdbfa8b0f8feb727e1a06b67ac5bcf2bcfe36f4f2aaba5eaf64a647e39c9cf2a97115c5662f1bcd349365763a09f6da92430dad9e9a44161864daa6e := by
  decide +kernel
/-- V-MIX-9: quantisation at -1, 1, 0 and next above -1. -/
theorem test_quantize : quantize .exact (F64.ofBits 0xBFF0000000000000#64) = 1 ∧
    quantize .exact (F64.ofBits 0x3FF0000000000000#64) = 2 ^ 256 - 1 ∧
    quantize .exact (F64.ofBits 0#64) = 2 ^ 255 - 1 ∧
    quantize .exact (F64.ofBits 0xBFEFFFFFFFFFFFFF#64) = 2 ^ 202 - 1 := by
  decide +kernel

/-- V-SYM: the symbols at 45 degrees, just above, and at 90 degrees. -/
theorem test_symbol : symbol Config.num (F64.ofBits 0x4046800000000000#64) = 0 ∧
    symbol Config.num (F64.ofBits 0x4046800000000001#64) = 3 ∧
    symbol Config.num (F64.ofBits 0x4056800000000000#64) = 2 := by
  decide +kernel
/-- V-CRV-1 and V-CRV-2: two sample positions, and a grid point. -/
theorem test_curve : (samplePos 0 2).toBits = 0x4014666666666667#64 ∧ (samplePos 127 2).toBits = 0x4070319999999999#64 ∧
    (gridPoint (samplePos 0 2) ((samplePos 255 0).add (F64.ofNat 1)) 2558).toBits = 0x408010CEE17CF2E5#64 := by
  decide +kernel

/-- V-ERR-6, for DIGEST's word in place of 0xFFFFFFFF: a message above MSGCAP with an error recorded already. -/
theorem test_digest_sticky (s : State) (h : Config.msgCap < s.msgLen.toNat) (he : s.err = 1) :
    exec (.digest 7) s = .next s := by
  simp [exec, execDigest, ifLegal, Instr.wellFormed, legalReg, ifInRange, h, raise, he]
/-- R175: the pipeline of the empty message starts from the block `2^511` and the state 1. -/
theorem test_digest_pipeline (num : Numerics) (q : QuantMul) :
    digestValue num q [] = digestBlock num q (BitVec.twoPow 512 511) := by
  rw [digestValue, test_encodeToBlock.1]

/-! ### The tables, the window, reset -/

/-- V-LUT: `SINTAB[30]`, `COSTAB[60]`, `SINTAB[180]`, `SINTAB[359]`. -/
theorem test_tables : (sinTab Config.num 30).toBits = 0x3FDFFFFFFFFFFFFF#64 ∧
    (cosTab Config.num 60).toBits = 0x3FE0000000000001#64 ∧ (sinTab Config.num 180).toBits = 0x3CA1A62633145C07#64 ∧
    (sinTab Config.num 359).toBits = 0xBF91DF0B2B89DD2C#64 := by
  decide +kernel
/-- R15: the bit patterns of DEG2RAD and RAD2DEG. -/
theorem test_constants : F64.deg2rad.toBits = 0x3F91DF46A2529D39#64 ∧ F64.rad2deg.toBits = 0x404CA5DC1A63C1F8#64 := by
  decide +kernel
/-- V-WIN-2 -/
theorem test_romWindow : hostRead (0x10F0 / 4) State.reset = 0x3FDFFFFF#32 ∧ hostRead (0x10F4 / 4) State.reset = 0xFFFFFFFF#32 ∧
    hostRead (0x1B40 / 4) State.reset = 0 := by
  decide +kernel
/-- V-WIN-3 -/
theorem test_registerWindow : hostRead (0x017C / 4) (writeReg 1 1 State.reset) = 1 ∧
    hostRead (0x0140 / 4) (writeReg 1 (BitVec.twoPow 512 511) State.reset) = 0x80000000#32 := by
  decide +kernel
/-- V-ERR-1: MIX with `wd` = 8, then V-ERR-6's clearing write. -/
theorem test_illegalWord : nextState (hostWrite 0 0x30801000#32 State.reset) =
    some { State.reset with err := 3, errInfo := 0x30801000#32 } ∧
    nextState (hostWrite 1 1#32 { State.reset with err := 3, errInfo := 0x30801000#32 }) = some State.reset ∧
    nextState (hostWrite 1 0x10#32 { State.reset with err := 3 }) = some { State.reset with err := 3 } := by
  decide +kernel
/-- Hex128 of a small value (R185's example). -/
theorem test_hex128 : hex128 1 = String.ofList (List.replicate 127 '0' ++ ['1']) := by decide +kernel

/-! ### Witnesses: states and operands that meet the hypotheses of each statement -/

/-- A length register at, just below and just above MSGCAP. -/
theorem lengthAt (n : Nat) (h : n ≤ Config.msgCap + 1) :
    ({ State.reset with msgLen := BitVec.ofNat 32 n } : State).msgLen.toNat = n := by
  have h1 := Config.msgCapExtraWords.isLt
  have h2 : Config.msgCap + 1 < 2 ^ 32 := by unfold Config.msgCap; omega
  exact BitVec.toNat_ofNat n 32 ▸ Nat.mod_eq_of_lt (by omega)

theorem witness_LdiWritesImmediate : legalReg 0 = true ∧ legalReg 7 = true := by decide
theorem witness_LdbWritesMessageBytes : legalReg 2 = true ∧ ({ State.reset with msgLen := 64 } : State).msgLen = 64#32 := by
  decide
/-- The lengths 0, 63, 65 and MSGCAP itself. -/
theorem witness_LdbWrongLengthRaises : legalReg 1 = true ∧ ∀ n, n = 0 ∨ n = 63 ∨ n = 65 ∨ n = Config.msgCap →
    ({ State.reset with msgLen := BitVec.ofNat 32 n } : State).msgLen.toNat ≤ Config.msgCap ∧
    ({ State.reset with msgLen := BitVec.ofNat 32 n } : State).msgLen.toNat ≠ 64 := by
  refine ⟨by decide, fun n h => ?_⟩
  have := msgCap_ge
  rw [lengthAt n (by omega)]
  omega
/-- The length MSGCAP + 1, for each of the three commands. -/
theorem witness_LongMessageRaisesLengthRange : legalReg 1 = true ∧
    Config.msgCap < ({ State.reset with msgLen := BitVec.ofNat 32 (Config.msgCap + 1) } : State).msgLen.toNat ∧
    Instr.ldb 1 ∈ [Instr.ldb 1, Instr.enc 1, Instr.digest 1] ∧ Instr.enc 1 ∈ [Instr.ldb 1, Instr.enc 1, Instr.digest 1] ∧
    Instr.digest 1 ∈ [Instr.ldb 1, Instr.enc 1, Instr.digest 1] := by
  rw [lengthAt _ le_rfl]
  simp [legalReg]
theorem witness_RolRotatesLeft : legalReg 1 = true ∧ legalReg 0 = true := by decide
theorem witness_RorRotatesRight : legalReg 7 = true ∧ legalReg 7 = true := by decide
theorem witness_InvFlipsEveryBit : legalReg 4 = true ∧ legalReg 3 = true := by decide
theorem witness_MovCopiesRegister : legalReg 5 = true ∧ legalReg 6 = true := by decide
/-- The lengths 0 and MSGCAP itself. -/
theorem witness_EncWritesEncodedMessage : legalReg 0 = true ∧ State.reset.msgLen.toNat ≤ Config.msgCap ∧
    ({ State.reset with msgLen := BitVec.ofNat 32 Config.msgCap } : State).msgLen.toNat ≤ Config.msgCap := by
  refine ⟨by decide, by simp [State.reset], ?_⟩
  rw [lengthAt _ (by omega)]
theorem witness_MixWritesMixedState : legalReg 2 = true ∧ legalReg 0 = true ∧ legalReg 1 = true := by decide
theorem witness_ExtWritesSymbols : legalReg 3 = true ∧ legalReg 0 = true ∧ legalReg 2 = true := by decide
theorem witness_FmixWritesFinalMix : legalReg 6 = true ∧ legalReg 3 = true ∧ legalReg 5 = true := by decide
theorem witness_DigestWritesPipelineValue : legalReg 7 = true ∧ State.reset.msgLen.toNat ≤ Config.msgCap ∧
    ({ State.reset with msgLen := BitVec.ofNat 32 Config.msgCap } : State).msgLen.toNat ≤ Config.msgCap := by
  refine ⟨by decide, by simp [State.reset], ?_⟩
  rw [lengthAt _ (by omega)]
theorem witness_IllFormedCommandRaises : Instr.wellFormed (.mix 2 0 8) = false := by decide
/-- A command that completes, and one that fails. -/
theorem witness_CommandFrame : exec (.ldi 1 5) State.reset = .next (writeReg 1 (immWord 5) State.reset) ∧
    exec (.ldi 8 5) State.reset = .next (raise .illegalCommand (encode (.ldi 8 5)) State.reset) ∧
    (raise .illegalCommand (encode (.ldi 8 5)) State.reset).err ≠ State.reset.err ∧
    (writeReg 1 (immWord 5) State.reset).err = State.reset.err :=
  ⟨rfl, rfl, by decide, rfl⟩
/-- LDB with its one length, and another command with the length MSGCAP. -/
theorem witness_DestinationDoesNotMatter : (Instr.wellFormed (.ldb 3) = true ∧ legalReg 4 = true ∧
    ({ State.reset with msgLen := 64 } : State).msgLen.toNat ≤ Config.msgCap ∧
    ((∃ wd, Instr.ldb 3 = .ldb wd) → ({ State.reset with msgLen := 64 } : State).msgLen = 64#32)) ∧
    (Instr.wellFormed (.fmix 3 3 5) = true ∧ legalReg 6 = true ∧
    ({ State.reset with msgLen := BitVec.ofNat 32 Config.msgCap } : State).msgLen.toNat ≤ Config.msgCap ∧
    ((∃ wd, Instr.fmix 3 3 5 = .ldb wd) →
      ({ State.reset with msgLen := BitVec.ofNat 32 Config.msgCap } : State).msgLen = 64#32)) := by
  have h := msgCap_ge
  refine ⟨⟨by decide, by decide, ?_, fun _ => rfl⟩, ⟨by decide, by decide, ?_, fun ⟨_, h⟩ => by cases h⟩⟩
  · show 64 ≤ Config.msgCap
    omega
  · rw [lengthAt _ (by omega)]
/-- Two states that differ in the byte at MSGLEN and agree below it. -/
theorem witness_BytesAboveLengthDoNotMatter :
    (withMessage [1#8]).msgLen = 1#32 ∧ (msgWrite 1 [7#8] (withMessage [1#8])).w = (withMessage [1#8]).w ∧
    (msgWrite 1 [7#8] (withMessage [1#8])).err = (withMessage [1#8]).err ∧
    (msgWrite 1 [7#8] (withMessage [1#8])).errInfo = (withMessage [1#8]).errInfo ∧
    (msgWrite 1 [7#8] (withMessage [1#8])).msgLen = (withMessage [1#8]).msgLen ∧
    ∀ a < (withMessage [1#8]).msgLen.toNat, msgByte a (msgWrite 1 [7#8] (withMessage [1#8])) = msgByte a (withMessage [1#8]) := by
  refine ⟨rfl, rfl, rfl, rfl, rfl, fun a h => ?_⟩
  have : a = 0 := by
    have e : (withMessage [1#8]).msgLen.toNat = 1 := rfl
    omega
  subst this
  rfl
/-- A word with bit 0 of [3:0] set, one with bit 3 set, and one with none set. -/
theorem witness_StatusWriteClearsError : (1#32).toNat % 16 ≠ 0 ∧ (8#32).toNat % 16 ≠ 0 ∧ (0xFFFFFFF0#32).toNat % 16 = 0 := by
  decide
theorem witness_RecordedErrorDoesNotBlock : (3#4 : BitVec 4) ≠ 0 := by decide
theorem witness_StepRunsDecodedCommand :
    (({ State.reset with pending := [.write 0 0x01100001#32] } : State).pending = .write 0 0x01100001#32 :: [] ∧
      decode 0x01100001#32 = some (.ldi 1 1)) ∧
    ({ State.reset with pending := [.write 3 64#32] } : State).pending = .write 3 64#32 :: [] ∧
    decodeTableWord 32 0x01100001 = some (.ldi 1 1) := by
  decide
theorem witness_IllegalWordRaises :
    ({ State.reset with pending := [.write 0 0#32] } : State).pending = .write 0 0#32 :: [] ∧ decode 0#32 = none := by
  decide
theorem witness_ReadsAndIdlingChangeNothing :
    ({ State.reset with pending := [.read 1] } : State).pending = .read 1 :: [] ∧ State.reset.pending = [] := by
  decide
/-- The state after reset satisfies the invariant, and its step answers. -/
theorem witness_StepKeepsInvariant : legalErr State.reset.err = true ∧ (State.reset.err = 0 → State.reset.errInfo = 0) ∧
    Memory.wf State.reset.msg = true ∧ Memory.inRange State.reset.msg = true ∧ step State.reset = .next State.reset :=
  ⟨by decide, by decide, by decide, by decide, rfl⟩
theorem witness_TrigWindowsShowTables : 0 < 360 ∧ 359 < 360 := by decide
/-- The first and the last word of each reserved range, and the first word after the message window. -/
theorem witness_ReservedOffsetsReadZero : (0x0010 ≤ 4 * 4 ∧ 4 * 4 ≤ 0x00FC) ∧ (0x0010 ≤ 4 * 63 ∧ 4 * 63 ≤ 0x00FC) ∧
    (0x0300 ≤ 4 * 192 ∧ 4 * 192 ≤ 0x0FFC) ∧ (0x0300 ≤ 4 * 1023 ∧ 4 * 1023 ≤ 0x0FFC) ∧
    (0x1B40 ≤ 4 * 1744 ∧ 4 * 1744 ≤ 0x1FFC) ∧ (0x1B40 ≤ 4 * 2047 ∧ 4 * 2047 ≤ 0x1FFC) ∧
    (0x2B40 ≤ 4 * 2768 ∧ 4 * 2768 ≤ 0x3FFC) ∧ (0x2B40 ≤ 4 * 4095 ∧ 4 * 4095 ≤ 0x3FFC) ∧
    0x4000 + Config.msgCap ≤ 4 * (4096 + Config.msgCap / 4) := by
  obtain ⟨k, hk⟩ := msgCap_dvd
  omega
/-- The first and the last word of the message window. -/
theorem witness_MessageWindowReadsAndWrites : 0 < Config.msgCap / 4 ∧ Config.msgCap / 4 - 1 < Config.msgCap / 4 := by
  have := msgCap_ge
  omega
theorem witness_RotationFormulas : ((511 : Nat) : Int) = -1 % 512 ∧ ((0 : Nat) : Int) = 512 % 512 := by decide
/-- Messages of 64 + 1 and 64 + 55 bytes. -/
theorem witness_FoldCollision : (1 ≤ [0x41#8].length ∧ [0x41#8].length ≤ 55 ∧ [0x42#8].length = [0x41#8].length ∧
    (List.replicate 63 0#8).length = 64 - [0x41#8].length) ∧
    (1 ≤ (List.replicate 55 1#8).length ∧ (List.replicate 55 1#8).length ≤ 55 ∧
    (List.replicate 55 2#8).length = (List.replicate 55 1#8).length ∧
    (List.replicate 9 0#8).length = 64 - (List.replicate 55 1#8).length) := by
  decide
/-- Iterations 0 and 255 of a block of group values 3, with the shift of each. -/
theorem witness_MixIterationSteps : ∃ (num : Numerics) (block : Word) (acc : MixAcc), ∀ i, i = 0 ∨ i = 255 → i < 256 ∧
    ∃ (g base : Nat) (angle phase sinVal cosVal : F64) (powmod shift : Nat) (rotated : Word),
      g = block.toNat / 2 ^ (510 - 2 * i) % 4 ∧
      base = (if g = 0 then 23 else if g = 1 then 29 else if g = 2 then 31 else 37) ∧
      angle = (F64.ofNat ((g + 1) * (i + 2))).mul F64.deg2rad ∧
      phase = sinDeg num (((F64.ofNat (acc.state % 2 ^ 30)).div (F64.ofNat (2 ^ 30))).mul (F64.ofNat 360)) ∧
      sinVal = num.sin (angle.add phase) ∧ cosVal = num.cos (angle.sub phase) ∧
      powmod = base ^ (i + 1 + quantize .exact sinVal % 2 ^ 30) % (2 ^ 521 - 1) ∧
      (shift : Int) = max 1 ((2 * (i : Int) - 1 + acc.prevBase * base) % 511) ∧
      rotated = rotL (BitVec.ofNat 512 (acc.state * powmod % (2 ^ 521 - 1)) ^^^
        BitVec.ofNat 512 (quantize .exact cosVal * 2 ^ shift)) shift := by
  refine ⟨Config.num, BitVec.allOnes 512, ⟨1, 0⟩, fun i hi => ⟨by omega, _, _, _, _, _, _, _,
    (max 1 ((2 * (i : Int) - 1 + (⟨1, 0⟩ : MixAcc).prevBase * _) % 511)).toNat, _, rfl, rfl, rfl, rfl, rfl, rfl, rfl,
    Int.toNat_of_nonneg (le_max_of_le_left (by decide)), rfl⟩⟩
/-- A NUM whose every function answers 0. -/
def zeroNum : Numerics := ⟨fun _ => F64.zero false, fun _ => F64.zero false, fun _ => F64.zero false⟩
/-- It satisfies N2 and N3. -/
theorem zeroNum_assumed : zeroNum.Assumed := by
  have h : (F64.zero false).rat = 0 := by decide +kernel
  have hp : (0 : ℚ) ≤ (F64.pi.div (F64.ofNat 2)).rat := by rw [halfPi_rat]; norm_num
  have bounded : ∀ c : ℚ, 0 ≤ c → Numerics.Bounded (fun _ => F64.zero false) c :=
    fun c hc x _ => ⟨(by decide : (F64.zero false).canonical = true), rfl, by simp only [h]; linarith, by simp only [h]; linarith⟩
  exact ⟨bounded 1 (by norm_num), bounded 1 (by norm_num), bounded _ hp⟩
/-- The values -1, 1, and the binary64 next above -1; the least and the greatest number of degrees. -/
theorem witness_QuantizeRange : zeroNum.Assumed ∧ (2 ≤ 1028 ∧ 1028 ≤ 1028) ∧ ∀ v ∈ [F64.ofBits 0xBFF0000000000000#64, F64.ofBits 0x3FF0000000000000#64,
    F64.ofBits 0xBFEFFFFFFFFFFFFF#64], v.canonical = true ∧ v.isFinite = true ∧ -1 ≤ v.rat ∧ v.rat ≤ 1 :=
  ⟨zeroNum_assumed, by decide, by decide +kernel⟩
/-- -1 for the one clause, the binary64 next above -1 and 1 for the other. -/
theorem witness_ExponentTakesTwoValues : (F64.ofBits 0xBFF0000000000000#64).rat = -1 ∧
    (∀ v ∈ [F64.ofBits 0x3FF0000000000000#64, F64.ofBits 0xBFEFFFFFFFFFFFFF#64], v.rat ≠ -1) ∧
    ∀ v ∈ [F64.ofBits 0xBFF0000000000000#64, F64.ofBits 0x3FF0000000000000#64, F64.ofBits 0xBFEFFFFFFFFFFFFF#64],
      v.canonical = true ∧ v.isFinite = true ∧ -1 ≤ v.rat ∧ v.rat ≤ 1 := by
  decide +kernel
theorem witness_PhaseIndexIsExact : 0 < 2 ^ 30 ∧ 2 ^ 30 - 1 < 2 ^ 30 := by decide
/-- -0.5, whose index is 359 (R81). -/
theorem witness_LutIndexIsFloorMod : (F64.ofBits 0xBFE0000000000000#64).isFinite = true ∧
    lutIndex (F64.ofBits 0xBFE0000000000000#64) = some 359 := by
  decide +kernel
/-- The greatest finite binary64 and 1, at the bound in a product and a quotient; 1 and 3, all four results finite. -/
theorem witness_OperatorsRoundOnce : (∀ x ∈ [F64.ofBits 0x7FEFFFFFFFFFFFFF#64, F64.ofNat 1, F64.ofNat 3], x.isFinite = true) ∧
    |(F64.ofBits 0x7FEFFFFFFFFFFFFF#64).rat * (F64.ofNat 1).rat| = (2 ^ 53 - 1) * 2 ^ 971 ∧ (F64.ofNat 1).rat ≠ 0 ∧
    |(F64.ofBits 0x7FEFFFFFFFFFFFFF#64).rat / (F64.ofNat 1).rat| = (2 ^ 53 - 1) * 2 ^ 971 ∧
    ((F64.ofNat 1).add (F64.ofNat 3)).isFinite = true ∧ ((F64.ofNat 1).sub (F64.ofNat 3)).isFinite = true ∧
    ((F64.ofNat 1).mul (F64.ofNat 3)).isFinite = true ∧ (F64.ofNat 3).rat ≠ 0 ∧
    ((F64.ofNat 1).div (F64.ofNat 3)).isFinite = true := by
  decide +kernel
/-- The operands 0, 1 and -1, and the greatest finite one. -/
theorem witness_ElementaryCorrectlyRounded : ∀ x ∈ [F64.ofBits 0#64, F64.ofBits 0x3FF0000000000000#64,
    F64.ofBits 0xBFF0000000000000#64, F64.ofBits 0x7FEFFFFFFFFFFFFF#64], x.isFinite = true := by
  decide +kernel
/-- The NUM whose every function answers 0. -/
theorem witness_CurveParamsInRange : zeroNum.Assumed := zeroNum_assumed
/-- That NUM, with the block and the seed of all zeros. -/
theorem witness_CurveValuesAreFinite : ∃ (p : CurveParams) (xs : List F64) (x y : Nat → F64), zeroNum.Assumed ∧
    p = curveParams zeroNum 0 ∧ xs = samplePositions 0 ∧ x = gridPoint (gridEnds xs).1 (gridEnds xs).2 ∧
    y = (fun j => curveAt zeroNum p (x j)) ∧ (curveAngles zeroNum 0 0).length = 256 :=
  ⟨_, _, _, _, zeroNum_assumed, rfl, rfl, rfl, rfl, by simp [curveAngles, samplePositions]⟩
theorem witness_SamplePositionsSpread : (0 + 2 ≤ 2 ∧ 2 < 256 ∧ 2 < 4 ∧ 3 < 4) ∧ (253 + 2 ≤ 255 ∧ 255 < 256) ∧ 254 < 255 := by
  decide
/-- The grid of V-CRV-2: its ends are sample positions. -/
theorem witness_GridHasItsEnds : (samplePos 0 2).canonical = true ∧ (samplePos 0 2).isFinite = true ∧
    (samplePos 255 0).isFinite = true ∧ |(samplePos 0 2).rat| ≤ 2 ^ 64 ∧ |(samplePos 255 0).rat| ≤ 2 ^ 64 := by
  decide +kernel
/-- A grid of three points, of which the last two are equally near. -/
theorem witness_NearestIndexIsLeastMinimiser : [F64.ofNat 9, F64.ofNat 3, F64.ofNat 5] ≠ [] ∧
    (∀ p ∈ [F64.ofNat 9, F64.ofNat 3, F64.ofNat 5], (p.sub (F64.ofNat 4)).isFinite = true) ∧
    nearestIndex (F64.ofNat 4) [F64.ofNat 9, F64.ofNat 3, F64.ofNat 5] = 1 := by
  decide +kernel
/-- Four values with a tie for the greatest: the lower index wins. -/
theorem witness_ArgmaxIsLeastMaximal : (∀ n : Fin 4, (![F64.ofNat 1, F64.ofNat 2, F64.ofNat 0, F64.ofNat 2] n).isFinite = true) ∧
    argmax (F64.ofNat 1, F64.ofNat 2, F64.ofNat 0, F64.ofNat 2) = 1 := by
  decide +kernel
theorem witness_DigestEqualsCommandSequence : State.reset.msgLen.toNat ≤ Config.msgCap ∧
    ({ State.reset with msgLen := BitVec.ofNat 32 Config.msgCap } : State).msgLen.toNat ≤ Config.msgCap := by
  refine ⟨by simp [State.reset], ?_⟩
  rw [lengthAt _ (by omega)]
theorem witness_DecodeOfEncode : Instr.wellFormed (.ror 7 7 4095) = true := by decide
/-- A word that matches a row, and its command. -/
theorem witness_DecodeFollowsTheRows : (∃ r ∈ opcodeMap, r.matchesWord 0x50635000#32 = true) ∧
    decode 0x50635000#32 = some (.fmix 6 3 5) :=
  ⟨⟨opcodeMap[8], List.getElem_mem _, by decide⟩, by decide⟩

end Sys2Proof.Tests
end

section
/-! The host window (20_memory.md R43 to R56): where the words of each area lie, what a read of them returns and what a write
of them does. -/

namespace Sys2Proof.Machine

/-! ### Reads and writes through the map -/

theorem hostRead_of_locate {word : Nat} {cell : WindowCell} (h : locate word = cell) (s : State) :
    hostRead word s = readCell Config.num s cell := by
  rw [hostRead, h]

theorem hostWrite_of_locate {word : Nat} {cell : WindowCell} (h : locate word = cell) (hc : cell ≠ .cmd) (v : Word32)
    (s : State) : hostWrite word v s = .next (writeCell v s cell) := by
  obtain ⟨hcmd, _⟩ | ⟨_, hw⟩ := hostWrite_cases word v s
  · exact absurd (h.symm.trans hcmd) hc
  · rw [hw, h]

/-! ### The four areas of the map -/

theorem locate_eq_registerCell {word : Nat} (h : 4 * word < 0x1000) : locate word = registerCell (4 * word) :=
  if_pos h

theorem locate_eq_sinCell {word : Nat} (h₁ : 0x1000 ≤ 4 * word) (h₂ : 4 * word < 0x2000) :
    locate word = sinCell (4 * word) := by
  rw [locate, locateOffset, if_neg (by omega), if_pos h₂]

theorem locate_eq_cosCell {word : Nat} (h₁ : 0x2000 ≤ 4 * word) (h₂ : 4 * word < 0x4000) :
    locate word = cosCell (4 * word) := by
  rw [locate, locateOffset, if_neg (by omega), if_neg (by omega), if_pos h₂]

theorem locate_eq_msgCell {word : Nat} (h : 0x4000 ≤ 4 * word) : locate word = msgCell (4 * word) := by
  rw [locate, locateOffset, if_neg (by omega), if_neg (by omega), if_neg (by omega)]

/-! ### The data-register window -/

theorem locate_registerWord (i : Fin 8) (k : Fin 16) : locate (64 + 16 * i.val + k.val) = .wwin i k := by
  have hi := i.isLt
  have hk := k.isLt
  have hreg : Fin.ofNat 8 ((4 * (64 + 16 * i.val + k.val) - 0x0100) / 64) = i := Fin.ext (by simp only [Fin.ofNat]; omega)
  have hword : Fin.ofNat 16 ((4 * (64 + 16 * i.val + k.val) - 0x0100) % 64 / 4) = k :=
    Fin.ext (by simp only [Fin.ofNat]; omega)
  rw [locate_eq_registerCell (by omega), registerCell, if_neg (by omega), if_neg (by omega), if_neg (by omega),
    if_neg (by omega), if_neg (by omega), if_pos (by omega), hreg, hword]

theorem hostRead_registerWord (i : Fin 8) (k : Fin 16) (s : State) :
    hostRead (64 + 16 * i.val + k.val) s = wordOf s.w[i] k :=
  hostRead_of_locate (locate_registerWord i k) s

theorem wordOf_toNat (v : Word) (k : Nat) : (wordOf v k).toNat = v.toNat / 2 ^ (480 - 32 * k) % 2 ^ 32 := by
  rw [wordOf, BitVec.extractLsb'_toNat, Nat.shiftRight_eq_div_pow]

/-! ### Hexadecimal digits (47_orchestrator.md R176) -/

theorem hex128_length (v : Word) : (hex128 v).length = 128 := by
  simp [hex128]

theorem hex128_getElem? (v : Word) {n : Nat} (hn : n < 128) : (hex128 v).toList[n]? = some (hexDigitAt v n) := by
  simp [hex128, hn]

theorem getElem?_hexDigits {n : Nat} (hn : n < 16) : "0123456789abcdef".toList[n]? = some (hexDigit n) := by
  have hlen : n < "0123456789abcdef".toList.length := hn
  rw [hexDigit, List.getD_eq_getElem?_getD, List.getElem?_eq_getElem hlen, Option.getD_some]

/-- Word `k` of a value holds the digits `8k .. 8k+7`, four bits each. -/
theorem hexDigitAt_eq_wordOf (v : Word) {k n : Nat} (hk : k < 16) (hn : n < 8) :
    hexDigitAt v (8 * k + n) = hexDigit ((wordOf v k).toNat / 2 ^ (28 - 4 * n) % 16) := by
  have hbits : v.extractLsb' (508 - 4 * (8 * k + n)) 4 = (wordOf v k).extractLsb' (28 - 4 * n) 4 := by
    refine BitVec.eq_of_getLsbD_eq fun j hj => ?_
    have hin : 28 - 4 * n + j < 32 := by omega
    have hplace : 480 - 32 * k + (28 - 4 * n + j) = 508 - 4 * (8 * k + n) + j := by omega
    simp only [wordOf, BitVec.getLsbD_extractLsb', hj, hin, hplace, decide_true, Bool.true_and]
  rw [hexDigitAt, hbits, BitVec.extractLsb'_toNat, Nat.shiftRight_eq_div_pow]

/-! ### The trig ROM windows -/

/-- The offset of an entry's low word is 4 above a multiple of 8, that of its high word a multiple of 8. -/
theorem lowHalf_of_offset {offset m : Nat} {low : Bool} (h : offset = 8 * m + 4 * low.toNat) :
    (offset % 8 == 4) = low := by
  have hmod : offset % 8 = 4 * low.toNat := by have := low.toNat_le; omega
  rw [hmod]
  cases low <;> rfl

theorem locate_sinWord {word d : Nat} {low : Bool} (hd : d < 360) (hw : word = 0x400 + 2 * d + low.toNat) :
    locate word = .sinWin d low := by
  have hlow := low.toNat_le
  have hentry : (4 * word - 0x1000) / 8 = d := by omega
  have hhalf : (4 * word % 8 == 4) = low := lowHalf_of_offset (m := word / 2) (by omega)
  rw [locate_eq_sinCell (by omega) (by omega), sinCell, if_pos (by omega), hentry, hhalf]

theorem locate_cosWord {word d : Nat} {low : Bool} (hd : d < 360) (hw : word = 0x800 + 2 * d + low.toNat) :
    locate word = .cosWin d low := by
  have hlow := low.toNat_le
  have hentry : (4 * word - 0x2000) / 8 = d := by omega
  have hhalf : (4 * word % 8 == 4) = low := lowHalf_of_offset (m := word / 2) (by omega)
  rw [locate_eq_cosCell (by omega) (by omega), cosCell, if_pos (by omega), hentry, hhalf]

theorem halfOf_high_toNat (b : BitVec 64) : (halfOf b false).toNat = b.toNat / 2 ^ 32 := by
  have hb := b.isLt
  simp only [halfOf, Bool.false_eq_true, if_false, BitVec.extractLsb'_toNat, Nat.shiftRight_eq_div_pow]
  omega

theorem halfOf_low_toNat (b : BitVec 64) : (halfOf b true).toNat = b.toNat % 2 ^ 32 := by
  simp [halfOf]

/-! ### The reserved offsets -/

theorem locate_reserved {word : Nat}
    (h : (0x0010 ≤ 4 * word ∧ 4 * word ≤ 0x00FC) ∨ (0x0300 ≤ 4 * word ∧ 4 * word ≤ 0x0FFC) ∨
      (0x1B40 ≤ 4 * word ∧ 4 * word ≤ 0x1FFC) ∨ (0x2B40 ≤ 4 * word ∧ 4 * word ≤ 0x3FFC) ∨
      0x4000 + Config.msgCap ≤ 4 * word) : locate word = .reserved := by
  obtain ⟨hlow, hhigh⟩ | ⟨hlow, hhigh⟩ | ⟨hlow, hhigh⟩ | ⟨hlow, hhigh⟩ | hlow := h
  · rw [locate_eq_registerCell (by omega), registerCell, if_neg (by omega), if_neg (by omega), if_neg (by omega),
      if_neg (by omega), if_pos (by omega)]
  · rw [locate_eq_registerCell (by omega), registerCell, if_neg (by omega), if_neg (by omega), if_neg (by omega),
      if_neg (by omega), if_neg (by omega), if_neg (by omega)]
  · rw [locate_eq_sinCell (by omega) (by omega), sinCell, if_neg (by omega)]
  · rw [locate_eq_cosCell (by omega) (by omega), cosCell, if_neg (by omega)]
  · rw [locate_eq_msgCell (by omega), msgCell, if_neg (by omega)]

/-! ### The message window -/

theorem locate_messageWord {n : Nat} (hn : n < Config.msgCap / 4) : locate (0x1000 + n) = .msgWin n := by
  rw [locate_eq_msgCell (by omega), msgCell, if_pos (by omega), show (4 * (0x1000 + n) - 0x4000) / 4 = n by omega]

theorem append_toNat {m n : Nat} (x : BitVec m) (y : BitVec n) : (x ++ y).toNat = x.toNat * 2 ^ n + y.toNat := by
  rw [BitVec.toNat_append, ← Nat.shiftLeft_add_eq_or_of_lt y.isLt, Nat.shiftLeft_eq]

theorem msgWord_toNat (n : Nat) (s : State) :
    (msgWord n s).toNat = (msgByte (4 * n) s).toNat * 2 ^ 24 + (msgByte (4 * n + 1) s).toNat * 2 ^ 16 +
      (msgByte (4 * n + 2) s).toNat * 2 ^ 8 + (msgByte (4 * n + 3) s).toNat := by
  simp only [msgWord, append_toNat]
  omega

theorem msgByte_msgWrite_inside (a : Nat) {bs : List Byte} {j : Nat} (hj : j < bs.length) (s : State) :
    msgByte (a + j) (msgWrite a bs s) = bs[j] := by
  rw [msgByte_msgWrite, if_pos (by omega), Nat.add_sub_cancel_left, List.getElem?_eq_getElem hj, Option.getD_some]

theorem msgByte_msgWrite_outside {a b : Nat} {bs : List Byte} (h : b < a ∨ a + bs.length ≤ b) (s : State) :
    msgByte b (msgWrite a bs s) = msgByte b s := by
  rw [msgByte_msgWrite, if_neg (by omega)]

/-! ### The statements -/

/-- Settles O28: the window's word and the digits of `Hex128` are fields of the same register. -/
theorem registerWindowShowsRegister : Obligations.RegisterWindowShowsRegister := by
  intro s i k
  have hk := k.isLt
  rw [hostRead_registerWord]
  refine ⟨wordOf_toNat _ _, hex128_length _, fun n hn => ?_,
    fun v => hostWrite_of_locate (locate_registerWord i k) WindowCell.noConfusion v s⟩
  rw [hex128_getElem? _ (by omega), hexDigitAt_eq_wordOf _ hk hn, getElem?_hexDigits (Nat.mod_lt _ (by decide))]

/-- Settles O29: each of the four words of an entry is a half of its ROM cell. -/
theorem trigWindowsShowTables : Obligations.TrigWindowsShowTables := by
  intro s d hd
  have sinHigh : locate (0x400 + 2 * d) = .sinWin d false := locate_sinWord hd rfl
  have sinLow : locate (0x401 + 2 * d) = .sinWin d true := locate_sinWord hd (by rw [Bool.toNat_true]; omega)
  have cosHigh : locate (0x800 + 2 * d) = .cosWin d false := locate_cosWord hd rfl
  have cosLow : locate (0x801 + 2 * d) = .cosWin d true := locate_cosWord hd (by rw [Bool.toNat_true]; omega)
  rw [hostRead_of_locate sinHigh, hostRead_of_locate sinLow, hostRead_of_locate cosHigh, hostRead_of_locate cosLow]
  exact ⟨rfl, rfl, halfOf_high_toNat _, halfOf_low_toNat _, halfOf_high_toNat _, halfOf_low_toNat _, fun v =>
    ⟨hostWrite_of_locate sinHigh WindowCell.noConfusion v s, hostWrite_of_locate sinLow WindowCell.noConfusion v s,
      hostWrite_of_locate cosHigh WindowCell.noConfusion v s, hostWrite_of_locate cosLow WindowCell.noConfusion v s⟩⟩

/-- Settles O30: the map sends every one of the ranges to the reserved cell. -/
theorem reservedOffsetsReadZero : Obligations.ReservedOffsetsReadZero := fun s _ h =>
  ⟨hostRead_of_locate (locate_reserved h) s,
    fun v => hostWrite_of_locate (locate_reserved h) WindowCell.noConfusion v s⟩

/-- Settles O31: the write is a `msgWrite` of four bytes at `4n`, which leaves every other field and byte alone. -/
theorem messageWindowReadsAndWrites : Obligations.MessageWindowReadsAndWrites := by
  intro s n hn
  have hcell := locate_messageWord hn
  rw [hostRead_of_locate hcell]
  refine ⟨msgWord_toNat n s, fun v => ⟨msgWrite (4 * n) (wordBytes v) s,
    hostWrite_of_locate hcell WindowCell.noConfusion v s, ?_⟩⟩
  have hbyte (j : Nat) (hj : j < 4) := msgByte_msgWrite_inside (4 * n) (bs := wordBytes v) hj s
  exact ⟨hbyte 0 (by decide), hbyte 1 (by decide), hbyte 2 (by decide), hbyte 3 (by decide),
    fun a ha => msgByte_msgWrite_outside ha s, fun _ => rfl, rfl, rfl, rfl, rfl, rfl⟩

end Sys2Proof.Machine
end

section
/-! The command word as a sum of its fields, and the pseudo-instruction MOV (30_encoding.md R61, R69). -/

namespace Sys2Proof.Machine

/-- The fields stand at bits 24, 20, 16, 12 and 0 (R61). -/
theorem fields_toWord_toNat (f : Fields) :
    f.toWord.toNat = f.op.toNat * 2 ^ 24 + f.wd.toNat * 2 ^ 20 + f.wa.toNat * 2 ^ 16 + f.wb.toNat * 2 ^ 12 +
      f.imm.toNat := by
  simp only [Fields.toWord, append_toNat]
  omega

theorem encode_rol_toNat (wd wa : RegField) (imm : Imm) :
    (encode (.rol wd wa imm)).toNat = 0x10000000 + wd.toNat * 2 ^ 20 + wa.toNat * 2 ^ 16 + imm.toNat := by
  rw [encode, fields_toWord_toNat]
  simp [Instr.fields]

theorem rotL_zero (x : Word) : rotL x 0 = x := by
  refine BitVec.eq_of_getLsbD_eq fun n hn => ?_
  rw [getLsbD_rotL x 0 n hn, show (n + (512 - 0 % 512)) % 512 = n by omega]

theorem exec_rol {wd wa : RegField} (hd : legalReg wd = true) (ha : legalReg wa = true) (imm : Imm) (s : State) :
    exec (.rol wd wa imm) s = .next (writeReg wd (rotL (readReg wa s) imm.toNat) s) :=
  ifLegal_of_wellFormed (i := .rol wd wa imm) (Bool.and_eq_true_iff.2 ⟨hd, ha⟩) _ _

/-- Settles O8: ROL's word and effect at the count 0, where the rotation is the identity. -/
theorem movCopiesRegister : Obligations.MovCopiesRegister := by
  intro wd wa s hd ha
  have hword : (encode (.rol wd wa 0)).toNat = 0x10000000 + wd.toNat * 2 ^ 20 + wa.toNat * 2 ^ 16 :=
    encode_rol_toNat wd wa 0
  have hexec : exec (.rol wd wa 0) s = .next (writeReg wd (readReg wa s) s) := by
    rw [exec_rol hd ha, show (0 : Imm).toNat = 0 from rfl, rotL_zero]
  exact ⟨rfl, hword, _, hexec, wrote_writeReg wd (readReg wa s) s⟩

end Sys2Proof.Machine
end

section
/-! The bit utilities (41_bit_utilities.md R90 to R93, R96): the rotations by an integer count as arithmetic and bit by
bit, their laws, and INV. -/

namespace Sys2Proof.Machine

/-! ### The two summands of a rotation -/

/-- The left summand has its bits from `k` on, the right one below `k`. -/
theorem shiftLeft_and_ushiftRight_eq_zero (x : Word) (k : Nat) : (x <<< k) &&& (x >>> (512 - k)) = 0#512 := by
  refine BitVec.eq_of_getLsbD_eq fun n _ => ?_
  rw [BitVec.getLsbD_and, BitVec.getLsbD_shiftLeft, BitVec.getLsbD_ushiftRight, BitVec.getLsbD_zero]
  rcases lt_or_ge n k with h | h
  · simp [h]
  · rw [BitVec.getLsbD_of_ge x (512 - k + n) (by omega), Bool.and_false]

theorem toNat_shiftLeft_eq_mul {w : Nat} (x : BitVec w) (k : Nat) : (x <<< k).toNat = x.toNat * 2 ^ k % 2 ^ w := by
  rw [BitVec.toNat_shiftLeft, Nat.shiftLeft_eq]

theorem toNat_ushiftRight_eq_div {w : Nat} (x : BitVec w) (k : Nat) : (x >>> k).toNat = x.toNat / 2 ^ k := by
  rw [BitVec.toNat_ushiftRight, Nat.shiftRight_eq_div_pow]

theorem rotL_summands_disjoint (x : Word) (k : Nat) :
    (x.toNat * 2 ^ k % 2 ^ 512) &&& (x.toNat / 2 ^ (512 - k)) = 0 := by
  have h := congrArg BitVec.toNat (shiftLeft_and_ushiftRight_eq_zero x k)
  rwa [BitVec.toNat_and, toNat_shiftLeft_eq_mul, toNat_ushiftRight_eq_div, BitVec.toNat_zero] at h

theorem rotL_toNat (x : Word) {k : Nat} (hk : k < 512) :
    (rotL x k).toNat = x.toNat * 2 ^ k % 2 ^ 512 + x.toNat / 2 ^ (512 - k) := by
  rw [rotL, Nat.mod_eq_of_lt hk, BitVec.toNat_add_of_and_eq_zero (shiftLeft_and_ushiftRight_eq_zero x k),
    toNat_shiftLeft_eq_mul, toNat_ushiftRight_eq_div]

/-- The summands of `RotR` by `k` are those of `RotL` by `512 - k`, in the other order. -/
theorem rotR_toNat (x : Word) {k : Nat} (hk : k < 512) :
    (rotR x k).toNat = x.toNat / 2 ^ k + x.toNat * 2 ^ (512 - k) % 2 ^ 512 := by
  have hdisjoint : (x >>> k) &&& (x <<< (512 - k)) = 0#512 := by
    rw [BitVec.and_comm, ← shiftLeft_and_ushiftRight_eq_zero x (512 - k), Nat.sub_sub_self hk.le]
  rw [rotR, Nat.mod_eq_of_lt hk, BitVec.toNat_add_of_and_eq_zero hdisjoint, toNat_shiftLeft_eq_mul,
    toNat_ushiftRight_eq_div]

/-! ### Integer counts -/

theorem rotLInt_of_emod {r : Int} {k : Nat} (h : (k : Int) = r % 512) (x : Word) : rotLInt x r = rotL x k := by
  rw [rotLInt, ← h, Int.toNat_natCast]

theorem rotRInt_of_emod {r : Int} {k : Nat} (h : (k : Int) = r % 512) (x : Word) : rotRInt x r = rotR x k := by
  rw [rotRInt, ← h, Int.toNat_natCast]

theorem rotLInt_natCast (x : Word) (n : Nat) : rotLInt x n = rotL x n := by
  rw [rotLInt_of_emod (Int.natCast_emod n 512), rotL, rotL, Nat.mod_mod]

theorem rotRInt_natCast (x : Word) (n : Nat) : rotRInt x n = rotR x n := by
  rw [rotRInt_of_emod (Int.natCast_emod n 512), rotR, rotR, Nat.mod_mod]

/-- Only the count modulo 512 matters. -/
theorem rotLInt_congr {r t : Int} (h : r % 512 = t % 512) (x : Word) : rotLInt x r = rotLInt x t := by
  rw [rotLInt, rotLInt, h]

theorem getLsbD_rotLInt (x : Word) (r : Int) {n : Nat} (hn : n < 512) :
    (rotLInt x r).getLsbD n = x.getLsbD ((n - r) % 512).toNat := by
  rw [rotLInt, getLsbD_rotL _ _ _ hn]
  congr 1
  omega

theorem getLsbD_rotRInt (x : Word) (r : Int) {n : Nat} (hn : n < 512) :
    (rotRInt x r).getLsbD n = x.getLsbD ((n + r) % 512).toNat := by
  rw [rotRInt, getLsbD_rotR _ _ _ hn]
  congr 1
  omega

theorem rotRInt_eq_rotLInt_neg (x : Word) (r : Int) : rotRInt x r = rotLInt x (-r) := by
  refine BitVec.eq_of_getLsbD_eq fun n hn => ?_
  rw [getLsbD_rotRInt x r hn, getLsbD_rotLInt x (-r) hn, sub_neg_eq_add]

/-- Bit `n` goes to place `(n + r) mod 512` (R90). -/
theorem getLsbD_rotLInt_add (x : Word) (r : Int) {n : Nat} (hn : n < 512) :
    (rotLInt x r).getLsbD ((n + r) % 512).toNat = x.getLsbD n := by
  rw [getLsbD_rotLInt x r (by omega)]
  congr 1
  omega

/-- Bit `n` goes to place `(n - r) mod 512` (R91). -/
theorem getLsbD_rotRInt_sub (x : Word) (r : Int) {n : Nat} (hn : n < 512) :
    (rotRInt x r).getLsbD ((n - r) % 512).toNat = x.getLsbD n := by
  rw [rotRInt_eq_rotLInt_neg, sub_eq_add_neg, getLsbD_rotLInt_add x (-r) hn]

theorem rotLInt_of_emod_eq_zero {r : Int} (h : r % 512 = 0) (x : Word) : rotLInt x r = x := by
  rw [rotLInt, h, Int.toNat_zero, rotL_zero]

theorem rotRInt_of_emod_eq_zero {r : Int} (h : r % 512 = 0) (x : Word) : rotRInt x r = x := by
  rw [rotRInt_eq_rotLInt_neg, rotLInt_of_emod_eq_zero (by omega)]

/-! ### Composition, XOR and inversion -/

theorem rotLInt_rotLInt (x : Word) (r t : Int) : rotLInt (rotLInt x r) t = rotLInt x (r + t) := by
  refine BitVec.eq_of_getLsbD_eq fun n hn => ?_
  rw [getLsbD_rotLInt _ t hn, getLsbD_rotLInt x r (by omega), getLsbD_rotLInt x (r + t) hn]
  congr 1
  omega

theorem rotRInt_rotLInt (x : Word) (r : Int) : rotRInt (rotLInt x r) r = x := by
  rw [rotRInt_eq_rotLInt_neg, rotLInt_rotLInt, add_neg_cancel, rotLInt_of_emod_eq_zero (Int.zero_emod 512)]

theorem rotLInt_xor (x y : Word) (r : Int) : rotLInt (x ^^^ y) r = rotLInt x r ^^^ rotLInt y r := by
  refine BitVec.eq_of_getLsbD_eq fun n hn => ?_
  simp only [BitVec.getLsbD_xor, getLsbD_rotLInt _ r hn]

theorem rotLInt_allOnes (r : Int) : rotLInt (BitVec.allOnes 512) r = BitVec.allOnes 512 := by
  refine BitVec.eq_of_getLsbD_eq fun n hn => ?_
  have hplace : ((n - r) % 512).toNat < 512 := by omega
  simp only [getLsbD_rotLInt _ r hn, BitVec.getLsbD_allOnes, hn, hplace]

theorem inv512_inv512 (x : Word) : inv512 (inv512 x) = x := by
  rw [inv512, inv512, BitVec.xor_assoc, BitVec.xor_self, BitVec.xor_zero]

theorem inv512_toNat (x : Word) : (inv512 x).toNat = 2 ^ 512 - 1 - x.toNat := by
  rw [inv512, BitVec.xor_allOnes, BitVec.toNat_not]

/-- A rotation leaves the constant of `Inv512` in place, so the two commute (R93 (e)). -/
theorem rotLInt_inv512 (x : Word) (r : Int) : rotLInt (inv512 x) r = inv512 (rotLInt x r) := by
  rw [inv512, inv512, rotLInt_xor, rotLInt_allOnes]

theorem diffuse_eq_rotLInt (x : Word) (n : Nat) : diffuse x n = x ^^^ rotLInt (inv512 x) n := by
  rw [diffuse, rotLInt_natCast]

theorem diffuse_eq_xor_allOnes (x : Word) (n : Nat) : diffuse x n = x ^^^ rotLInt x n ^^^ BitVec.allOnes 512 := by
  rw [diffuse_eq_rotLInt, rotLInt_inv512, inv512, BitVec.xor_assoc]

theorem diffuse_zero (x : Word) : diffuse x 0 = BitVec.allOnes 512 := by
  rw [diffuse_eq_xor_allOnes, rotLInt_of_emod_eq_zero rfl, BitVec.xor_self, BitVec.zero_xor]

/-! ### The command INV -/

theorem exec_inv {wd wa : RegField} (hd : legalReg wd = true) (ha : legalReg wa = true) (s : State) :
    exec (.inv wd wa) s = .next (writeReg wd (inv512 (readReg wa s)) s) :=
  ifLegal_of_wellFormed (i := .inv wd wa) (Bool.and_eq_true_iff.2 ⟨hd, ha⟩) _ _

/-! ### The statements -/

/-- Settles O7: INV writes `Inv512` of the operand, whose value and bits the lemmas about `inv512` give. -/
theorem invFlipsEveryBit : Obligations.InvFlipsEveryBit := fun _ wa s hd ha =>
  ⟨_, _, exec_inv hd ha s, wrote_writeReg _ _ s, rfl, rfl, inv512_toNat _, getLsbD_inv512 (readReg wa s)⟩

/-- Settles O33: an integer count is its residue `k`, and `RotR` is `RotL` by the negated count. -/
theorem rotationFormulas : Obligations.RotationFormulas := by
  intro x r k hk
  have hlt : k < 512 := by omega
  have hswap : rotRInt x r = rotLInt x (512 - r) :=
    (rotRInt_eq_rotLInt_neg x r).trans (rotLInt_congr (by omega) x)
  have hzero (h : k = 0) : rotLInt x r = x ∧ rotRInt x r = x :=
    ⟨rotLInt_of_emod_eq_zero (by omega) x, rotRInt_of_emod_eq_zero (by omega) x⟩
  have hvalueL := rotLInt_of_emod hk x ▸ rotL_toNat x hlt
  have hvalueR := rotRInt_of_emod hk x ▸ rotR_toNat x hlt
  exact ⟨hvalueL, rotL_summands_disjoint x k, fun _ => getLsbD_rotLInt_add x r, hvalueR,
    fun _ => getLsbD_rotRInt_sub x r, hswap, hzero, fun n =>
      ⟨(rotLInt_natCast x n).symm, (rotRInt_natCast x n).symm⟩⟩

/-- Settles O34: each law is one about where the bits go, or follows from composition and linearity. -/
theorem rotationLaws : Obligations.RotationLaws := fun x y r t =>
  ⟨rotRInt_rotLInt x r, rotLInt_of_emod_eq_zero rfl x, rotLInt_of_emod_eq_zero rfl x,
    rotLInt_congr (Int.emod_emod_of_dvd r dvd_rfl).symm x, rotLInt_rotLInt x r t, inv512_inv512 x, rotLInt_inv512 x r,
    rotLInt_xor x y r, fun n => ⟨diffuse_eq_rotLInt x n, diffuse_eq_xor_allOnes x n⟩, diffuse_zero x⟩

end Sys2Proof.Machine
end

section
/-! The block encoder (42_block_encoder.md R102 to R104): integers as big-endian bytes and back, the padded message, its
chunks byte by byte, and the fold bit by bit. -/

namespace Sys2Proof.Machine

/-! ### Big-endian bytes -/

theorem bytesToNat_append_singleton (bs : List Byte) (b : Byte) :
    bytesToNat (bs ++ [b]) = bytesToNat bs * 256 + b.toNat := by
  rw [bytesToNat, List.foldl_append]
  rfl

@[simp] theorem natToBytes_length (n v : Nat) : (natToBytes n v).length = n := by simp [natToBytes]

theorem natToBytes_getElem? (v : Nat) {n k : Nat} (hk : k < n) :
    (natToBytes n v)[k]? = some (BitVec.ofNat 8 (v >>> (8 * (n - 1 - k)))) := by
  simp [natToBytes, hk]

/-- The least significant byte is the last one. -/
theorem natToBytes_succ (n v : Nat) : natToBytes (n + 1) v = natToBytes n (v / 256) ++ [BitVec.ofNat 8 v] := by
  have hlast : v >>> (8 * (n + 1 - 1 - n)) = v := by simp
  rw [natToBytes, List.range_succ, List.map_append, List.map_singleton, hlast]
  congr 1
  refine List.map_congr_left fun k hk => ?_
  have hk : k < n := List.mem_range.1 hk
  rw [show 8 * (n + 1 - 1 - k) = 8 + 8 * (n - 1 - k) by omega, Nat.shiftRight_add, Nat.shiftRight_eq_div_pow v 8]

theorem bytesToNat_natToBytes (n v : Nat) : bytesToNat (natToBytes n v) = v % 256 ^ n := by
  induction n generalizing v with
  | zero => rw [pow_zero, Nat.mod_one]; rfl
  | succ n ih =>
    rw [natToBytes_succ, bytesToNat_append_singleton, ih, BitVec.toNat_ofNat, pow_succ' 256 n, Nat.mod_mul]
    omega

theorem natToBytes_bytesToNat (bs : List Byte) : natToBytes bs.length (bytesToNat bs) = bs := by
  induction bs using List.reverseRecOn with
  | nil => rfl
  | append_singleton bs b ih =>
    have hb := b.isLt
    have hhigh : (bytesToNat bs * 256 + b.toNat) / 256 = bytesToNat bs := by omega
    have hlow : BitVec.ofNat 8 (bytesToNat bs * 256 + b.toNat) = b :=
      BitVec.eq_of_toNat_eq (by rw [BitVec.toNat_ofNat]; omega)
    rw [bytesToNat_append_singleton, List.length_append, List.length_singleton, natToBytes_succ, hhigh, hlow, ih]

/-- Eight bits of a value that lie below bit 512 are the same in its 512-bit word. -/
theorem extractLsb'_ofNat_word (v : Nat) {p : Nat} (hp : p + 8 ≤ 512) :
    (BitVec.ofNat 512 v).extractLsb' p 8 = BitVec.ofNat 8 (v >>> p) := by
  refine BitVec.eq_of_getLsbD_eq fun i hi => ?_
  have hin : p + i < 512 := by omega
  simp only [BitVec.getLsbD_extractLsb', BitVec.getLsbD_ofNat, Nat.testBit_shiftRight, hi, hin, decide_true,
    Bool.true_and]

/-- Byte `k` of a block, counted from the most significant, is byte `k` of the 64 bytes it is made of (R103). -/
theorem getElem?_of_bytesToWord {bs : List Byte} (hlen : bs.length = 64) {k : Nat} (hk : k < 64) :
    bs[k]? = some ((bytesToWord bs).extractLsb' (8 * (63 - k)) 8) := by
  have hbytes : natToBytes 64 (bytesToNat bs) = bs := hlen ▸ natToBytes_bytesToNat bs
  rw [bytesToWord, extractLsb'_ofNat_word _ (by omega), ← natToBytes_getElem? (bytesToNat bs) hk, hbytes]

/-! ### The padded message -/

theorem padZeros_cast (n : Nat) : (padZeros n : Int) = (55 - (n : Int)) % 64 :=
  Int.toNat_of_nonneg (Int.emod_nonneg _ (by decide))

theorem pad_length (m : List Byte) : (pad m).length = m.length + 1 + padZeros m.length + 8 := by
  simp only [pad, List.length_append, List.length_singleton, List.length_replicate, natToBytes_length]

/-- The padding fills the last chunk. -/
theorem pad_length_eq_mul_chunkCount (m : List Byte) : (pad m).length = 64 * chunkCount m.length := by
  have hz := padZeros_cast m.length
  rw [pad_length, chunkCount]
  omega

/-! ### The chunks -/

@[simp] theorem chunks_length (m : List Byte) : (chunks m).length = chunkCount m.length := by simp [chunks]

theorem chunks_getElem? (m : List Byte) {j : Nat} (hj : j < chunkCount m.length) :
    (chunks m)[j]? = some (bytesToWord (((pad m).drop (64 * j)).take 64)) := by
  simp [chunks, hj]

theorem pad_piece_length (m : List Byte) {j : Nat} (hj : j < chunkCount m.length) :
    (((pad m).drop (64 * j)).take 64).length = 64 := by
  rw [List.length_take, List.length_drop, pad_length_eq_mul_chunkCount]
  omega

/-! ### The fold -/

@[simp] theorem fold_nil : fold [] = 0 := rfl

theorem fold_append_singleton (cs : List Word) (c : Word) : fold (cs ++ [c]) = fold cs ^^^ c := by
  rw [fold, List.foldl_append]
  rfl

theorem fold_singleton (c : Word) : fold [c] = c := BitVec.zero_xor

/-- Every chunk with bit `n` set toggles bit `n` of the fold (R104). -/
theorem getLsbD_fold (cs : List Word) (n : Nat) :
    (fold cs).getLsbD n = decide (cs.countP (fun c => c.getLsbD n) % 2 = 1) := by
  induction cs using List.reverseRecOn with
  | nil => simp
  | append_singleton cs c ih =>
    rw [fold_append_singleton, BitVec.getLsbD_xor, ih, List.countP_append, List.countP_singleton]
    cases c.getLsbD n with
    | false => simp
    | true =>
      have hflip (k : Nat) : (k + 1) % 2 = 1 ↔ ¬k % 2 = 1 := by omega
      simp only [if_true, Bool.xor_true, hflip, decide_not]

/-- The number of chunks with a bit set does not depend on their order, so neither does the fold. -/
theorem fold_perm {cs ds : List Word} (h : cs.Perm ds) : fold cs = fold ds :=
  BitVec.eq_of_getLsbD_eq fun n _ => by rw [getLsbD_fold, getLsbD_fold, h.countP_eq]

/-! ### The statements -/

/-- Settles O36: the parts are those of `pad`'s definition, and every count follows from `padZeros_cast`. -/
theorem paddedMessage : Obligations.PaddedMessage := by
  have hcap := msgCap_lt
  refine ⟨by omega, fun m => ⟨padZeros m.length, natToBytes 8 (8 * m.length % 2 ^ 64), ?_⟩⟩
  have hz := padZeros_cast m.length
  have hlen := pad_length m
  have hfield : bytesToNat (natToBytes 8 (8 * m.length % 2 ^ 64)) = 8 * m.length % 2 ^ 64 := by
    rw [bytesToNat_natToBytes, show 256 ^ 8 = 2 ^ 64 by norm_num, Nat.mod_mod]
  exact ⟨hz, rfl, natToBytes_length _ _, hfield, hlen, by omega, by omega, by omega, by omega⟩

/-- Settles O37: a chunk is a full piece of 64 bytes of the padded message, and its bytes are those of the piece. -/
theorem messageChunks : Obligations.MessageChunks := by
  intro m
  have hlen := chunks_length m
  have hpad := pad_length_eq_mul_chunkCount m
  have hcount : chunkCount m.length = (m.length + 8) / 64 + 1 := rfl
  refine ⟨by omega, by omega, by omega, fun j hj => ?_⟩
  have hj : j < chunkCount m.length := hlen ▸ hj
  refine ⟨_, chunks_getElem? m hj, fun k hk => ?_⟩
  rw [← getElem?_of_bytesToWord (pad_piece_length m hj) hk, List.getElem?_take_of_lt hk, List.getElem?_drop]

/-- Settles O38: the order of the chunks leaves every bit's parity alone. -/
theorem foldIsParity : Obligations.FoldIsParity :=
  ⟨fold_singleton, getLsbD_fold, fun _ _ => fold_perm⟩

end Sys2Proof.Machine
end

section
/-! The symbol of an angle (45_arctan_symbolizer.md R160 to R164): the scan of the four products keeps the least index of a
greatest value among those it has seen. -/

namespace Sys2Proof

theorem F64.lt_iff_rat_lt {a b : F64} (ha : a.isFinite = true) (hb : b.isFinite = true) :
    a.lt b = true ↔ a.rat < b.rat := by
  simp [F64.lt, ha, hb]

end Sys2Proof

namespace Sys2Proof.Machine

/-! ### One step of the scan -/

theorem argmaxStep_of_rat_lt {a b : F64} (ha : a.isFinite = true) (hb : b.isFinite = true) (h : a.rat < b.rat)
    (k n : Nat) : argmaxStep (k, a) n b = (n, b) :=
  if_pos ((F64.lt_iff_rat_lt ha hb).2 h)

theorem argmaxStep_of_rat_le {a b : F64} (ha : a.isFinite = true) (hb : b.isFinite = true) (h : b.rat ≤ a.rat)
    (k n : Nat) : argmaxStep (k, a) n b = (k, a) :=
  if_neg fun hlt => h.not_gt ((F64.lt_iff_rat_lt ha hb).1 hlt)

/-! ### The invariant of the scan -/

/-- Index `k` is the answer of the scan for the values before index `n` (R163). -/
structure IsLeastMaximal {N : Nat} (p : Fin N → F64) (n : Nat) (k : Fin N) : Prop where
  below : k.val < n
  greatest : ∀ m : Fin N, m.val < n → (p m).rat ≤ (p k).rat
  least : ∀ m < k, (p m).rat < (p k).rat

theorem isLeastMaximal_zero {N : Nat} (p : Fin (N + 1) → F64) : IsLeastMaximal p 1 0 where
  below := Nat.one_pos
  greatest m hm := by
    have hm : m = 0 := Fin.ext (Nat.lt_one_iff.1 hm)
    rw [hm]
  least m hm := absurd hm (Fin.not_lt_zero m)

section
variable {N : Nat} {p : Fin N → F64} {k n : Fin N}

/-- A strictly greater value takes the place of the best so far. -/
theorem IsLeastMaximal.replace (h : IsLeastMaximal p n k) (hlt : (p k).rat < (p n).rat) : IsLeastMaximal p (n + 1) n where
  below := Nat.lt_succ_self n
  greatest m hm := by
    obtain hm | hm := Nat.lt_succ_iff_lt_or_eq.1 hm
    · exact (h.greatest m hm).trans hlt.le
    · rw [Fin.ext hm]
  least m hm := (h.greatest m hm).trans_lt hlt

/-- A value that is not greater, an equal one in particular, leaves the best so far. -/
theorem IsLeastMaximal.keep (h : IsLeastMaximal p n k) (hle : (p n).rat ≤ (p k).rat) : IsLeastMaximal p (n + 1) k where
  below := h.below.trans (Nat.lt_succ_self n)
  greatest m hm := by
    obtain hm | hm := Nat.lt_succ_iff_lt_or_eq.1 hm
    · exact h.greatest m hm
    · rwa [Fin.ext hm]
  least := h.least

theorem argmaxStep_isLeastMaximal (hp : ∀ m, (p m).isFinite = true) (h : IsLeastMaximal p n k) :
    ∃ k', argmaxStep (k.val, p k) n (p n) = (k'.val, p k') ∧ IsLeastMaximal p (n + 1) k' := by
  obtain hlt | hle := lt_or_ge (p k).rat (p n).rat
  · exact ⟨n, argmaxStep_of_rat_lt (hp k) (hp n) hlt k n, h.replace hlt⟩
  · exact ⟨k, argmaxStep_of_rat_le (hp k) (hp n) hle k n, h.keep hle⟩

end

/-! ### The whole scan -/

theorem argmax_isLeastMaximal {p : Fin 4 → F64} (hp : ∀ m, (p m).isFinite = true) :
    ∃ k : Fin 4, argmax (p 0, p 1, p 2, p 3) = k.val ∧ IsLeastMaximal p 4 k := by
  obtain ⟨k₁, hstep₁, h₁⟩ := argmaxStep_isLeastMaximal (n := 1) hp (isLeastMaximal_zero p)
  obtain ⟨k₂, hstep₂, h₂⟩ := argmaxStep_isLeastMaximal (n := 2) hp h₁
  obtain ⟨k₃, hstep₃, h₃⟩ := argmaxStep_isLeastMaximal (n := 3) hp h₂
  have hscan : argmaxStep (argmaxStep (argmaxStep (0, p 0) 1 (p 1)) 2 (p 2)) 3 (p 3) = (k₃.val, p k₃) :=
    calc argmaxStep (argmaxStep (argmaxStep (0, p 0) 1 (p 1)) 2 (p 2)) 3 (p 3)
      _ = argmaxStep (argmaxStep (k₁.val, p k₁) 2 (p 2)) 3 (p 3) :=
        congrArg (fun best => argmaxStep (argmaxStep best 2 (p 2)) 3 (p 3)) hstep₁
      _ = argmaxStep (k₂.val, p k₂) 3 (p 3) := congrArg (fun best => argmaxStep best 3 (p 3)) hstep₂
      _ = (k₃.val, p k₃) := hstep₃
  exact ⟨k₃, congrArg Prod.fst hscan, h₃⟩

/-! ### The statement -/

/-- Settles O53: the products are those of `probVector`'s definition, and the scan's invariant holds of all four values. -/
theorem argmaxIsLeastMaximal : Obligations.ArgmaxIsLeastMaximal := by
  refine ⟨?products, fun p hp => ?scan⟩
  case products =>
    rintro num theta c s p0 p1 p2 p3 rfl rfl rfl rfl rfl rfl
    rfl
  case scan =>
    obtain ⟨k, hk, h⟩ := argmax_isLeastMaximal hp
    exact ⟨k, hk, fun m => h.greatest m m.isLt, h.least⟩

end Sys2Proof.Machine
end

section
/-! The Final Diffusion Mixer (46_final_mixer.md R170 to R172). `FinalMix` is a map of `h1 XOR h2` alone, the XOR of four
rotations to the left; that map is linear and moves every bit to four places. -/

namespace Sys2Proof.Machine

/-! ### Rotations by natural counts -/

theorem rotL_xor (x y : Word) (r : Nat) : rotL (x ^^^ y) r = rotL x r ^^^ rotL y r := by
  simp only [← rotLInt_natCast, rotLInt_xor]

theorem rotR_xor (x y : Word) (r : Nat) : rotR (x ^^^ y) r = rotR x r ^^^ rotR y r := by
  simp only [← rotRInt_natCast, rotRInt_eq_rotLInt_neg, rotLInt_xor]

theorem rotR_eq_rotL (x : Word) {r : Nat} (hr : r ≤ 512) : rotR x r = rotL x (512 - r) := by
  rw [← rotRInt_natCast, ← rotLInt_natCast, rotRInt_eq_rotLInt_neg]
  exact rotLInt_congr (by omega) x

theorem rotR_rotL (x : Word) {r k : Nat} (hk : k ≤ r) : rotR (rotL x r) k = rotL x (r - k) := by
  rw [← rotRInt_natCast, ← rotLInt_natCast, ← rotLInt_natCast, rotRInt_eq_rotLInt_neg, rotLInt_rotLInt, Nat.cast_sub hk,
    sub_eq_add_neg]

/-- A rotation to the left moves the single bit `n` to place `n + r`, modulo 512 (R90). -/
theorem rotL_twoPow {n : Nat} (hn : n < 512) (r : Nat) :
    rotL (BitVec.twoPow 512 n) r = BitVec.twoPow 512 ((n + r) % 512) := by
  refine BitVec.eq_of_getLsbD_eq fun j hj => ?_
  have hplace : n = (j + (512 - r % 512)) % 512 ↔ (n + r) % 512 = j := by omega
  have hlt : (n + r) % 512 < 512 := Nat.mod_lt _ (by decide)
  simp only [getLsbD_rotL _ r j hj, BitVec.getLsbD_twoPow, hn, hlt, hplace]

/-! ### The number of set bits -/

/-- The number of set bits of a value. -/
def bitCount (x : Word) : Nat := (List.range 512).countP fun n => x.getLsbD n

/-- A bit set in both operands is counted twice on the right and not at all in the XOR. -/
theorem countP_xor_add_two_mul {α : Type} (p q : α → Bool) (l : List α) :
    l.countP (fun a => p a ^^ q a) + 2 * l.countP (fun a => p a && q a) = l.countP p + l.countP q := by
  induction l with
  | nil => rfl
  | cons a l ih =>
    have hhead : (if (p a ^^ q a) = true then 1 else 0) + 2 * (if (p a && q a) = true then 1 else 0) =
        (if p a = true then 1 else 0) + (if q a = true then 1 else 0) := by
      cases p a <;> cases q a <;> rfl
    simp only [List.countP_cons]
    omega

theorem bitCount_xor_mod_two (x y : Word) : bitCount (x ^^^ y) % 2 = (bitCount x + bitCount y) % 2 := by
  have h := countP_xor_add_two_mul (fun n => x.getLsbD n) (fun n => y.getLsbD n) (List.range 512)
  simp only [bitCount, BitVec.getLsbD_xor]
  omega

/-- Adding `k` modulo `n` permutes the numbers below `n` cyclically. -/
theorem map_add_mod_range (n k : Nat) : (List.range n).map (fun i => (i + k) % n) = (List.range n).rotate k :=
  List.ext_getElem (by simp) fun i _ _ => by simp [List.getElem_rotate]

theorem bitCount_rotL (x : Word) (r : Nat) : bitCount (rotL x r) = bitCount x := by
  have hbits : ∀ n ∈ List.range 512,
      (rotL x r).getLsbD n = true ↔ x.getLsbD ((n + (512 - r % 512)) % 512) = true := fun n hn => by
    rw [getLsbD_rotL x r n (List.mem_range.1 hn)]
  calc bitCount (rotL x r)
    _ = (List.range 512).countP (fun n => x.getLsbD ((n + (512 - r % 512)) % 512)) := List.countP_congr hbits
    _ = ((List.range 512).map (fun n => (n + (512 - r % 512)) % 512)).countP (fun n => x.getLsbD n) :=
      List.countP_map.symm
    _ = ((List.range 512).rotate (512 - r % 512)).countP (fun n => x.getLsbD n) := by rw [map_add_mod_range]
    _ = bitCount x := (List.rotate_perm _ _).countP_eq _

/-! ### The map of the XOR -/

/-- The four rotations of which `FinalMix` is the XOR (R170); the rotation by 505 is `RotR` by 7. -/
def finalSpread (x : Word) : Word := x ^^^ rotL x 13 ^^^ rotL x 505 ^^^ rotL x 6

theorem finalSpread_eq_expanded (x : Word) : finalSpread x = x ^^^ rotL x 13 ^^^ rotR x 7 ^^^ rotL x 6 := by
  rw [finalSpread, rotR_eq_rotL x (r := 7) (by decide)]

/-- `RotR` by 7 of the second step is `RotR` by 7 of `x0` and, of its other summand, `RotL` by `13 - 7` (R170). -/
theorem finalMix_eq_finalSpread (h1 h2 : Word) : finalMix h1 h2 = finalSpread (h1 ^^^ h2) := by
  simp only [finalSpread_eq_expanded, finalMix, rotR_xor, rotR_rotL _ (r := 13) (k := 7) (by decide),
    BitVec.xor_assoc]

theorem finalSpread_xor (x y : Word) : finalSpread (x ^^^ y) = finalSpread x ^^^ finalSpread y := by
  simp only [finalSpread, rotL_xor]
  ac_rfl

theorem finalSpread_twoPow {n : Nat} (hn : n < 512) :
    finalSpread (BitVec.twoPow 512 n) = BitVec.twoPow 512 n ^^^ BitVec.twoPow 512 ((n + 13) % 512) ^^^
      BitVec.twoPow 512 ((n + 505) % 512) ^^^ BitVec.twoPow 512 ((n + 6) % 512) := by
  simp only [finalSpread, rotL_twoPow hn]

/-- The four rotations have as many set bits each, so their XOR has an even number (R172). -/
theorem bitCount_finalSpread_mod_two (x : Word) : bitCount (finalSpread x) % 2 = 0 := by
  have h₁ := bitCount_xor_mod_two x (rotL x 13)
  have h₂ := bitCount_xor_mod_two (x ^^^ rotL x 13) (rotL x 505)
  have h₃ := bitCount_xor_mod_two (x ^^^ rotL x 13 ^^^ rotL x 505) (rotL x 6)
  rw [bitCount_rotL] at h₁ h₂ h₃
  rw [finalSpread]
  omega

/-! ### `FinalMix` -/

theorem finalMix_comm (h1 h2 : Word) : finalMix h1 h2 = finalMix h2 h1 := by
  rw [finalMix_eq_finalSpread, finalMix_eq_finalSpread, BitVec.xor_comm]

theorem finalMix_self (h : Word) : finalMix h h = 0 := by
  rw [finalMix_eq_finalSpread, finalSpread_xor, BitVec.xor_self]
  rfl

theorem finalMix_zero_right (x : Word) : finalMix x 0 = finalSpread x :=
  (finalMix_eq_finalSpread x 0).trans (congrArg finalSpread BitVec.xor_zero)

theorem finalMix_xor_xor (a b c d : Word) : finalMix (a ^^^ b) (c ^^^ d) = finalMix a c ^^^ finalMix b d := by
  have hswap : a ^^^ b ^^^ (c ^^^ d) = a ^^^ c ^^^ (b ^^^ d) := by ac_rfl
  simp only [finalMix_eq_finalSpread, hswap, finalSpread_xor]

theorem finalMix_twoPow_zero {n : Nat} (hn : n < 512) :
    finalMix (BitVec.twoPow 512 n) 0 = BitVec.twoPow 512 n ^^^ BitVec.twoPow 512 ((n + 13) % 512) ^^^
      BitVec.twoPow 512 ((n + 505) % 512) ^^^ BitVec.twoPow 512 ((n + 6) % 512) :=
  (finalMix_zero_right _).trans (finalSpread_twoPow hn)

theorem bitCount_finalMix_mod_two (h1 h2 : Word) : bitCount (finalMix h1 h2) % 2 = 0 := by
  rw [finalMix_eq_finalSpread, bitCount_finalSpread_mod_two]

/-- The operands 1 and 0 give a result with the bits 0, 13, 505 and 6 (R172 (e)). -/
theorem exists_finalMix_bit511_clear :
    ∃ h1 h2 : Word, finalMix h1 h2 ≠ 0 ∧ (finalMix h1 h2).getLsbD 511 = false := by
  have hmix := finalMix_twoPow_zero (n := 0) (by decide)
  have hlow : (finalMix (BitVec.twoPow 512 0) 0).getLsbD 0 = true := by
    rw [hmix]
    simp
  have htop : (finalMix (BitVec.twoPow 512 0) 0).getLsbD 511 = false := by
    rw [hmix]
    simp
  refine ⟨BitVec.twoPow 512 0, 0, fun hzero => ?_, htop⟩
  rw [hzero, BitVec.ofNat_eq_ofNat, BitVec.getLsbD_zero] at hlow
  exact Bool.false_ne_true hlow

/-! ### The command FMIX -/

theorem exec_fmix {wd wa wb : RegField} (hd : legalReg wd = true) (ha : legalReg wa = true) (hb : legalReg wb = true)
    (s : State) : exec (.fmix wd wa wb) s = .next (writeReg wd (finalMix (readReg wa s) (readReg wb s)) s) :=
  ifLegal_of_wellFormed (i := .fmix wd wa wb) (Bool.and_eq_true_iff.2 ⟨Bool.and_eq_true_iff.2 ⟨hd, ha⟩, hb⟩) _ _

/-! ### The statements -/

/-- Settles O12: FMIX writes `FinalMix` of the old registers, which is `x2` by definition and has the expanded form. -/
theorem fmixWritesFinalMix : Obligations.FmixWritesFinalMix := by
  intro wd wa wb s hd ha hb
  have hexpanded := (finalMix_eq_finalSpread (readReg wa s) (readReg wb s)).trans (finalSpread_eq_expanded _)
  exact ⟨_, _, _, _, exec_fmix hd ha hb s, wrote_writeReg _ _ s, rfl, rfl, rfl, hexpanded⟩

/-- Settles O35: `FinalMix` is a linear map of the XOR of its operands. -/
theorem finalMixProperties : Obligations.FinalMixProperties :=
  ⟨finalMix_comm, finalMix_self, fun h1 h2 => (finalMix_eq_finalSpread h1 h2).trans (finalMix_zero_right _).symm,
    finalMix_xor_xor, fun _ => finalMix_twoPow_zero, bitCount_finalMix_mod_two, exists_finalMix_bit511_clear⟩

end Sys2Proof.Machine
end

section
/-! A host write of STATUS (60_exceptions.md R197): the word's bits [3:0] decide between clearing the error and nothing. -/

namespace Sys2Proof.Machine

theorem locate_statusWord : locate 1 = .status := by decide

theorem hostWrite_status (v : Word32) (s : State) : hostWrite 1 v s = .next (writeStatus v s) :=
  hostWrite_of_locate locate_statusWord WindowCell.noConfusion v s

theorem lowNibble_eq_zero_iff (v : Word32) : v.extractLsb' 0 4 = 0 ↔ v.toNat % 16 = 0 := by
  rw [← BitVec.toNat_inj, BitVec.extractLsb'_toNat, Nat.shiftRight_zero]
  rfl

/-- Settles O20: the write either leaves the state as it is or clears the error, by the word's low four bits. -/
theorem statusWriteClearsError : Obligations.StatusWriteClearsError := by
  intro v s
  refine ⟨writeStatus v s, hostWrite_status v s, ?_⟩
  obtain ⟨hlow, hwrite⟩ | ⟨hlow, hwrite⟩ := writeStatus_cases v s <;> rw [hwrite]
  · have hzero := (lowNibble_eq_zero_iff v).1 hlow
    exact ⟨fun hne => absurd hzero hne, fun _ => rfl, fun _ => rfl, rfl, fun _ => rfl, rfl, rfl⟩
  · have hne := mt (lowNibble_eq_zero_iff v).2 hlow
    exact ⟨fun _ => ⟨clearError_err s, clearError_errInfo s⟩, fun hzero => absurd hzero hne,
      fun _ => by rw [clearError_w], clearError_msgLen s, fun a => msgByte_clearError a s, clearError_pending s,
      clearError_answers s⟩

end Sys2Proof.Machine
end

section
/-! The decoder and the encoder (30_encoding.md R61 to R70): which words match a row, field by field, and what the ten
commands' words are. -/

namespace Sys2Proof

/-! ### Rows and their words -/

/-- No two rows share an opcode, so looking a row's opcode up finds that row. -/
theorem find?_op_of_mem {r : Row} (hr : r ∈ opcodeMap) : opcodeMap.find? (fun row => row.op == r.op) = some r := by
  simp only [opcodeMap, List.mem_cons, List.not_mem_nil, or_false] at hr
  rcases hr with rfl | rfl | rfl | rfl | rfl | rfl | rfl | rfl | rfl | rfl <;> rfl

theorem decode_of_op_eq {r : Row} (hr : r ∈ opcodeMap) {c : Word32} (hop : (Fields.ofWord c).op = r.op) :
    decode c = if r.matchesWord c then some (r.command (Fields.ofWord c)) else none := by
  rw [decode, hop, find?_op_of_mem hr]

/-- The fields of a format's mask (R62): of a register field in use only bit 3 is fixed. -/
def Format.maskFields : Format → Fields
  | .n => ⟨0xFF#8, 8#4, 15#4, 15#4, 4095#12⟩
  | .i => ⟨0xFF#8, 8#4, 15#4, 15#4, 0#12⟩
  | .u => ⟨0xFF#8, 8#4, 8#4, 15#4, 4095#12⟩
  | .s => ⟨0xFF#8, 8#4, 8#4, 15#4, 0#12⟩
  | .r => ⟨0xFF#8, 8#4, 8#4, 8#4, 4095#12⟩

theorem Format.toWord_maskFields (m : Format) : m.maskFields.toWord = m.mask := by
  cases m <;> rfl

theorem Format.maskFields_op (m : Format) : m.maskFields.op = BitVec.allOnes 8 := by
  cases m <;> rfl

/-- A row's pattern is its opcode and zeros. -/
theorem pattern_of_mem {r : Row} (hr : r ∈ opcodeMap) : r.pattern = Fields.toWord ⟨r.op, 0#4, 0#4, 0#4, 0#12⟩ := by
  simp only [opcodeMap, List.mem_cons, List.not_mem_nil, or_false] at hr
  rcases hr with rfl | rfl | rfl | rfl | rfl | rfl | rfl | rfl | rfl | rfl <;> rfl

theorem Fields.toWord_inj {f g : Fields} (h : f.toWord = g.toWord) : f = g := by
  rw [← Fields.ofWord_toWord f, h, Fields.ofWord_toWord]

/-- The fields `f` have the opcode of the row, and every bit that the row's format fixes is 0. -/
structure Row.Fits (r : Row) (f : Fields) : Prop where
  op : f.op = r.op
  wd : f.wd &&& r.format.maskFields.wd = 0#4
  wa : f.wa &&& r.format.maskFields.wa = 0#4
  wb : f.wb &&& r.format.maskFields.wb = 0#4
  imm : f.imm &&& r.format.maskFields.imm = 0#12

theorem matchesWord_iff_fits {r : Row} (hr : r ∈ opcodeMap) (c : Word32) :
    r.matchesWord c = true ↔ r.Fits (Fields.ofWord c) := by
  have hmask : c &&& r.format.mask = (Fields.ofWord c).toWord &&& r.format.maskFields.toWord := by
    rw [Fields.toWord_ofWord, Format.toWord_maskFields]
  have hop : (Fields.ofWord c).op &&& r.format.maskFields.op = (Fields.ofWord c).op := by
    rw [Format.maskFields_op, BitVec.and_allOnes]
  rw [Row.matchesWord, beq_iff_eq, hmask, Fields.toWord_and, hop, pattern_of_mem hr]
  constructor
  · intro h
    injection Fields.toWord_inj h with h1 h2 h3 h4 h5
    exact ⟨h1, h2, h3, h4, h5⟩
  · rintro ⟨h1, h2, h3, h4, h5⟩
    rw [h1, h2, h3, h4, h5]

/-! ### Fields that fit a row -/

theorem legalReg_iff_and (r : RegField) : legalReg r = true ↔ r &&& 8#4 = 0#4 := by
  revert r
  decide

theorem and_ones4_eq_zero_iff (r : BitVec 4) : r &&& 15#4 = 0#4 ↔ r = 0#4 := by
  rw [show (15#4 : BitVec 4) = BitVec.allOnes 4 from rfl, BitVec.and_allOnes]

theorem and_ones12_eq_zero_iff (r : BitVec 12) : r &&& 4095#12 = 0#12 ↔ r = 0#12 := by
  rw [show (4095#12 : BitVec 12) = BitVec.allOnes 12 from rfl, BitVec.and_allOnes]

/-- The command a row makes of fields that fit it is legal, and has these fields: those the format uses have bit 3 clear,
those it does not use are 0. -/
theorem Row.Fits.command {r : Row} (hr : r ∈ opcodeMap) {f : Fields} (h : r.Fits f) :
    (r.command f).wellFormed = true ∧ (r.command f).fields = f := by
  obtain ⟨op, wd, wa, wb, imm⟩ := f
  obtain ⟨hop, hwd, hwa, hwb, himm⟩ := h
  simp only [opcodeMap, List.mem_cons, List.not_mem_nil, or_false] at hr
  rcases hr with rfl | rfl | rfl | rfl | rfl | rfl | rfl | rfl | rfl | rfl <;>
  · simp only [Format.maskFields, and_ones4_eq_zero_iff, and_ones12_eq_zero_iff, ← legalReg_iff_and] at hop hwd hwa hwb himm
    simp only [Instr.wellFormed, Instr.fields, hop, hwd, hwa, hwb, himm, Bool.and_self, and_self]

/-! ### Decoding and encoding -/

theorem decode_of_matchesWord {r : Row} (hr : r ∈ opcodeMap) {c : Word32} (h : r.matchesWord c = true) :
    decode c = some (r.command (Fields.ofWord c)) := by
  rw [decode_of_op_eq hr ((matchesWord_iff_fits hr c).1 h).op, if_pos h]

/-- A word that decodes matches the row whose command it decodes to. -/
theorem exists_row_of_decode {c : Word32} {i : Instr} (h : decode c = some i) :
    ∃ r ∈ opcodeMap, r.matchesWord c = true ∧ i = r.command (Fields.ofWord c) := by
  unfold decode at h
  split at h
  · contradiction
  next r hfind =>
    split at h
    next hmatch => exact ⟨r, List.mem_of_find?_eq_some hfind, hmatch, (Option.some.inj h).symm⟩
    · contradiction

/-- The commands' words by the rows of their mnemonics. -/
theorem matchesRow (i : Instr) : Laws.MatchesRow.Statement i := by
  cases i with
  | ldi wd imm => exact Laws.MatchesRow.ldi wd imm
  | ldb wd => exact Laws.MatchesRow.ldb wd
  | rol wd wa imm => exact Laws.MatchesRow.rol wd wa imm
  | ror wd wa imm => exact Laws.MatchesRow.ror wd wa imm
  | inv wd wa => exact Laws.MatchesRow.inv wd wa
  | enc wd => exact Laws.MatchesRow.enc wd
  | mix wd wa wb => exact Laws.MatchesRow.mix wd wa wb
  | ext wd wa wb => exact Laws.MatchesRow.ext wd wa wb
  | fmix wd wa wb => exact Laws.MatchesRow.fmix wd wa wb
  | digest wd => exact Laws.MatchesRow.digest wd

theorem decode_encode {i : Instr} (h : i.wellFormed = true) : decode (encode i) = some i := by
  obtain ⟨r, hr, _, hmatch, hcommand⟩ := matchesRow i h
  rw [decode_of_matchesWord hr hmatch, encode, Fields.ofWord_toWord, hcommand]

theorem encode_toNat (i : Instr) : (encode i).toNat = i.fields.op.toNat * 2 ^ 24 + i.fields.wd.toNat * 2 ^ 20 +
    i.fields.wa.toNat * 2 ^ 16 + i.fields.wb.toNat * 2 ^ 12 + i.fields.imm.toNat :=
  Machine.fields_toWord_toNat i.fields

/-! ### The statements -/

/-- Settles O57: a legal command's word matches the row of its mnemonic, and that row makes the command again. -/
theorem decodeOfEncode : Obligations.DecodeOfEncode := fun _ => decode_encode

/-- Settles O58: the opcodes of the rows differ, so the row of a word's opcode is the only one that the word can match. -/
theorem decodeFollowsTheRows : Obligations.DecodeFollowsTheRows := by
  intro c
  refine ⟨⟨fun hnone r hr => ?_, fun hno => ?_⟩, fun r hr => decode_of_matchesWord hr, fun i hi => ?_⟩
  · rw [Bool.eq_false_iff]
    intro hmatch
    rw [decode_of_matchesWord hr hmatch] at hnone
    contradiction
  · rw [Option.eq_none_iff_forall_not_mem]
    intro i hi
    obtain ⟨r, hr, hmatch, _⟩ := exists_row_of_decode hi
    rw [hno r hr] at hmatch
    contradiction
  · obtain ⟨r, hr, hmatch, rfl⟩ := exists_row_of_decode hi
    obtain ⟨hlegal, hfields⟩ := ((matchesWord_iff_fits hr c).1 hmatch).command hr
    exact ⟨hlegal, by rw [encode, hfields, Fields.toWord_ofWord]⟩

/-- Settles O59: the sum of the five fields, of which those a format does not use are 0. -/
theorem commandWordFormulas : Obligations.CommandWordFormulas := by
  intro wd wa wb imm
  simp [encode_toNat, Instr.fields]

/-- Settles O60: ten legal words and four illegal ones, evaluated. -/
theorem decodeSanityWords : Obligations.DecodeSanityWords :=
  ⟨by decide, by decide, by decide, by decide, by decide, by decide, by decide, by decide, by decide, by decide,
    by decide, by decide, by decide, by decide⟩

end Sys2Proof
end

section
/-! What every command does, said in one equation, and the statements about all commands at once (60_exceptions.md R190 to
R198, 48_load_commands.md R188, 20_memory.md R41, 70_reset_and_hazards.md R219). -/

namespace Sys2Proof.Machine

/-! ### The outcome of a command -/

/-- The value that a completing command writes, by its rule's operation. -/
def commandValue (s : State) : Instr → Word
  | .ldi _ imm => immWord imm
  | .ldb _ => bytesToWord (message s)
  | .rol _ wa imm => rotL (readReg wa s) (immCount imm)
  | .ror _ wa imm => rotR (readReg wa s) (immCount imm)
  | .inv _ wa => inv512 (readReg wa s)
  | .enc _ => encodeToBlock (message s)
  | .mix _ wa wb => mix Config.num Config.quantMul (readReg wa s) (readReg wb s)
  | .ext _ wa wb => extractBits Config.num (readReg wa s) (readReg wb s)
  | .fmix _ wa wb => finalMix (readReg wa s) (readReg wb s)
  | .digest _ => digestValue Config.num Config.quantMul (message s)

/-- The error that a legal command raises at a message length, if any (R191, R193, R196). -/
def lengthError (len : Nat) : Instr → Option ErrorKind
  | .ldb _ => if Config.msgCap < len then some .lengthRange else if len ≠ 64 then some .invalidBlockLength else none
  | .enc _ => if Config.msgCap < len then some .lengthRange else none
  | .digest _ => if Config.msgCap < len then some .lengthRange else none
  | _ => none

/-- The error that a command raises at a message length, if any. -/
def commandError (len : Nat) (i : Instr) : Option ErrorKind :=
  if i.wellFormed then lengthError len i else some .illegalCommand

/-- What a legal command leaves: the error of the message length raised, or the value written to the destination. -/
def legalResult (i : Instr) (s : State) : State :=
  match lengthError s.msgLen.toNat i with
  | some e => raise e (encode i) s
  | none => writeReg i.dest (commandValue s i) s

/-- The state that a command leaves: the one error raised, or the value written to the destination. -/
def commandResult (i : Instr) (s : State) : State :=
  match commandError s.msgLen.toNat i with
  | some e => raise e (encode i) s
  | none => writeReg i.dest (commandValue s i) s

theorem commandError_of_illFormed {i : Instr} (h : i.wellFormed = false) (len : Nat) :
    commandError len i = some .illegalCommand := by
  rw [commandError, h]
  rfl

theorem commandError_of_wellFormed {i : Instr} (h : i.wellFormed = true) (len : Nat) :
    commandError len i = lengthError len i := by
  rw [commandError, if_pos h]

theorem commandResult_of_error {i : Instr} {s : State} {e : ErrorKind} (h : commandError s.msgLen.toNat i = some e) :
    commandResult i s = raise e (encode i) s := by
  rw [commandResult, h]

theorem commandResult_of_none {i : Instr} {s : State} (h : commandError s.msgLen.toNat i = none) :
    commandResult i s = writeReg i.dest (commandValue s i) s := by
  rw [commandResult, h]

/-- `exec` of a command is the legality check and then `legalResult`: each command's own definition, read once. -/
theorem exec_eq_ifLegal (i : Instr) (s : State) : exec i s = ifLegal i s (legalResult i s) := by
  cases i with
  | ldb wd =>
    simp only [exec, execLdb, ifInRange, legalResult, lengthError]
    split_ifs <;> rfl
  | enc wd =>
    simp only [exec, execEnc, ifInRange, legalResult, lengthError]
    split_ifs <;> rfl
  | digest wd =>
    simp only [exec, execDigest, ifInRange, legalResult, lengthError]
    split_ifs <;> rfl
  | _ => rfl

/-- Every command answers, and `commandResult` is what it answers. -/
theorem exec_eq (i : Instr) (s : State) : exec i s = .next (commandResult i s) := by
  rw [exec_eq_ifLegal]
  cases h : i.wellFormed with
  | false => rw [ifLegal_of_illFormed h, commandResult_of_error (commandError_of_illFormed h _)]
  | true => rw [ifLegal_of_wellFormed h, legalResult, commandResult, commandError_of_wellFormed h]

theorem exec_of_error {i : Instr} {s : State} {e : ErrorKind} (h : commandError s.msgLen.toNat i = some e) :
    exec i s = .next (raise e (encode i) s) := by
  rw [exec_eq, commandResult_of_error h]

theorem exec_of_none {i : Instr} {s : State} (h : commandError s.msgLen.toNat i = none) :
    exec i s = .next (writeReg i.dest (commandValue s i) s) := by
  rw [exec_eq, commandResult_of_none h]

/-- A command that raises nothing writes its value to its destination, and nothing else. -/
theorem exec_wrote {i : Instr} {s : State} (h : commandError s.msgLen.toNat i = none) :
    ∃ t, exec i s = .next t ∧ State.Wrote i.dest (commandValue s i) s t :=
  ⟨_, exec_of_none h, wrote_writeReg _ _ s⟩

/-! ### Errors -/

theorem ErrorKind.code_ne_zero (e : ErrorKind) : e.code ≠ 0 := by
  cases e <;> decide

/-- `raise` in the terms of Safety.lean. -/
theorem raised_raise (e : ErrorKind) (c : Word32) (s : State) : State.Raised e c s (raise e c s) where
  first h := ⟨by rw [raise_err, if_pos h], by rw [raise_errInfo, if_pos h]⟩
  sticky h := ⟨by rw [raise_err, if_neg h], by rw [raise_errInfo, if_neg h]⟩
  registers r := by rw [raise_w]
  msgLen := raise_msgLen e c s
  bytes a := msgByte_raise a e c s
  pending := raise_pending e c s
  answers := raise_answers e c s

theorem raise_of_err_ne_zero {s : State} (h : s.err ≠ 0) (e : ErrorKind) (c : Word32) : raise e c s = s :=
  if_neg h

theorem raise_err_ne_zero (e : ErrorKind) (c : Word32) (s : State) : (raise e c s).err ≠ 0 := by
  rw [raise_err]
  split
  · exact e.code_ne_zero
  · assumption

theorem exec_raised {i : Instr} {s : State} {e : ErrorKind} (h : commandError s.msgLen.toNat i = some e) :
    ∃ t, exec i s = .next t ∧ State.Raised e (encode i) s t :=
  ⟨_, exec_of_error h, raised_raise e _ s⟩

/-- Settles O18: the fields of `raise`, and after it an error is recorded. -/
theorem raiseRecordsFirstError : Obligations.RaiseRecordsFirstError := fun e c s =>
  ⟨raised_raise e c s, fun f d => raise_of_err_ne_zero (raise_err_ne_zero e c s) f d⟩

/-- Settles O14: the legality check comes first. -/
theorem illFormedCommandRaises : Obligations.IllFormedCommandRaises := fun _ _ h =>
  exec_raised (commandError_of_illFormed h _)

/-! ### What a command leaves unchanged -/

/-- Settles O15: a command writes its destination or raises an error, and an error's code is not 0. -/
theorem commandFrame : Obligations.CommandFrame := by
  intro i s t h
  cases exec_effect h with
  | wrote v _ ht =>
    subst ht
    have hw := wrote_writeReg i.dest v s
    exact ⟨hw.others, hw.msgLen, hw.bytes, hw.pending, hw.answers, fun hne => absurd hw.err hne, fun _ => hw.errInfo⟩
  | raised e _ ht =>
    subst ht
    have hr := raised_raise e (encode i) s
    refine ⟨fun r _ => hr.registers r, hr.msgLen, hr.bytes, hr.pending, hr.answers, fun hne => ?_, fun heq => ?_⟩
    · have h0 : s.err = 0 := by_contra fun hs => hne (hr.sticky hs).1
      exact ⟨raise_w e (encode i) s, h0, (hr.first h0).2⟩
    · have h0 : s.err ≠ 0 := fun hs => raise_err_ne_zero e (encode i) s (heq.trans hs)
      exact (hr.sticky h0).2

/-! ### What a command depends on -/

theorem withDest_dest (d : RegField) (i : Instr) : (i.withDest d).dest = d := by
  cases i <;> rfl

theorem commandValue_withDest (s : State) (d : RegField) (i : Instr) :
    commandValue s (i.withDest d) = commandValue s i := by
  cases i <;> rfl

theorem lengthError_withDest (len : Nat) (d : RegField) (i : Instr) :
    lengthError len (i.withDest d) = lengthError len i := by
  cases i <;> rfl

theorem wellFormed_withDest {d : RegField} (hd : legalReg d = true) {i : Instr} (h : i.wellFormed = true) :
    (i.withDest d).wellFormed = true := by
  cases i <;> simp_all [Instr.wellFormed, Instr.withDest]

theorem lengthError_eq_none {len : Nat} (hlen : len ≤ Config.msgCap) {i : Instr} (hldb : (∃ wd, i = .ldb wd) → len = 64) :
    lengthError len i = none := by
  cases i with
  | ldb wd => rw [lengthError, if_neg (by omega), if_neg (not_not.2 (hldb ⟨wd, rfl⟩))]
  | enc wd => exact if_neg (by omega)
  | digest wd => exact if_neg (by omega)
  | _ => rfl

/-- Settles O16: neither the checks nor the value of a command look at its destination. -/
theorem destinationDoesNotMatter : Obligations.DestinationDoesNotMatter := by
  intro i d s hi hd hlen hldb
  have hnone : lengthError s.msgLen.toNat i = none :=
    lengthError_eq_none hlen fun h => congrArg BitVec.toNat (hldb h)
  obtain ⟨t, ht, hwt⟩ := exec_wrote (i := i) (s := s) (by rw [commandError_of_wellFormed hi, hnone])
  obtain ⟨u, hu, hwu⟩ := exec_wrote (i := i.withDest d) (s := s)
    (by rw [commandError_of_wellFormed (wellFormed_withDest hd hi), lengthError_withDest, hnone])
  rw [withDest_dest, commandValue_withDest] at hwu
  exact ⟨_, t, u, ht, hu, hwt, hwu⟩

theorem message_congr {s s' : State} (hlen : s'.msgLen = s.msgLen)
    (hbytes : ∀ a < s.msgLen.toNat, msgByte a s' = msgByte a s) : message s' = message s := by
  rw [message, message, hlen, msgRead, msgRead]
  refine List.map_congr_left fun k hk => ?_
  rw [Nat.zero_add, hbytes k (List.mem_range.1 hk)]

/-- A command's value is made from the registers and the message. -/
theorem commandValue_congr {s s' : State} (hw : s'.w = s.w) (hm : message s' = message s) (i : Instr) :
    commandValue s' i = commandValue s i := by
  have hread (r : RegField) : readReg r s' = readReg r s := by rw [readReg, readReg, hw]
  cases i <;> simp only [commandValue, hread, hm]

/-- Settles O17: the checks read MSGLEN, and the value the registers and the message. -/
theorem bytesAboveLengthDoNotMatter : Obligations.BytesAboveLengthDoNotMatter := by
  intro i s s' hw herr hinfo hlen hbytes
  refine ⟨_, _, exec_eq i s, exec_eq i s', ?_⟩
  cases h : commandError s.msgLen.toNat i with
  | some e =>
    have h' : commandError s'.msgLen.toNat i = some e := by rw [hlen, h]
    rw [commandResult_of_error h, commandResult_of_error h']
    simp only [raise_w, raise_err, raise_errInfo, hw, herr, hinfo, and_self]
  | none =>
    have h' : commandError s'.msgLen.toNat i = none := by rw [hlen, h]
    rw [commandResult_of_none h, commandResult_of_none h', commandValue_congr hw (message_congr hlen hbytes)]
    simp only [writeReg_w, writeReg_err, writeReg_errInfo, hw, herr, hinfo, and_self]

/-- Settles O19: the checks and the value do not look at the error record, and `raise` keeps one that is there. -/
theorem recordedErrorDoesNotBlock : Obligations.RecordedErrorDoesNotBlock := by
  intro i s e c
  refine ⟨_, _, exec_eq i s, exec_eq i _, ?_⟩
  cases h : commandError s.msgLen.toNat i with
  | some k =>
    rw [commandResult_of_error h, commandResult_of_error (s := { s with err := e, errInfo := c }) h]
    exact ⟨by simp only [raise_w], fun he => by rw [raise_of_err_ne_zero he]; exact ⟨rfl, rfl⟩⟩
  | none =>
    have hvalue : commandValue { s with err := e, errInfo := c } i = commandValue s i := commandValue_congr rfl rfl i
    rw [commandResult_of_none h, commandResult_of_none (s := { s with err := e, errInfo := c }) h, hvalue]
    exact ⟨rfl, fun _ => ⟨rfl, rfl⟩⟩

/-! ### The single commands -/

theorem commandError_ldb {wd : RegField} (hd : legalReg wd = true) (len : Nat) : commandError len (.ldb wd) =
    if Config.msgCap < len then some .lengthRange else if len ≠ 64 then some .invalidBlockLength else none :=
  commandError_of_wellFormed (i := .ldb wd) hd len

/-- A command that takes no message, and is legal, raises nothing. -/
theorem commandError_of_registers {i : Instr} (h : i.wellFormed = true) (hi : ∀ len, lengthError len i = none) (len : Nat) :
    commandError len i = none :=
  (commandError_of_wellFormed h len).trans (hi len)

/-- Settles O1: the immediate has 12 bits. -/
theorem ldiWritesImmediate : Obligations.LdiWritesImmediate := by
  intro wd imm s hd
  obtain ⟨t, ht, hw⟩ := exec_wrote (commandError_of_registers (i := .ldi wd imm) hd (fun _ => rfl) s.msgLen.toNat)
  refine ⟨_, t, ht, hw, ?_⟩
  rw [commandValue, immWord, BitVec.toNat_setWidth_of_le (by decide)]

/-- Settles O3: LDB's second check. -/
theorem ldbWrongLengthRaises : Obligations.LdbWrongLengthRaises := by
  intro wd s hd hlen hne
  refine exec_raised ?_
  rw [commandError_ldb hd, if_neg (by omega), if_pos hne]

/-- Settles O4: the range check comes first in each of the three. -/
theorem longMessageRaisesLengthRange : Obligations.LongMessageRaisesLengthRange := by
  intro wd s i hd hlen hi
  simp only [List.mem_cons, List.not_mem_nil, or_false] at hi
  refine exec_raised ?_
  rcases hi with rfl | rfl | rfl
  · exact (commandError_of_wellFormed (i := .ldb wd) hd _).trans (if_pos hlen)
  · exact (commandError_of_wellFormed (i := .enc wd) hd _).trans (if_pos hlen)
  · exact (commandError_of_wellFormed (i := .digest wd) hd _).trans (if_pos hlen)

/-- Settles O5: bit `n` of the result is bit `n - imm` of the operand. -/
theorem rolRotatesLeft : Obligations.RolRotatesLeft := by
  intro wd wa imm s hd ha
  refine ⟨_, _, exec_rol hd ha imm s, wrote_writeReg _ _ s, fun n hn => ?_⟩
  rw [getLsbD_rotL _ _ _ (Nat.mod_lt _ (by decide))]
  congr 1
  omega

/-- Settles O6: bit `n` of the result is bit `n + imm` of the operand. -/
theorem rorRotatesRight : Obligations.RorRotatesRight := by
  intro wd wa imm s hd ha
  obtain ⟨t, ht, hw⟩ := exec_wrote (commandError_of_registers (i := .ror wd wa imm)
    (Bool.and_eq_true_iff.2 ⟨hd, ha⟩) (fun _ => rfl) s.msgLen.toNat)
  refine ⟨_, t, ht, hw, fun n hn => ?_⟩
  rw [commandValue, getLsbD_rotR _ _ _ hn, immCount, Nat.add_mod_mod]

theorem message_getElem? (s : State) {k : Nat} (hk : k < (message s).length) : (message s)[k]? = some (msgByte k s) := by
  rw [message, msgRead_getElem? 0 _ k (by rwa [message_length] at hk), Nat.zero_add]

/-- Settles O9: the message is the list of the bytes below MSGLEN, and `EncodeToBlock` is the fold of its chunks. -/
theorem encWritesEncodedMessage : Obligations.EncWritesEncodedMessage := by
  intro wd s hd hlen
  obtain ⟨t, ht, hw⟩ := exec_wrote (s := s)
    ((commandError_of_wellFormed (i := .enc wd) hd _).trans (if_neg (not_lt.2 hlen)))
  exact ⟨message s, t, message_length s, fun _ => message_getElem? s, rfl, ht, hw⟩

/-- Settles O13: `DigestValue` of the message is the pipeline's steps by definition. -/
theorem digestWritesPipelineValue : Obligations.DigestWritesPipelineValue := by
  intro wd s hd hlen
  obtain ⟨t, ht, hw⟩ := exec_wrote (s := s)
    ((commandError_of_wellFormed (i := .digest wd) hd _).trans (if_neg (not_lt.2 hlen)))
  exact ⟨message s, _, _, _, _, t, message_length s, fun _ => message_getElem? s, rfl, rfl, rfl, rfl, ht, hw⟩

theorem bytesToNat_lt (bs : List Byte) : bytesToNat bs < 256 ^ bs.length := by
  rw [← natToBytes_bytesToNat bs, bytesToNat_natToBytes, natToBytes_length]
  exact Nat.mod_lt _ (by positivity)

/-- Big-endian bytes as a sum, one summand a byte. -/
theorem bytesToNat_map_range (f : Nat → Byte) (n : Nat) :
    bytesToNat ((List.range n).map f) = ∑ k ∈ Finset.range n, (f k).toNat * 2 ^ (8 * (n - 1 - k)) := by
  induction n with
  | zero => rfl
  | succ n ih =>
    rw [List.range_succ, List.map_append, List.map_singleton, bytesToNat_append_singleton, ih, Finset.sum_range_succ,
      Finset.sum_mul, show n + 1 - 1 - n = 0 by omega, Nat.mul_zero, pow_zero, Nat.mul_one]
    congr 1
    refine Finset.sum_congr rfl fun k hk => ?_
    have hk : k < n := Finset.mem_range.1 hk
    rw [show 8 * (n + 1 - 1 - k) = 8 * (n - 1 - k) + 8 by omega, pow_add]
    ring

/-- Settles O2: 64 bytes fit a block, so the block's value is that of the bytes. -/
theorem ldbWritesMessageBytes : Obligations.LdbWritesMessageBytes := by
  intro wd s hd hlen
  have h64 : s.msgLen.toNat = 64 := congrArg BitVec.toNat hlen
  have hcap := msgCap_ge
  obtain ⟨t, ht, hw⟩ := exec_wrote (i := .ldb wd) (s := s)
    (by rw [commandError_ldb hd, h64, if_neg (by omega), if_neg (not_not.2 rfl)])
  refine ⟨_, t, ht, hw, ?_⟩
  have hlt : bytesToNat (message s) < 2 ^ 512 := by
    have := bytesToNat_lt (message s)
    rwa [message_length, h64, show 256 = 2 ^ 8 from rfl, ← pow_mul] at this
  rw [commandValue, bytesToWord, BitVec.toNat_ofNat, Nat.mod_eq_of_lt hlt, message, h64, msgRead, bytesToNat_map_range]
  simp only [Nat.zero_add]

end Sys2Proof.Machine
end

section
/-! The step (20_memory.md R44 to R56, 60_exceptions.md R198, R205, 70_reset_and_hazards.md R215, R216): one host action a
step, what a write and a read do, the invariant, and the run of a list of commands (47_orchestrator.md R179). -/

namespace Sys2Proof.Machine

/-! ### The control registers -/

theorem locate_cmdWord : locate 0 = .cmd := by decide
theorem locate_errInfoWord : locate 2 = .errInfo := by decide
theorem locate_msgLenWord : locate 3 = .msgLen := by decide

theorem hostWrite_cmd (c : Word32) (s : State) : hostWrite 0 c s = writeCmd c s := by
  obtain ⟨_, h⟩ | ⟨hne, _⟩ := hostWrite_cases 0 c s
  · exact h
  · exact absurd locate_cmdWord hne

theorem writeCmd_of_decode {c : Word32} {i : Instr} (h : decode c = some i) (s : State) : writeCmd c s = exec i s := by
  rw [writeCmd, h]

theorem writeCmd_of_illegal {c : Word32} (h : decode c = none) (s : State) :
    writeCmd c s = .next (raise .illegalCommand c s) := by
  rw [writeCmd, h]

theorem statusWord_toNat (s : State) : (statusWord s).toNat = s.err.toNat :=
  BitVec.toNat_setWidth_of_le (by decide)

/-- Settles O32: each of the four words is a cell of its own. -/
theorem controlRegisterAccess : Obligations.ControlRegisterAccess := fun s v =>
  ⟨hostRead_of_locate locate_cmdWord s, hostRead_of_locate locate_statusWord s ▸ statusWord_toNat s,
    hostRead_of_locate locate_errInfoWord s, hostRead_of_locate locate_msgLenWord s,
    hostWrite_of_locate locate_errInfoWord WindowCell.noConfusion v s,
    { s with msgLen := v }, hostWrite_of_locate locate_msgLenWord WindowCell.noConfusion v s,
    hostRead_of_locate locate_msgLenWord _, fun _ => rfl, rfl, rfl, fun _ => rfl, rfl, rfl⟩

/-- Settles O27: every field of `State.reset`, and the three words that show one. -/
theorem resetState : Obligations.ResetState :=
  ⟨fun r => by rw [State.reset, Fin.getElem_fin, Vector.getElem_replicate], hostRead_of_locate locate_statusWord _,
    hostRead_of_locate locate_errInfoWord _, hostRead_of_locate locate_msgLenWord _, fun _ => rfl, rfl, rfl⟩

/-! ### One step -/

theorem step_of_idle {s : State} (h : s.pending = []) : step s = .next s := by
  rw [step, advance, h]

theorem step_of_pending {s : State} {a : HostAction} {rest : List HostAction} (h : s.pending = a :: rest) :
    step s = perform a { s with pending := rest } := by
  rw [step, advance, h]

theorem step_of_write {s : State} {word : Nat} {v : Word32} {rest : List HostAction}
    (h : s.pending = .write word v :: rest) : step s = hostWrite word v { s with pending := rest } :=
  step_of_pending h

theorem step_of_command {s : State} {c : Word32} {rest : List HostAction} {i : Instr}
    (h : s.pending = .write 0 c :: rest) (hc : decode c = some i) : step s = exec i { s with pending := rest } := by
  rw [step_of_write h, hostWrite_cmd, writeCmd_of_decode hc]

theorem decode_of_decodeTableWord {nbits w : Nat} {i : Instr} (h : decodeTableWord nbits w = some i) :
    decode (BitVec.ofNat 32 (w % 2 ^ nbits)) = some i := by
  unfold decodeTableWord at h
  split at h
  · exact h
  · contradiction

/-- Settles O21: a step performs the first pending action, and a decodable word at CMD runs its command. -/
theorem stepRunsDecodedCommand : Obligations.StepRunsDecodedCommand :=
  ⟨fun _ _ _ _ => step_of_command, fun _ _ _ _ => step_of_write,
    fun s nbits w _ h => step_of_command (s := s.withFetchWord nbits w) rfl (decode_of_decodeTableWord h)⟩

/-- Settles O22: a write of a word to CMD that decodes to nothing is a `raise`. -/
theorem illegalWordRaises : Obligations.IllegalWordRaises := by
  intro s c rest h hc
  exact ⟨_, by rw [step_of_write h, hostWrite_cmd, writeCmd_of_illegal hc], raised_raise _ c _⟩

/-- Settles O23: what a read returns does not depend on the host's lists. -/
theorem readsAndIdlingChangeNothing : Obligations.ReadsAndIdlingChangeNothing := by
  refine ⟨fun s word rest h => ⟨_, step_of_pending h, rfl, rfl, ?_⟩, fun s => step_of_idle⟩
  have hread : hostRead word { s with pending := rest } = hostRead word s := by
    rw [hostRead, hostRead]
    cases locate word <;> rfl
  exact congrArg (fun answer => s.answers ++ [answer]) hread

/-! ### Every step answers -/

theorem commandResult_pending (i : Instr) (s : State) : (commandResult i s).pending = s.pending := by
  rw [commandResult]
  split
  · exact raise_pending _ _ s
  · rfl

theorem writeCell_pending (v : Word32) (s : State) (cell : WindowCell) : (writeCell v s cell).pending = s.pending := by
  cases cell with
  | status =>
    obtain ⟨_, h⟩ | ⟨_, h⟩ := writeStatus_cases v s
    · exact congrArg State.pending h
    · exact (congrArg State.pending h).trans (clearError_pending s)
  | _ => rfl

theorem writeCmd_answers (c : Word32) (s : State) : ∃ t, writeCmd c s = .next t ∧ t.pending = s.pending := by
  cases h : decode c with
  | none => exact ⟨_, writeCmd_of_illegal h s, raise_pending _ c s⟩
  | some i => exact ⟨_, (writeCmd_of_decode h s).trans (exec_eq i s), commandResult_pending i s⟩

theorem perform_answers (a : HostAction) (s : State) : ∃ t, perform a s = .next t ∧ t.pending = s.pending := by
  cases a with
  | read word => exact ⟨_, rfl, rfl⟩
  | write word v =>
    obtain ⟨_, h⟩ | ⟨_, h⟩ := hostWrite_cases word v s
    · obtain ⟨t, ht, hp⟩ := writeCmd_answers v s
      exact ⟨t, h.trans ht, hp⟩
    · exact ⟨_, h, writeCell_pending v s _⟩

theorem step_answers (s : State) : ∃ t, step s = .next t ∧ t.pending = s.pending.tail := by
  cases h : s.pending with
  | nil => exact ⟨s, step_of_idle h, h⟩
  | cons a rest =>
    obtain ⟨t, ht, hp⟩ := perform_answers a { s with pending := rest }
    exact ⟨t, (step_of_pending h).trans ht, hp⟩

theorem run_succ_of_step (M : Host.Core) {s t : M.State} (h : M.step s = .next t) (k : Nat) :
    M.run (k + 1) s = M.run k t := by
  rw [Host.Core.run, h]

theorem core_run_succ {s t : State} (h : step s = .next t) (k : Nat) :
    Host.Core.run core (k + 1) s = Host.Core.run core k t :=
  run_succ_of_step core h k

theorem core_run_all (n : Nat) (s : State) (h : s.pending.length = n) :
    ∃ t : State, Host.Core.run core n s = .next t ∧ t.pending = [] := by
  induction n generalizing s with
  | zero => exact ⟨s, rfl, List.length_eq_zero_iff.1 h⟩
  | succ n ih =>
    obtain ⟨t, ht, hp⟩ := step_answers s
    rw [core_run_succ ht]
    exact ih t (by rw [hp, List.length_tail, h, Nat.add_sub_cancel])

/-- Settles O24: every host action answers, and a step takes one off the list. -/
theorem everyProgramRunsToItsEnd : Obligations.EveryProgramRunsToItsEnd :=
  ⟨step_answers, fun s => core_run_all _ s rfl⟩

/-! ### The invariant -/

theorem legalErr_code {e : ErrorKind} (h : e ≠ .encodingError) : legalErr e.code = true := by
  cases e with
  | encodingError => exact absurd rfl h
  | _ => decide

/-- The invariant speaks of ERR, ERRINFO and MSG alone. -/
theorem State.Inv.congr {s t : State} (h : s.Inv) (herr : t.err = s.err) (hinfo : t.errInfo = s.errInfo)
    (hmsg : t.msg = s.msg) : t.Inv where
  err_legal := herr ▸ h.err_legal
  errInfo_zero := by rw [herr, hinfo]; exact h.errInfo_zero
  msg_wf := hmsg ▸ h.msg_wf
  msg_inRange := hmsg ▸ h.msg_inRange

theorem State.Inv.raise {s : State} (h : s.Inv) {e : ErrorKind} (he : e ≠ .encodingError) (c : Word32) :
    (raise e c s).Inv where
  err_legal := by
    rw [raise_err]
    split
    · exact legalErr_code he
    · exact h.err_legal
  errInfo_zero h0 := absurd h0 (raise_err_ne_zero e c s)
  msg_wf := by rw [raise_msg]; exact h.msg_wf
  msg_inRange := by rw [raise_msg]; exact h.msg_inRange

theorem State.Inv.clearError {s : State} (h : s.Inv) : (clearError s).Inv where
  err_legal := rfl
  errInfo_zero _ := rfl
  msg_wf := h.msg_wf
  msg_inRange := h.msg_inRange

theorem State.Inv.msgWrite {s : State} (h : s.Inv) {a : Nat} {bs : List Byte} (ha : a + bs.length ≤ Config.msgCap) :
    (msgWrite a bs s).Inv where
  err_legal := h.err_legal
  errInfo_zero := h.errInfo_zero
  msg_wf := Memory.setMany_wf h.msg_wf a bs
  msg_inRange := Memory.setMany_inRange h.msg_inRange ha

theorem State.Inv.exec {s t : State} {i : Instr} (h : s.Inv) (ht : exec i s = .next t) : t.Inv := by
  cases exec_effect ht with
  | wrote v _ ht => exact ht ▸ h.congr rfl rfl rfl
  | raised e he ht => exact ht ▸ h.raise he (encode i)

/-- A write of a cell of the map: only one of a message word, which lies within the message space, stores bytes. -/
theorem State.Inv.writeCell {s : State} (h : s.Inv) (v : Word32) (word : Nat) : (writeCell v s (locate word)).Inv := by
  cases hcell : locate word with
  | status =>
    obtain ⟨_, hw⟩ | ⟨_, hw⟩ := writeStatus_cases v s
    · exact hw.symm.subst (motive := State.Inv) h
    · exact hw.symm.subst (motive := State.Inv) h.clearError
  | msgLen => exact h.congr rfl rfl rfl
  | msgWin n =>
    obtain ⟨_, _, hn⟩ := locate_msgWin hcell
    exact h.msgWrite (bs := wordBytes v) hn
  | _ => exact h

theorem State.Inv.perform {s t : State} (h : s.Inv) {a : HostAction} (ht : perform a s = .next t) : t.Inv := by
  cases a with
  | read word => exact Host.Outcome.next.inj ht ▸ h.congr rfl rfl rfl
  | write word v =>
    obtain ⟨_, hw⟩ | ⟨_, hw⟩ := hostWrite_cases word v s
    · obtain ⟨_, rfl⟩ | ⟨i, _, hi⟩ := writeCmd_cases (hw.symm.trans ht)
      · exact h.raise (by decide) v
      · exact h.exec hi
    · exact Host.Outcome.next.inj (hw.symm.trans ht) ▸ h.writeCell v word

/-- Settles O26: the fields of `State.reset`. -/
theorem resetSatisfiesInvariant : Obligations.ResetSatisfiesInvariant := ⟨by decide, fun _ => rfl, rfl, rfl⟩

/-- Settles O25: a step idles or performs one host action, and each kind of action keeps the invariant. -/
theorem stepKeepsInvariant : Obligations.StepKeepsInvariant := by
  intro s t h ht
  obtain ⟨_, rfl⟩ | ⟨a, rest, _, hp⟩ := step_cases ht
  · exact h
  · exact (h.congr (t := { s with pending := rest }) rfl rfl rfl).perform hp

/-! ### A run of commands -/

/-- The commands in turn, each writing its value to its destination. -/
def runCommands : List Instr → State → State
  | [], s => s
  | i :: is, s => runCommands is (writeReg i.dest (commandValue s i) s)

theorem commandValue_pending (s : State) (p : List HostAction) (i : Instr) :
    commandValue { s with pending := p } i = commandValue s i :=
  commandValue_congr rfl rfl i

/-- Legal commands that raise nothing at MSGLEN run to their end and have their effects in turn. -/
theorem core_run_commands (is : List Instr) (s : State)
    (h : ∀ i ∈ is, i.wellFormed = true ∧ lengthError s.msgLen.toNat i = none) :
    Host.Core.run core is.length { s with pending := is.map fun i => .write 0 (encode i) } =
      .next (runCommands is { s with pending := [] }) := by
  induction is generalizing s with
  | nil => rfl
  | cons i is ih =>
    obtain ⟨hi, his⟩ := List.forall_mem_cons.1 h
    have hstep : step { s with pending := (i :: is).map fun i => .write 0 (encode i) } =
        .next { writeReg i.dest (commandValue s i) s with pending := is.map fun i => .write 0 (encode i) } := by
      rw [step_of_command rfl (decode_encode hi.1),
        exec_of_none (by rw [commandError_of_wellFormed hi.1]; exact hi.2), commandValue_pending]
      rfl
    have hresult : runCommands (i :: is) { s with pending := [] } =
        runCommands is { writeReg i.dest (commandValue s i) s with pending := [] } := by
      rw [runCommands, commandValue_pending]
      rfl
    exact (core_run_succ hstep is.length).trans ((ih (writeReg i.dest (commandValue s i) s) his).trans
      (congrArg Host.Outcome.next hresult.symm))

/-- The sequence of R179. -/
def digestSequence : List Instr :=
  [.enc 0, .ldi 1 1, .mix 2 0 1, .ext 3 0 2, .inv 4 3, .mix 5 4 2, .fmix 6 3 5]

theorem digestSequence_words : digestSequence.map (fun i => HostAction.write 0 (encode i)) =
    [.write 0 0x20000000#32, .write 0 0x01100001#32, .write 0 0x30201000#32, .write 0 0x40302000#32,
      .write 0 0x12430000#32, .write 0 0x30542000#32, .write 0 0x50635000#32] := by
  decide

/-- The registers that the sequence leaves, written one after the other. -/
theorem runCommands_digestSequence (s : State) {block seedState h1 h2 : Word} (hblock : block = encodeToBlock (message s))
    (hseed : seedState = mix Config.num Config.quantMul block 1) (hh1 : h1 = extractBits Config.num block seedState)
    (hh2 : h2 = mix Config.num Config.quantMul (inv512 h1) seedState) :
    runCommands digestSequence s = writeReg 6 (finalMix h1 h2) (writeReg 5 h2 (writeReg 4 (inv512 h1) (writeReg 3 h1
      (writeReg 2 seedState (writeReg 1 1 (writeReg 0 block s)))))) := by
  have hone : immWord 1 = 1 := by simp [immWord]
  have hne (a b : RegField) (h : regIndex a ≠ regIndex b) (v : Word) (s : State) :=
    readReg_writeReg_ne (r := b) (t := a) h v s
  simp only [digestSequence, runCommands, Instr.dest, commandValue, ← hblock, hone, readReg_writeReg_same,
    hne 1 0 (by decide), hne 2 0 (by decide), ← hseed, hne 3 2 (by decide), ← hh1, hne 4 2 (by decide), ← hh2,
    hne 5 3 (by decide), hne 4 3 (by decide)]

/-- Seven registers written one after the other hold what was written to each, and W7 and ERR are as they were. -/
theorem writeReg_seven (s : State) (v0 v1 v2 v3 v4 v5 v6 : Word) {u : State}
    (hu : u = writeReg 6 v6 (writeReg 5 v5 (writeReg 4 v4 (writeReg 3 v3 (writeReg 2 v2 (writeReg 1 v1
      (writeReg 0 v0 s))))))) :
    u.w[0] = v0 ∧ u.w[1] = v1 ∧ u.w[2] = v2 ∧ u.w[3] = v3 ∧ u.w[4] = v4 ∧ u.w[5] = v5 ∧ u.w[6] = v6 ∧
      u.w[7] = s.w[7] ∧ u.err = s.err := by
  subst hu
  simp [regIndex_val]

/-- Settles O56: the commands of the sequence write the values of `DigestValue`'s steps, each to a register of its own. -/
theorem digestEqualsCommandSequence : Obligations.DigestEqualsCommandSequence := by
  intro s hlen
  have hnone : lengthError s.msgLen.toNat (.digest 6) = none := if_neg (not_lt.2 hlen)
  have hdigest := core_run_commands [.digest 6] s (List.forall_mem_singleton.2 ⟨rfl, hnone⟩)
  have hlegal : ∀ i ∈ digestSequence, i.wellFormed = true := by decide
  have hldb : ∀ wd, Instr.ldb wd ∉ digestSequence := by decide
  have hsequence := core_run_commands digestSequence s fun i hi =>
    ⟨hlegal i hi, lengthError_eq_none hlen fun ⟨wd, hwd⟩ => absurd (hwd ▸ hi) (hldb wd)⟩
  rw [digestSequence_words] at hsequence
  have ht := wrote_writeReg 6 (commandValue { s with pending := [] } (.digest 6)) { s with pending := [] }
  obtain ⟨h0, h1, h2, h3, h4, h5, h6, h7, herr⟩ :=
    writeReg_seven _ _ _ _ _ _ _ _ (runCommands_digestSequence { s with pending := [] } rfl rfl rfl rfl)
  have hvalue : commandValue { s with pending := [] } (.digest 6) =
      (runCommands digestSequence { s with pending := [] }).w[6] := h6.symm
  refine ⟨_, _, hdigest, hsequence, ht.value.trans hvalue, ht.others, h0, h1, ?_, ?_, ?_, ?_, ?_, h7, ht.err, herr⟩
  · rw [h2, h0]
  · rw [h3, h2, h0]
  · rw [h4, h3]
  · rw [h5, h4, h2]
  · rw [h6, h5, h3]

end Sys2Proof.Machine
end

section
/-! The collision of the block encoder (42_block_encoder.md R106): the fold takes the XOR of two chunks byte by byte, so two
heads of one length may change places. -/

namespace Sys2Proof.Machine

/-- Two blocks with the same 64 bytes are equal. -/
theorem word_eq_of_bytes {x y : Word}
    (h : ∀ k < 64, x.extractLsb' (8 * (63 - k)) 8 = y.extractLsb' (8 * (63 - k)) 8) : x = y := by
  refine BitVec.eq_of_getLsbD_eq fun n hn => ?_
  have hbyte := congrArg (fun b => BitVec.getLsbD b (n % 8)) (h (63 - n / 8) (by omega))
  simpa only [BitVec.getLsbD_extractLsb', Nat.mod_lt n (by decide : 8 > 0), decide_true, Bool.true_and,
    show 8 * (63 - (63 - n / 8)) + n % 8 = n by omega] using hbyte

theorem bytesToWord_extractLsb' {bs : List Byte} (hlen : bs.length = 64) {k : Nat} (hk : k < 64) :
    (bytesToWord bs).extractLsb' (8 * (63 - k)) 8 = bs.getD k 0 := by
  rw [List.getD_eq_getElem?_getD, getElem?_of_bytesToWord hlen hk, Option.getD_some]

/-- Two pairs of blocks have the same XOR where each of their bytes has. -/
theorem bytesToWord_xor_swap_heads {x y r q : List Byte} (hx : x.length = y.length) (hr : r.length = q.length)
    (hlen : x.length + r.length = 64) :
    bytesToWord (x ++ r) ^^^ bytesToWord (y ++ q) = bytesToWord (y ++ r) ^^^ bytesToWord (x ++ q) := by
  refine word_eq_of_bytes fun k hk => ?_
  rw [BitVec.extractLsb'_xor, BitVec.extractLsb'_xor, bytesToWord_extractLsb' (by simp; omega) hk,
    bytesToWord_extractLsb' (by simp; omega) hk,
    bytesToWord_extractLsb' (by simp; omega) hk, bytesToWord_extractLsb' (by simp; omega) hk]
  rcases lt_or_ge k x.length with h | h
  · rw [List.getD_append _ _ _ _ h, List.getD_append _ _ _ _ (hx ▸ h), List.getD_append _ _ _ _ (hx ▸ h),
      List.getD_append _ _ _ _ h, BitVec.xor_comm]
  · rw [List.getD_append_right _ _ _ _ h, List.getD_append_right _ _ _ _ (hx ▸ h), List.getD_append_right _ _ _ _ (hx ▸ h),
      List.getD_append_right _ _ _ _ h, hx]

/-- The bytes that `Pad` appends depend on the length of the message alone (R102). -/
def padding (n : Nat) : List Byte := [0x80#8] ++ List.replicate (padZeros n) 0#8 ++ natToBytes 8 (8 * n % 2 ^ 64)

theorem pad_eq_append_padding (m : List Byte) : pad m = m ++ padding m.length := by
  simp only [pad, padding, List.append_assoc]

/-- A message of 65 to 119 bytes makes two chunks. -/
theorem encodeToBlock_two_chunks {a b : List Byte} (ha : a.length = 64) (hb1 : 1 ≤ b.length) (hb2 : b.length ≤ 55) :
    encodeToBlock (a ++ b) = bytesToWord a ^^^ bytesToWord (b ++ padding (a ++ b).length) := by
  have hlen : (a ++ b).length = 64 + b.length := by rw [List.length_append, ha]
  have hcount : chunkCount (a ++ b).length = 2 := by rw [hlen, chunkCount]; omega
  have hpad := pad_length_eq_mul_chunkCount (a ++ b)
  rw [hcount, pad_eq_append_padding, List.append_assoc, List.length_append, ha] at hpad
  have hrest : (b ++ padding (a ++ b).length).length = 64 := by omega
  have hchunks : chunks (a ++ b) = [bytesToWord a, bytesToWord (b ++ padding (a ++ b).length)] := by
    rw [chunks, hcount, pad_eq_append_padding, List.append_assoc]
    generalize b ++ padding (a ++ b).length = q at *
    have h0 : ((a ++ q).drop (64 * 0)).take 64 = a := List.take_left' ha
    have h1 : ((a ++ q).drop (64 * 1)).take 64 = q := by
      rw [List.drop_left' ha, List.take_of_length_le hrest.le]
    simp only [show List.range 2 = [0, 1] from rfl, List.map_cons, List.map_nil, h0, h1]
  rw [encodeToBlock, hchunks]
  exact (fold_append_singleton [_] _).trans (by rw [fold_singleton])

theorem encodeToBlock_swap {x y r : List Byte} (h1 : 1 ≤ x.length) (h55 : x.length ≤ 55) (hy : y.length = x.length)
    (hr : r.length = 64 - x.length) : encodeToBlock (x ++ r ++ y) = encodeToBlock (y ++ r ++ x) := by
  have hxr : (x ++ r).length = 64 := by rw [List.length_append]; omega
  have hyr : (y ++ r).length = 64 := by rw [List.length_append]; omega
  have hsame : (y ++ r ++ x).length = (x ++ r ++ y).length := by simp only [List.length_append]; omega
  have hpad := pad_length_eq_mul_chunkCount (x ++ r ++ y)
  have hlen : (x ++ r ++ y).length = 64 + x.length := by rw [List.length_append]; omega
  rw [pad_eq_append_padding, List.length_append, chunkCount] at hpad
  rw [encodeToBlock_two_chunks hxr (by omega) (by omega), encodeToBlock_two_chunks hyr h1 h55, hsame]
  exact bytesToWord_xor_swap_heads hy.symm (by omega) (by omega)

/-- Settles O39: the two messages have the same padding and the same two chunks but for their heads, which the fold does
not tell apart. -/
theorem foldCollision : Obligations.FoldCollision := by
  intro x y r h1 h55 hy hr
  have h := encodeToBlock_swap h1 h55 hy hr
  exact ⟨h, fun num q => by rw [digestValue, digestValue, h]⟩

end Sys2Proof.Machine
end

section
/-! Binary64 (00_scope.md R13 to R15): each operator rounds once, the elementary functions are correctly rounded and bounded,
and what a rounding keeps of the multiples of a power of 2. -/

namespace Sys2Proof

/-! ### The operators -/

/-- An operator's result is the rounding of the exact one, where that is in the finite range or the result is finite. -/
theorem F64.rounded_isRounding_of {r : ℚ} (z : Bool)
    (h : |r| ≤ (2 ^ 53 - 1) * 2 ^ 971 ∨ (F64.rounded z r).isFinite = true) :
    F64.IsRounding (r : ℝ) (F64.rounded z r) := by
  by_cases h0 : r = 0
  · rw [F64.rounded, if_pos h0, h0, Rat.cast_zero]
    exact F64.zero_isRounding z
  · rw [F64.rounded, if_neg h0] at h ⊢
    exact F64.rn_isRounding r (h.elim (F64.rn_isFinite_of_le r 971 le_rfl) id)

theorem F64.add_of_finite {a b : F64} (ha : a.isFinite = true) (hb : b.isFinite = true) :
    a.add b = F64.rounded (a.isNeg && b.isNeg) (a.rat + b.rat) :=
  F64.onFinite_of_finite ha hb _

theorem F64.sub_of_finite {a b : F64} (ha : a.isFinite = true) (hb : b.isFinite = true) :
    a.sub b = F64.rounded (a.isNeg && !b.isNeg) (a.rat - b.rat) :=
  F64.onFinite_of_finite ha hb _

theorem F64.mul_of_finite {a b : F64} (ha : a.isFinite = true) (hb : b.isFinite = true) :
    a.mul b = F64.rounded (a.isNeg ^^ b.isNeg) (a.rat * b.rat) :=
  F64.onFinite_of_finite ha hb _

theorem F64.div_of_finite {a b : F64} (ha : a.isFinite = true) (hb : b.isFinite = true) (h0 : b.rat ≠ 0) :
    a.div b = F64.rounded (a.isNeg ^^ b.isNeg) (a.rat / b.rat) := by
  rw [F64.div, F64.onFinite_of_finite ha hb, if_neg h0]

/-- Settles O46: on finite operands each operator is `rounded` of the exact result. -/
theorem operatorsRoundOnce : Obligations.OperatorsRoundOnce := by
  rintro a b _ rfl ha hb
  simp only [← Rat.cast_add, ← Rat.cast_sub, ← Rat.cast_mul, ← Rat.cast_div]
  refine ⟨fun h => ?_, fun h => ?_, fun h => ?_, fun h0 h => ?_⟩
  · rw [F64.add_of_finite ha hb] at h ⊢
    exact F64.rounded_isRounding_of _ h
  · rw [F64.sub_of_finite ha hb] at h ⊢
    exact F64.rounded_isRounding_of _ h
  · rw [F64.mul_of_finite ha hb] at h ⊢
    exact F64.rounded_isRounding_of _ h
  · rw [F64.div_of_finite ha hb h0] at h ⊢
    exact F64.rounded_isRounding_of _ h

/-! ### The multiples of a power of 2 among the binary64 values -/

/-- A canonical value that is not below `2^52 / 2^n` in size is a multiple of `1 / 2^n`. -/
theorem F64.exists_multiple {g : F64} (hc : g.canonical = true) (hf : g.isFinite = true) {n : Nat}
    (h : 2 ^ 52 / 2 ^ n ≤ |g.rat|) : ∃ k : Int, g.rat = k / 2 ^ n := by
  cases g with
  | infinite neg => contradiction
  | nan => contradiction
  | finite neg m e =>
    simp only [F64.canonical, Bool.and_eq_true, decide_eq_true_eq] at hc
    have hm : (m : ℚ) < 2 ^ 53 := by exact_mod_cast hc.1.1
    rw [F64.rat_finite, F64.leastExp_eq] at h ⊢
    have hsize : |(signed neg m : ℚ) * 2 ^ e / 2 ^ 1074| = (m : ℚ) * 2 ^ e / 2 ^ 1074 := by
      rw [abs_div, abs_mul, abs_of_pos (show (0 : ℚ) < 2 ^ e by positivity),
        abs_of_pos (show (0 : ℚ) < 2 ^ 1074 by positivity)]
      cases neg <;> simp
    have he : 1074 ≤ e + n := by
      by_contra hlt
      have hpow : (2 : ℚ) ^ 53 * (2 ^ e * 2 ^ n) ≤ 2 ^ 52 * 2 ^ 1074 := by
        rw [← pow_add, ← pow_add, ← pow_add]
        exact pow_le_pow_right₀ (by norm_num) (by omega)
      rw [hsize, div_le_div_iff₀ (by positivity) (by positivity), mul_assoc (m : ℚ)] at h
      have hpos : (0 : ℚ) < 2 ^ e * 2 ^ n := by positivity
      exact absurd h (not_le.2 ((mul_lt_mul_of_pos_right hm hpos).trans_le hpow))
    refine ⟨signed neg m * 2 ^ (e + n - 1074), ?_⟩
    have hsplit : (2 : ℚ) ^ e * 2 ^ n = 2 ^ (e + n - 1074) * 2 ^ 1074 := by
      rw [← pow_add, ← pow_add, Nat.sub_add_cancel he]
    rw [div_eq_div_iff (by positivity) (by positivity), mul_assoc, hsplit, Int.cast_mul, Int.cast_pow, Int.cast_ofNat,
      mul_assoc]

/-! ### PI and the conversion factors -/

theorem pi_rat : F64.pi.rat = 884279719003555 / 281474976710656 := by
  decide +kernel

theorem pi_finite : F64.pi.isFinite = true := by decide

theorem pi_canonical : F64.pi.canonical = true := by decide

theorem pi_near : |(F64.pi.rat : ℝ) - Real.pi| < 1 / 2 ^ 52 := by
  have hlow := Real.pi_gt_d20
  have hhigh := Real.pi_lt_d20
  rw [pi_rat, abs_lt]
  push_cast
  constructor <;> norm_num at * <;> linarith

/-- Binary64 values are at least `1 / 2^51` apart where they are not below 2. -/
theorem pi_gap {g : F64} (hc : g.canonical = true) (hf : g.isFinite = true) (hne : g.rat ≠ F64.pi.rat) :
    (1 : ℚ) / 2 ^ 51 ≤ |g.rat - F64.pi.rat| := by
  rw [pi_rat] at hne ⊢
  rcases lt_or_ge |g.rat| 2 with hlt | hge
  · have hlt := (abs_lt.1 hlt).2
    exact le_abs.2 (Or.inr (by norm_num; linarith))
  · obtain ⟨k, hk⟩ := F64.exists_multiple hc hf (n := 51) (by norm_num; exact hge)
    have hpi : (884279719003555 / 281474976710656 : ℚ) = (7074237752028440 : Int) / 2 ^ 51 := by norm_num
    rw [hk, hpi] at hne ⊢
    have hk1 : (1 : Int) ≤ |k - 7074237752028440| := Int.one_le_abs (sub_ne_zero.2 fun h => hne (by rw [h]))
    have hk2 : (1 : ℚ) ≤ |(k : ℚ) - (7074237752028440 : Int)| := by exact_mod_cast hk1
    rw [← sub_div, abs_div, abs_of_pos (show (0 : ℚ) < 2 ^ 51 by positivity)]
    exact div_le_div_of_nonneg_right hk2 (by positivity)

/-- A value less than half as far from a number as every other value is from it is the number's rounding. -/
theorem F64.isRounding_of_gap {r : ℝ} {f : F64} {d : ℝ} (hc : f.canonical = true) (hf : f.isFinite = true)
    (hnear : |(f.rat : ℝ) - r| < d)
    (hgap : ∀ g : F64, g.canonical = true → g.isFinite = true → g.rat ≠ f.rat → d + d ≤ |(g.rat : ℝ) - f.rat|) :
    F64.IsRounding r f := by
  have key : ∀ g : F64, g.canonical = true → g.isFinite = true → g.rat ≠ f.rat →
      |(f.rat : ℝ) - r| < |(g.rat : ℝ) - r| := fun g hgc hgf hne => by
    have htri := abs_sub_le (g.rat : ℝ) r f.rat
    rw [abs_sub_comm r] at htri
    linarith [hgap g hgc hgf hne]
  refine ⟨hc, hf, fun g hgc hgf => ?_, fun g hgc hgf heq hne => absurd heq (key g hgc hgf hne).ne⟩
  by_cases h : g.rat = f.rat
  · rw [h]
  · exact (key g hgc hgf h).le

theorem pi_isRounding : F64.IsRounding Real.pi F64.pi := by
  refine F64.isRounding_of_gap pi_canonical pi_finite pi_near fun g hc hf hne => ?_
  have hgap : ((1 / 2 ^ 51 : ℚ) : ℝ) ≤ ((|g.rat - F64.pi.rat| : ℚ) : ℝ) := Rat.cast_le.2 (pi_gap hc hf hne)
  push_cast at hgap
  linarith

/-! ### SIN, COS and ATAN -/

theorem natAbs_num_pos {r : ℚ} (h : r ≠ 0) : 0 < r.num.natAbs := Int.natAbs_pos.2 (Rat.num_ne_zero.2 h)

/-- An odd function of the operand's absolute value, with the operand's sign, is the function of the operand. -/
theorem F64.withSign_isRounding {f : ℝ → ℝ} (hodd : ∀ x, f (-x) = -f x) {r : ℚ} {g : F64}
    (h : F64.IsRounding (f |(r : ℝ)|) g) : F64.IsRounding (f r) (F64.withSign (decide (r < 0)) g) := by
  rcases lt_or_ge r 0 with hneg | hpos
  · have hr : (r : ℝ) = -|(r : ℝ)| := by rw [abs_of_neg (by exact_mod_cast hneg), neg_neg]
    rw [decide_eq_true hneg, F64.withSign_true, hr, hodd]
    exact h.neg
  · rw [decide_eq_false (not_lt.2 hpos), F64.withSign_false]
    rwa [abs_of_nonneg (by exact_mod_cast hpos)] at h

theorem sin_isRounding {x : F64} (hx : x.isFinite = true) : F64.IsRounding (Real.sin x.rat) (Config.num.sin x) := by
  rw [num_sin]
  by_cases h0 : x.rat = 0
  · rw [sinRn_of_zero hx h0, h0, Rat.cast_zero, Real.sin_zero]
    exact F64.zero_isRounding false
  · rw [sinRn_of_ne_zero hx h0]
    exact F64.withSign_isRounding Real.sin_neg
      (natAbs_div_den x.rat ▸ sinPos_isRounding (natAbs_num_pos h0) x.rat.den_pos)

theorem atan_isRounding {x : F64} (hx : x.isFinite = true) :
    F64.IsRounding (Real.arctan x.rat) (Config.num.atan x) := by
  rw [num_atan]
  by_cases h0 : x.rat = 0
  · rw [atanRn_of_zero hx h0, h0, Rat.cast_zero, Real.arctan_zero]
    exact F64.zero_isRounding false
  · rw [atanRn_of_ne_zero hx h0]
    exact F64.withSign_isRounding Real.arctan_neg
      (natAbs_div_den x.rat ▸ atanPos_isRounding (natAbs_num_pos h0) x.rat.den_pos)

theorem F64.ofNat_isRounding {n : Nat} (h : n < 2 ^ 53) : F64.IsRounding (n : ℝ) (F64.ofNat n) := by
  have hr := F64.rn_isRounding n (F64.ofNat_exact n h).1
  rwa [Rat.cast_natCast] at hr

theorem cos_isRounding {x : F64} (hx : x.isFinite = true) : F64.IsRounding (Real.cos x.rat) (Config.num.cos x) := by
  rw [num_cos]
  by_cases h0 : x.rat = 0
  · rw [cosRn_of_zero hx h0, h0, Rat.cast_zero, Real.cos_zero]
    exact_mod_cast F64.ofNat_isRounding (n := 1) (by norm_num)
  · rw [cosRn_of_ne_zero hx h0, ← Real.cos_abs, ← natAbs_div_den]
    exact cosPos_isRounding (natAbs_num_pos h0) x.rat.den_pos

/-- Settles O47: π is between two decimals of 20 places, and each function takes the operand's sign apart. -/
theorem elementaryCorrectlyRounded : Obligations.ElementaryCorrectlyRounded :=
  ⟨⟨pi_isRounding, by decide +kernel, rfl, by decide +kernel, rfl, by decide +kernel⟩, fun _ hx =>
    ⟨sin_isRounding hx, cos_isRounding hx, atan_isRounding hx⟩⟩

/-! ### The bounds N2 and N3 -/

theorem F64.IsRounding.abs_le_of_abs_le {r : ℝ} {f c : F64} (h : F64.IsRounding r f) (hc : c.canonical = true)
    (hcf : c.isFinite = true) (hr : |r| ≤ c.rat) : -c.rat ≤ f.rat ∧ f.rat ≤ c.rat := by
  obtain ⟨hlow, hhigh⟩ := abs_le.1 hr
  have hneg := h.neg.le hc hcf (by linarith)
  rw [F64.rat_neg] at hneg
  exact ⟨by linarith, h.le hc hcf hhigh⟩

theorem F64.ofNat_canonical {n : Nat} (h : n < 2 ^ 53) : (F64.ofNat n).canonical = true :=
  (F64.ofNat_isRounding h).canonical

/-- A correctly rounded function of values within -1 .. 1 is within -1 .. 1. -/
theorem bounded_one_of_isRounding {f : ℝ → ℝ} {g : F64 → F64} (hf : ∀ x, |f x| ≤ 1)
    (h : ∀ x : F64, x.isFinite = true → F64.IsRounding (f x.rat) (g x)) : Numerics.Bounded g 1 := by
  intro x hx
  have hone := F64.ofNat_exact 1 (by norm_num)
  have hbound := (h x hx).abs_le_of_abs_le (F64.ofNat_canonical (n := 1) (by norm_num)) hone.1
    (by rw [hone.2]; exact_mod_cast hf x.rat)
  rw [hone.2, Nat.cast_one] at hbound
  exact ⟨(h x hx).canonical, (h x hx).finite, hbound⟩

/-- Settles O48: rounding keeps the bounds 1, and `PI ⊘ 2`, the rounding of π/2. -/
theorem numIsBounded : Obligations.NumIsBounded := by
  refine ⟨bounded_one_of_isRounding Real.abs_sin_le_one fun _ => sin_isRounding,
    bounded_one_of_isRounding Real.abs_cos_le_one fun _ => cos_isRounding, fun x hx => ?_⟩
  have h := atan_isRounding hx
  have hlow := halfPi_isRounding.neg.mono h (Real.neg_pi_div_two_lt_arctan _)
  rw [F64.rat_neg] at hlow
  exact ⟨h.canonical, h.finite, hlow, h.mono halfPi_isRounding (Real.arctan_lt_pi_div_two _)⟩

end Sys2Proof
end

section
/-! The trig tables and the mixer (40_lut_engine.md R80 to R85, 43_modexp_mixer.md R111 to R132): the index reduction, the
quantisation of a value in -1 .. 1, one iteration step by step, and what the first iteration leaves. -/

namespace Sys2Proof

/-! ### Operators whose exact result has 53 bits -/

section
variable {a b : F64} {k : Int} {n : Nat}

theorem F64.add_exact (ha : a.isFinite = true) (hb : b.isFinite = true) (h : a.rat + b.rat = k / 2 ^ n)
    (hk : |k| < 2 ^ 53) (hn : n ≤ 1074) : (a.add b).isFinite = true ∧ (a.add b).rat = k / 2 ^ n := by
  rw [F64.add_of_finite ha hb, h]
  exact F64.rounded_dyadic _ k n hk hn

theorem F64.mul_exact (ha : a.isFinite = true) (hb : b.isFinite = true) (h : a.rat * b.rat = k / 2 ^ n)
    (hk : |k| < 2 ^ 53) (hn : n ≤ 1074) : (a.mul b).isFinite = true ∧ (a.mul b).rat = k / 2 ^ n := by
  rw [F64.mul_of_finite ha hb, h]
  exact F64.rounded_dyadic _ k n hk hn

theorem F64.div_exact (ha : a.isFinite = true) (hb : b.isFinite = true) (h0 : b.rat ≠ 0) (h : a.rat / b.rat = k / 2 ^ n)
    (hk : |k| < 2 ^ 53) (hn : n ≤ 1074) : (a.div b).isFinite = true ∧ (a.div b).rat = k / 2 ^ n := by
  rw [F64.div_of_finite ha hb h0, h]
  exact F64.rounded_dyadic _ k n hk hn

end

end Sys2Proof

namespace Sys2Proof.Machine

/-! ### The table index -/

theorem lutIndex_of_finite {a : F64} (ha : a.isFinite = true) : lutIndex a = some (⌊a.rat⌋ % 360).toNat := by
  rw [lutIndex, if_pos ha, F64.floor_eq]

theorem sinDeg_of_lutIndex {a : F64} {d : Nat} (h : lutIndex a = some d) (num : Numerics) : sinDeg num a = sinTab num d := by
  rw [sinDeg, h]

theorem cosDeg_of_lutIndex {a : F64} {d : Nat} (h : lutIndex a = some d) (num : Numerics) : cosDeg num a = cosTab num d := by
  rw [cosDeg, h]

/-- Settles O45: the index is the floor modulo 360, which is not negative. -/
theorem lutIndexIsFloorMod : Obligations.LutIndexIsFloorMod := by
  intro num a ha
  have hindex := lutIndex_of_finite ha
  exact ⟨_, by omega, by omega, hindex, sinDeg_of_lutIndex hindex num, rfl, cosDeg_of_lutIndex hindex num, rfl⟩

/-- Both operators of the phase expression have exact results of at most 39 bits (R85). -/
theorem phaseOperand_rat {m : Nat} (hm : m < 2 ^ 30) :
    (((F64.ofNat m).div (F64.ofNat (2 ^ 30))).mul (F64.ofNat 360)).isFinite = true ∧
      (((F64.ofNat m).div (F64.ofNat (2 ^ 30))).mul (F64.ofNat 360)).rat = ((m * 360 : Nat) : Int) / 2 ^ 30 := by
  obtain ⟨mf, mr⟩ := F64.ofNat_exact m (by omega)
  obtain ⟨pf, pr⟩ := F64.ofNat_exact (2 ^ 30) (by norm_num)
  obtain ⟨df, dr⟩ := F64.ofNat_exact 360 (by norm_num)
  obtain ⟨qf, qr⟩ := F64.div_exact mf pf (by rw [pr]; norm_num) (k := m) (n := 30) (by rw [mr, pr]; push_cast; rfl)
    (abs_lt.2 ⟨by omega, by omega⟩) (by norm_num)
  exact F64.mul_exact qf df (by rw [qr, dr]; push_cast; ring) (abs_lt.2 ⟨by omega, by omega⟩) (by norm_num)

theorem phaseIndex_lt {m : Nat} (hm : m < 2 ^ 30) : (m * 360) >>> 30 < 360 := by
  rw [Nat.shiftRight_eq_div_pow]
  omega

theorem lutIndex_phaseOperand {m : Nat} (hm : m < 2 ^ 30) :
    lutIndex (((F64.ofNat m).div (F64.ofNat (2 ^ 30))).mul (F64.ofNat 360)) = some ((m * 360) >>> 30) := by
  obtain ⟨hf, hr⟩ := phaseOperand_rat hm
  have hlt := phaseIndex_lt hm
  have hfloor : ⌊(((m * 360 : Nat) : Int) : ℚ) / 2 ^ 30⌋ = ((m * 360) >>> 30 : Nat) := by
    rw [Nat.shiftRight_eq_div_pow, Int.cast_natCast]
    exact_mod_cast Rat.floor_natCast_div_natCast (m * 360) (2 ^ 30)
  rw [lutIndex_of_finite hf, hr, hfloor]
  congr 1
  omega

/-- Settles O44: the expression has no rounding, so its floor is the integer quotient. -/
theorem phaseIndexIsExact : Obligations.PhaseIndexIsExact := fun _ hm => ⟨lutIndex_phaseOperand hm, phaseIndex_lt hm⟩

/-! ### The quantisation -/

theorem add_one_isRounding {v : F64} (hf : v.isFinite = true) (h1 : -1 ≤ v.rat) (h2 : v.rat ≤ 1) :
    F64.IsRounding ((v.rat + 1 : ℚ) : ℝ) (v.add (F64.ofNat 1)) := by
  have one := F64.ofNat_exact 1 (by norm_num)
  have h := F64.add_isRounding hf one.1 (by rw [one.2, abs_lt]; push_cast; constructor <;> linarith)
  rwa [one.2, Nat.cast_one] at h

/-- Below -1/2 a value is a multiple of `1 / 2^53`, so `v ⊕ 1` is exact. -/
theorem add_one_multiple_of_lt {v : F64} (hc : v.canonical = true) (hf : v.isFinite = true) (h1 : -1 ≤ v.rat)
    (h2 : v.rat < -1 / 2) :
    ∃ k : Nat, k ≤ 2 ^ 54 ∧ (v.add (F64.ofNat 1)).rat = k / 2 ^ 53 ∧ (k = 0 ↔ v.rat = -1) := by
  obtain ⟨onef, oner⟩ := F64.ofNat_exact 1 (by norm_num)
  obtain ⟨j, hj⟩ := F64.exists_multiple hc hf (n := 53) (le_abs.2 (Or.inr (by norm_num; linarith)))
  have hj0 : -2 ^ 53 ≤ j := by
    rw [hj, le_div_iff₀ (by positivity)] at h1
    exact_mod_cast (by linarith : (-2 ^ 53 : ℚ) ≤ j)
  obtain ⟨k, rfl⟩ : ∃ k : Nat, j = k - 2 ^ 53 := ⟨(j + 2 ^ 53).toNat, by omega⟩
  have hv : v.rat = k / 2 ^ 53 - 1 := by rw [hj]; push_cast; ring
  have hk : k < 2 ^ 53 := by
    have hlt : (k : ℚ) / 2 ^ 53 < 1 := by linarith
    rw [div_lt_one (by positivity)] at hlt
    exact_mod_cast hlt
  have hsum := F64.add_exact hf onef (k := k) (n := 53) (by rw [hv, oner]; push_cast; ring)
    (abs_lt.2 ⟨by omega, by omega⟩) (by norm_num)
  have hzero : k = 0 ↔ v.rat = -1 := by
    rw [hv, sub_eq_neg_self, div_eq_zero_iff, or_iff_left (by positivity), Nat.cast_eq_zero]
  exact ⟨k, by omega, hsum.2, hzero⟩

/-- From -1/2 on `v ⊕ 1` is at least 1/2, and so a multiple of `1 / 2^53`. -/
theorem add_one_multiple_of_ge {v : F64} (hf : v.isFinite = true) (h1 : -1 / 2 ≤ v.rat) (h2 : v.rat ≤ 1) :
    ∃ k : Nat, k ≤ 2 ^ 54 ∧ (v.add (F64.ofNat 1)).rat = k / 2 ^ 53 ∧ (k = 0 ↔ v.rat = -1) := by
  have hround := add_one_isRounding hf (by linarith) h2
  obtain ⟨t, ht, htf, htr⟩ := F64.exists_dyadic 2 0 (by norm_num) (by norm_num)
  obtain ⟨z, hz, hzf, hzr⟩ := F64.exists_dyadic 1 1 (by norm_num) (by norm_num)
  have hle := hround.le ht htf (by rw [htr]; exact_mod_cast (by norm_num; linarith : v.rat + 1 ≤ (2 : Int) / 2 ^ 0))
  have hge := hround.ge hz hzf (by rw [hzr]; exact_mod_cast (by norm_num; linarith : (1 : Int) / 2 ^ 1 ≤ v.rat + 1))
  rw [htr] at hle
  rw [hzr] at hge
  obtain ⟨j, hj⟩ := F64.exists_multiple hround.canonical hround.finite (n := 53)
    (le_abs.2 (Or.inl (by norm_num at hge ⊢; linarith)))
  rw [hj, le_div_iff₀ (by positivity)] at hge
  rw [hj, div_le_iff₀ (by positivity)] at hle
  norm_num at hge hle
  have hj1 : 2 ^ 52 ≤ j := by exact_mod_cast (by linarith : (2 ^ 52 : ℚ) ≤ j)
  have hj2 : j ≤ 2 ^ 54 := by exact_mod_cast (by linarith : (j : ℚ) ≤ 2 ^ 54)
  obtain ⟨k, rfl⟩ := Int.eq_ofNat_of_zero_le (show 0 ≤ j by omega)
  exact ⟨k, by omega, by rw [hj, Int.cast_natCast], iff_of_false (by omega) (by linarith)⟩

/-- `v ⊕ 1` of a value in -1 .. 1 is a multiple of `1 / 2^53` in 0 .. 2, and 0 for the value -1 only. -/
theorem add_one_multiple {v : F64} (hc : v.canonical = true) (hf : v.isFinite = true) (h1 : -1 ≤ v.rat) (h2 : v.rat ≤ 1) :
    ∃ k : Nat, k ≤ 2 ^ 54 ∧ (v.add (F64.ofNat 1)).rat = k / 2 ^ 53 ∧ (k = 0 ↔ v.rat = -1) :=
  (lt_or_ge v.rat (-1 / 2)).elim (add_one_multiple_of_lt hc hf h1) fun h => add_one_multiple_of_ge hf h h2

/-- Halving `v ⊕ 1` is exact, so `U(v)` is a multiple of `1 / 2^54` in 0 .. 1 (R118). -/
theorem unitOf_multiple {v : F64} (hc : v.canonical = true) (hf : v.isFinite = true) (h1 : -1 ≤ v.rat) (h2 : v.rat ≤ 1) :
    ∃ k : Nat, k ≤ 2 ^ 54 ∧ (v.add (F64.ofNat 1)).rat = k / 2 ^ 53 ∧ (unitOf v).isFinite = true ∧
      (unitOf v).rat = k / 2 ^ 54 ∧ (k = 0 ↔ v.rat = -1) := by
  have hround := add_one_isRounding hf h1 h2
  obtain ⟨k, hk, hsum, hzero⟩ := add_one_multiple hc hf h1 h2
  obtain ⟨tf, tr⟩ := F64.ofNat_exact 2 (by norm_num)
  have hquot (j : Int) (n : Nat) (hj : (k : ℚ) / 2 ^ 54 = j / 2 ^ n) (hlt : |j| < 2 ^ 53) (hn : n ≤ 1074) :
      (unitOf v).isFinite = true ∧ (unitOf v).rat = k / 2 ^ 54 := by
    rw [hj]
    refine F64.div_exact hround.finite tf (by rw [tr]; norm_num) ?_ hlt hn
    rw [hsum, tr, ← hj]
    push_cast
    ring
  suffices h : (unitOf v).isFinite = true ∧ (unitOf v).rat = k / 2 ^ 54 from ⟨k, hk, hsum, h.1, h.2, hzero⟩
  rcases lt_or_ge k (2 ^ 53) with hlt | hge
  · exact hquot k 54 (by push_cast; rfl) (abs_lt.2 ⟨by omega, by omega⟩) (by norm_num)
  rcases hk.lt_or_eq with hlt | heq
  · -- from 1 on, below 2, `v ⊕ 1` is a multiple of `1 / 2^52`
    have hk1 : (2 ^ 53 : ℚ) ≤ k := by exact_mod_cast hge
    obtain ⟨j, hj⟩ := F64.exists_multiple hround.canonical hround.finite (n := 52)
      (le_abs.2 (Or.inl (by rw [hsum, le_div_iff₀ (by positivity)]; norm_num at hk1 ⊢; exact hk1)))
    rw [hsum, div_eq_div_iff (by positivity) (by positivity)] at hj
    have hj2 : (k : ℚ) = 2 * j := by norm_num at hj ⊢; linarith
    have hj3 : (k : Int) = 2 * j := by exact_mod_cast hj2
    exact hquot j 53 (by rw [hj2]; ring) (abs_lt.2 ⟨by omega, by omega⟩) (by norm_num)
  · exact hquot 1 0 (by rw [heq]; norm_num) (by norm_num) (by norm_num)

/-- A multiple of `1 / 2^54` times MAXQ, rounded down: one less than the multiple of `2^256` (R119, R131). -/
theorem floor_mul_maxq {k : Nat} (h0 : 0 < k) (hk : k ≤ 2 ^ 54) :
    ⌊(k : ℚ) / 2 ^ 54 * (2 ^ 256 - 1)⌋ = k * 2 ^ 202 - 1 := by
  have hk0 : (0 : ℚ) < k := by exact_mod_cast h0
  have hk1 : (k : ℚ) / 2 ^ 54 ≤ 1 := by
    rw [div_le_one (by positivity)]
    exact_mod_cast hk
  have hpos : (0 : ℚ) < k / 2 ^ 54 := by positivity
  have hsplit : (k : ℚ) / 2 ^ 54 * (2 ^ 256 - 1) = k * 2 ^ 202 - k / 2 ^ 54 := by
    rw [show (2 : ℚ) ^ 256 = 2 ^ 54 * 2 ^ 202 by rw [← pow_add]]
    field_simp
  rw [hsplit, Int.floor_eq_iff]
  push_cast
  constructor <;> linarith

theorem quantize_eq (q : QuantMul) (v : F64) : quantize q v = max 1 ⌊(unitOf v).rat * (quantFactor q : ℚ)⌋.toNat := rfl

theorem quantize_cast (q : QuantMul) (v : F64) : (quantize q v : Int) = max 1 ⌊(unitOf v).rat * (quantFactor q : ℚ)⌋ := by
  rw [quantize_eq]
  omega

theorem quantFactor_exact_cast : ((quantFactor .exact : Nat) : ℚ) = 2 ^ 256 - 1 := by
  rw [quantFactor, Nat.cast_sub Nat.one_le_two_pow]
  push_cast
  rfl

theorem quantFactor_binary64_cast : ((quantFactor .binary64 : Nat) : ℚ) = 2 ^ 256 := by
  rw [quantFactor]
  push_cast
  rfl

section
variable {v : F64} {k : Nat}

theorem quantize_of_unitOf_zero (h : (unitOf v).rat = 0) (q : QuantMul) : quantize q v = 1 := by
  rw [quantize_eq, h, zero_mul, Int.floor_zero]
  rfl

theorem quantize_exact_of_unitOf (h : (unitOf v).rat = k / 2 ^ 54) (h0 : 0 < k) (hk : k ≤ 2 ^ 54) :
    quantize .exact v + 1 = k * 2 ^ 202 := by
  have hcast := quantize_cast .exact v
  rw [h, quantFactor_exact_cast, floor_mul_maxq h0 hk] at hcast
  omega

theorem quantize_binary64_of_unitOf (h : (unitOf v).rat = k / 2 ^ 54) (h0 : 0 < k) :
    quantize .binary64 v = k * 2 ^ 202 := by
  have hcast := quantize_cast .binary64 v
  have hprod : (k : ℚ) / 2 ^ 54 * 2 ^ 256 = ((k * 2 ^ 202 : Int) : ℚ) := by
    push_cast
    ring
  rw [h, quantFactor_binary64_cast, hprod, Int.floor_intCast] at hcast
  omega

end

theorem mixExponent_eq (q : QuantMul) (pos : Nat) (v : F64) : mixExponent q pos v = pos + quantize q v % 2 ^ 30 := by
  rw [mixExponent, Nat.and_two_pow_sub_one_eq_mod]

/-- Settles O43: `U(v)` is `k / 2^54`, and the quantisation is 1 where `k` is 0, else `k * 2^202` less 1 under exact and
`k * 2^202` under binary64, of which the low 30 bits are all ones and all zeros. -/
theorem exponentTakesTwoValues : Obligations.ExponentTakesTwoValues := by
  intro pos v hc hf h1 h2
  obtain ⟨k, hk, _, _, hu, hzero⟩ := unitOf_multiple hc hf h1 h2
  simp only [mixExponent_eq]
  refine ⟨fun hv => ?_, fun hv => ?_⟩
  · have hu0 : (unitOf v).rat = 0 := by rw [hu, hzero.2 hv]; norm_num
    rw [quantize_of_unitOf_zero hu0, quantize_of_unitOf_zero hu0]
    exact ⟨rfl, rfl, rfl⟩
  · have h0 : 0 < k := Nat.pos_of_ne_zero (mt hzero.1 hv)
    have hexact := quantize_exact_of_unitOf hu h0 hk
    have hbinary := quantize_binary64_of_unitOf hu h0
    have hcast : ((quantize .exact v : Nat) : ℚ) + 1 = k * 2 ^ 202 := by exact_mod_cast hexact
    refine ⟨?_, by omega, by omega⟩
    rw [hu]
    linarith [show (k : ℚ) / 2 ^ 54 * 2 ^ 256 = k * 2 ^ 202 by ring]

theorem quantize_range {v : F64} {k : Nat} (h : (unitOf v).rat = k / 2 ^ 54) (hk : k ≤ 2 ^ 54) :
    1 ≤ quantize .exact v ∧ quantize .exact v ≤ 2 ^ 256 - 1 := by
  rcases Nat.eq_zero_or_pos k with rfl | h0
  · rw [quantize_of_unitOf_zero (by rw [h]; norm_num)]
    decide
  · have := quantize_exact_of_unitOf h h0 hk
    omega

/-! ### The values of an iteration -/

theorem deg2rad_rat : F64.deg2rad.rat = 5030569068109113 / 288230376151711744 := by decide +kernel

theorem deg2rad_finite : F64.deg2rad.isFinite = true := by decide +kernel

/-- An angle of up to 1028 degrees, in radians, is finite and at most 18. -/
theorem toRad_ofNat {n : Nat} (hn : n ≤ 1028) :
    (F64.ofNat n).toRad.isFinite = true ∧ |(F64.ofNat n).toRad.rat| ≤ 18 := by
  obtain ⟨nf, nr⟩ := F64.ofNat_exact n (by omega)
  have hn0 : (0 : ℚ) ≤ n := Nat.cast_nonneg n
  have hn1 : (n : ℚ) ≤ 1028 := by exact_mod_cast hn
  have hprod : |(F64.ofNat n).rat * F64.deg2rad.rat| ≤ (18 : Nat) / 2 ^ 0 := by
    rw [nr, deg2rad_rat, abs_of_nonneg (by positivity)]
    norm_num
    linarith
  have hround := F64.mul_isRounding nf deg2rad_finite (hprod.trans_lt (by norm_num))
  have hbound := hround.abs_bound 18 0 (by norm_num) (by norm_num) hprod
  norm_num at hbound
  exact ⟨hround.finite, hbound⟩

theorem sinTab_bounded {num : Numerics} (h : num.Assumed) {d : Nat} (hd : d < 360) :
    (sinTab num d).canonical = true ∧ (sinTab num d).isFinite = true ∧ -1 ≤ (sinTab num d).rat ∧ (sinTab num d).rat ≤ 1 :=
  h.1 _ (toRad_ofNat (by omega)).1

theorem phaseOf_bounded {num : Numerics} (h : num.Assumed) (state : Nat) :
    (phaseOf num state).canonical = true ∧ (phaseOf num state).isFinite = true ∧ -1 ≤ (phaseOf num state).rat ∧
      (phaseOf num state).rat ≤ 1 :=
  sinTab_bounded h (phaseIndex_lt (Nat.mod_lt _ (by decide)))

/-- Settles O42: the sine and the cosine have finite operands, so N2 bounds them, and `U(v)` is a multiple of `1 / 2^54`. -/
theorem quantizeRange : Obligations.QuantizeRange := by
  refine ⟨?operands, ?range⟩
  case operands =>
    rintro num degrees state hnum hdeg angle phase rfl rfl
    obtain ⟨af, ab⟩ := toRad_ofNat hdeg
    have hphase := phaseOf_bounded hnum state
    have ⟨_, pf, plow, phigh⟩ := hphase
    obtain ⟨alow, ahigh⟩ := abs_le.1 ab
    have hadd := (F64.near_add af pf (abs_le.2 ⟨by linarith, by linarith⟩)).1
    have hsub := (F64.near_sub af pf (abs_le.2 ⟨by linarith, by linarith⟩)).1
    exact ⟨hadd, hsub, List.forall_mem_cons.2 ⟨hphase, List.forall_mem_cons.2 ⟨hnum.1 _ hadd,
      List.forall_mem_singleton.2 (hnum.2.1 _ hsub)⟩⟩⟩
  case range =>
    intro v hc hf h1 h2
    obtain ⟨k, hk, hsum, huf, hu, _⟩ := unitOf_multiple hc hf h1 h2
    have hk1 : (k : ℚ) ≤ 2 ^ 54 := by exact_mod_cast hk
    have hcast := quantize_cast .exact v
    rw [quantFactor_exact_cast] at hcast
    refine ⟨huf, by rw [hu, hsum]; ring, by rw [hu]; positivity, ?_, hcast, quantize_range hu hk⟩
    rwa [hu, div_le_one (by positivity)]

end Sys2Proof.Machine
end

section
/-! The mixer's iteration (43_modexp_mixer.md R111 to R132): the twelve steps, what the first iteration leaves, and MIX. -/

namespace Sys2Proof.Machine

/-! ### The parts of an iteration -/

theorem group_toNat (block : Word) (i : Nat) : (group block i).toNat = block.toNat / 2 ^ (510 - 2 * i) % 4 := by
  rw [group, BitVec.extractLsb'_toNat, Nat.shiftRight_eq_div_pow]

theorem baseTable_eq (g : BitVec 2) :
    baseTable g = if g.toNat = 0 then 23 else if g.toNat = 1 then 29 else if g.toNat = 2 then 31 else 37 := by
  revert g
  decide

/-- The table read by index is the one that `sin_deg` reads (R116). -/
theorem phaseOf_eq_sinDeg (num : Numerics) (state : Nat) : phaseOf num state =
    sinDeg num (((F64.ofNat (state % 2 ^ 30)).div (F64.ofNat (2 ^ 30))).mul (F64.ofNat 360)) :=
  (sinDeg_of_lutIndex (lutIndex_phaseOperand (Nat.mod_lt _ (by decide))) num).symm

/-- No entry of the Base Table has a factor in common with PRIME. -/
theorem baseTable_coprime (g : BitVec 2) : Nat.Coprime (baseTable g) (2 ^ 521 - 1) := by
  revert g
  decide +kernel

theorem powmod_pos (g : BitVec 2) (e : Nat) : 0 < baseTable g ^ e % (2 ^ 521 - 1) := by
  refine Nat.pos_of_ne_zero fun h => ?_
  have hone := Nat.Coprime.eq_one_of_dvd ((baseTable_coprime g).pow_left e).symm (Nat.dvd_of_mod_eq_zero h)
  exact absurd hone (by decide +kernel)

theorem shiftOf_cast (i prevBase base : Nat) :
    (shiftOf i prevBase base : Int) = max 1 ((2 * (i : Int) - 1 + prevBase * base) % 511) := by
  rw [shiftOf]
  omega

theorem shiftOf_range (i prevBase base : Nat) : 1 ≤ shiftOf i prevBase base ∧ shiftOf i prevBase base ≤ 510 := by
  have := shiftOf_cast i prevBase base
  omega

theorem xorShifted_eq (state qCos shift : Nat) :
    xorShifted state qCos shift = BitVec.ofNat 512 state ^^^ BitVec.ofNat 512 (qCos * 2 ^ shift) := by
  rw [xorShifted, Nat.shiftLeft_eq, BitVec.ofNat_xor]
  congr 1
  exact BitVec.eq_of_toNat_eq (by simp only [BitVec.toNat_ofNat, Nat.mod_mod])

/-- Settles O40: the steps are those of `mixRound`'s definition, with the phase through `sin_deg`, the power by `powMod_eq`
and the shift by `shiftOf_cast`. -/
theorem mixIterationSteps : Obligations.MixIterationSteps := by
  rintro num block acc i hi g base angle phase sinVal cosVal powmod shift rotated hg hbase rfl rfl rfl rfl rfl hshift rfl
  have hgroup : (group block i).toNat = g := (group_toNat block i).trans hg.symm
  have htable : baseTable (group block i) = base := by rw [baseTable_eq, hgroup, hbase]
  have hshift' : shiftOf i acc.prevBase base = shift := by exact_mod_cast (shiftOf_cast i acc.prevBase base).trans hshift.symm
  refine ⟨?_, htable ▸ powmod_pos _ _, hshift' ▸ shiftOf_range i acc.prevBase base⟩
  simp only [mixRound, hgroup, htable, hshift', phaseOf_eq_sinDeg, powMod_eq, mixExponent_eq, xorShifted_eq,
    Nat.mod_eq_of_lt (hi.trans (by decide : 256 < 512)), prime, diffuse, F64.toRad, Nat.add_assoc, Nat.reduceAdd]

/-! ### The first iteration -/

/-- The diffusion by 0 of the first iteration leaves all ones whatever came before (R130). -/
theorem mixRound_zero (num : Numerics) (q : QuantMul) (block : Word) (acc : MixAcc) :
    mixRound num q block acc 0 = ⟨2 ^ 512 - 1, baseTable (group block 0)⟩ := by
  simp only [mixRound, Nat.zero_mod, diffuse_zero, BitVec.toNat_allOnes]

theorem mixRounds_one (num : Numerics) (q : QuantMul) (block previousState : Word) :
    mixRounds num q block previousState 1 = ⟨2 ^ 512 - 1, baseTable (group block 0)⟩ := by
  rw [mixRounds_succ, mixRound_zero]

theorem mixRounds_succ_forgets (num : Numerics) (q : QuantMul) (block s s' : Word) (n : Nat) :
    mixRounds num q block s (n + 1) = mixRounds num q block s' (n + 1) := by
  induction n with
  | zero => rw [Nat.zero_add, mixRounds_one, mixRounds_one]
  | succ n ih => rw [mixRounds_succ, ih, ← mixRounds_succ]

theorem mix_forgets (num : Numerics) (q : QuantMul) (block s s' : Word) : mix num q block s = mix num q block s' := by
  rw [mix, mix, mixRounds_succ_forgets num q block s s' 255]

/-- Settles O41: every later iteration starts from what the first one leaves. -/
theorem mixForgetsPreviousState : Obligations.MixForgetsPreviousState := by
  intro num q block s s'
  have hlow : (2 ^ 512 - 1) % 2 ^ 30 = 2 ^ 30 - 1 := by decide +kernel
  rw [mixRounds_one]
  refine ⟨rfl, mix_forgets num q block s s', hlow, ?_⟩
  rw [phaseOf, hlow]
  rfl

/-! ### The command MIX -/

theorem forced_bit511 (x : Word) : (x ||| BitVec.twoPow 512 511).getLsbD 511 = true := by
  simp

/-- The forced value is never zero, so the last step of the finalisation does nothing (R132). -/
theorem mixFinish_eq (state : Nat) : mixFinish state = BitVec.ofNat 512 state ||| BitVec.twoPow 512 511 := by
  have hbit := forced_bit511 (BitVec.ofNat 512 state)
  refine if_neg fun hzero => ?_
  rw [hzero] at hbit
  simp at hbit

theorem mixFinish_bit511 (state : Nat) : (mixFinish state).getLsbD 511 = true := by
  rw [mixFinish_eq, forced_bit511]

theorem mixFinish_ne_one (state : Nat) : mixFinish state ≠ 1 := by
  intro h
  have hbit := mixFinish_bit511 state
  rw [h] at hbit
  simp at hbit

theorem exec_mix {wd wa wb : RegField} (hd : legalReg wd = true) (ha : legalReg wa = true) (hb : legalReg wb = true)
    (s : State) : exec (.mix wd wa wb) s =
      .next (writeReg wd (mix Config.num Config.quantMul (readReg wa s) (readReg wb s)) s) :=
  ifLegal_of_wellFormed (i := .mix wd wa wb) (Bool.and_eq_true_iff.2 ⟨Bool.and_eq_true_iff.2 ⟨hd, ha⟩, hb⟩) _ _

/-- Settles O10: the iterations are the fold of `mixRounds`, and the finalisation sets bit 511. -/
theorem mixWritesMixedState : Obligations.MixWritesMixedState := by
  intro wd wa wb s hd ha hb
  refine ⟨_, _, mixRounds Config.num Config.quantMul (readReg wa s) (readReg wb s), exec_mix hd ha hb s,
    wrote_writeReg _ _ s, rfl, rfl, rfl, fun i _ => mixRounds_succ _ _ _ _ i, mixFinish_eq _,
    mix_forgets _ _ _ _, mixFinish_bit511 _, mixFinish_ne_one _⟩

end Sys2Proof.Machine
end

section
/-! The curve sampler (44_curve_sampler.md R141 to R151): bounds that a rounding keeps, the curve parameters, the sample
positions, the ends of the grid, and the nearest grid point. -/

namespace Sys2Proof

/-! ### Integer bounds -/

section
variable {a b : F64} {lo hi : Int}

/-- A rounding stays between integers that bound the number. -/
theorem F64.IsRounding.bounds {r : ℚ} {f : F64} (h : F64.IsRounding (r : ℝ) f) (hlo : |lo| < 2 ^ 53) (hhi : |hi| < 2 ^ 53)
    (h1 : lo ≤ r) (h2 : r ≤ hi) : f.isFinite = true ∧ lo ≤ f.rat ∧ f.rat ≤ hi := by
  obtain ⟨c, hc, hcf, hcr⟩ := F64.exists_dyadic lo 0 hlo (by norm_num)
  obtain ⟨d, hd, hdf, hdr⟩ := F64.exists_dyadic hi 0 hhi (by norm_num)
  rw [pow_zero, div_one] at hcr hdr
  have hle := h.le hd hdf (by rw [hdr]; exact_mod_cast h2)
  have hge := h.ge hc hcf (by rw [hcr]; exact_mod_cast h1)
  exact ⟨h.finite, hcr ▸ hge, hdr ▸ hle⟩

/-- An integer range of moderate size keeps an operator's result finite. -/
theorem F64.rounded_bounds {r : ℚ} (z : Bool) (hlo : |lo| < 2 ^ 53) (hhi : |hi| < 2 ^ 53) (h1 : lo ≤ r) (h2 : r ≤ hi) :
    (F64.rounded z r).isFinite = true ∧ lo ≤ (F64.rounded z r).rat ∧ (F64.rounded z r).rat ≤ hi := by
  have hlo' : (-2 ^ 53 : ℚ) < lo := by exact_mod_cast (abs_lt.1 hlo).1
  have hhi' : (hi : ℚ) < 2 ^ 53 := by exact_mod_cast (abs_lt.1 hhi).2
  have hsize : |r| < 2 ^ 100 := abs_lt.2 ⟨by linarith, by linarith⟩
  exact (F64.rounded_isRounding z hsize).bounds hlo hhi h1 h2

theorem F64.add_bounds (ha : a.isFinite = true) (hb : b.isFinite = true) (lo hi : Int) (h1 : lo ≤ a.rat + b.rat)
    (h2 : a.rat + b.rat ≤ hi) (hlo : |lo| < 2 ^ 53 := by norm_num) (hhi : |hi| < 2 ^ 53 := by norm_num) :
    (a.add b).isFinite = true ∧ lo ≤ (a.add b).rat ∧ (a.add b).rat ≤ hi := by
  rw [F64.add_of_finite ha hb]
  exact F64.rounded_bounds _ hlo hhi h1 h2

theorem F64.sub_bounds (ha : a.isFinite = true) (hb : b.isFinite = true) (lo hi : Int) (h1 : lo ≤ a.rat - b.rat)
    (h2 : a.rat - b.rat ≤ hi) (hlo : |lo| < 2 ^ 53 := by norm_num) (hhi : |hi| < 2 ^ 53 := by norm_num) :
    (a.sub b).isFinite = true ∧ lo ≤ (a.sub b).rat ∧ (a.sub b).rat ≤ hi := by
  rw [F64.sub_of_finite ha hb]
  exact F64.rounded_bounds _ hlo hhi h1 h2

theorem F64.mul_bounds (ha : a.isFinite = true) (hb : b.isFinite = true) (lo hi : Int) (h1 : lo ≤ a.rat * b.rat)
    (h2 : a.rat * b.rat ≤ hi) (hlo : |lo| < 2 ^ 53 := by norm_num) (hhi : |hi| < 2 ^ 53 := by norm_num) :
    (a.mul b).isFinite = true ∧ lo ≤ (a.mul b).rat ∧ (a.mul b).rat ≤ hi := by
  rw [F64.mul_of_finite ha hb]
  exact F64.rounded_bounds _ hlo hhi h1 h2

theorem F64.div_bounds (ha : a.isFinite = true) (hb : b.isFinite = true) (h0 : b.rat ≠ 0) (lo hi : Int)
    (h1 : lo ≤ a.rat / b.rat) (h2 : a.rat / b.rat ≤ hi) (hlo : |lo| < 2 ^ 53 := by norm_num)
    (hhi : |hi| < 2 ^ 53 := by norm_num) : (a.div b).isFinite = true ∧ lo ≤ (a.div b).rat ∧ (a.div b).rat ≤ hi := by
  rw [F64.div_of_finite ha hb h0]
  exact F64.rounded_bounds _ hlo hhi h1 h2

end

/-- A rounding is as near to the number as 0 is. -/
theorem F64.IsRounding.abs_le_two_mul {r : ℚ} {f : F64} (h : F64.IsRounding (r : ℝ) f) : |f.rat| ≤ 2 * |r| := by
  have hnear := h.nearest (F64.zero false) (by decide) rfl
  have hzero : (F64.zero false).rat = 0 := by simp [F64.zero, F64.rat_finite]
  rw [hzero, Rat.cast_zero, zero_sub, abs_neg] at hnear
  have hnear' : |f.rat - r| ≤ |r| := by exact_mod_cast hnear
  have htri := abs_sub_abs_le_abs_sub f.rat r
  linarith

/-- A proportion `p / q` is rounded to a value in 0 .. 1. -/
theorem F64.ofRat_bounds {p q : Nat} (h : p ≤ q) :
    (F64.ofRat p q).isFinite = true ∧ 0 ≤ (F64.ofRat p q).rat ∧ (F64.ofRat p q).rat ≤ 1 := by
  have hr0 : (0 : ℚ) ≤ mkRat p q := by
    rw [Rat.mkRat_eq_div]
    positivity
  have hr1 : (mkRat p q : ℚ) ≤ 1 := by
    rw [Rat.mkRat_eq_div]
    exact div_le_one_of_le₀ (by exact_mod_cast h) (Nat.cast_nonneg q)
  have hround := F64.rn_isRounding _ (F64.rn_isFinite (mkRat p q) (abs_lt.2 ⟨by linarith, by linarith⟩))
  have hbounds := hround.bounds (lo := 0) (hi := 1) (by norm_num) (by norm_num) (by exact_mod_cast hr0)
    (by exact_mod_cast hr1)
  exact_mod_cast hbounds

end Sys2Proof

namespace Sys2Proof.Machine

/-! ### The curve parameters -/

/-- A proportion times PI is in 0 .. PI. -/
theorem mul_pi_bounds {f : F64} (hf : f.isFinite = true) (h0 : 0 ≤ f.rat) (h1 : f.rat ≤ 1) :
    (f.mul F64.pi).isFinite = true ∧ 0 ≤ (f.mul F64.pi).rat ∧ (f.mul F64.pi).rat ≤ F64.pi.rat := by
  have hpi : (0 : ℚ) < F64.pi.rat ∧ F64.pi.rat ≤ 4 := by rw [pi_rat]; norm_num
  have hprod0 : 0 ≤ f.rat * F64.pi.rat := mul_nonneg h0 hpi.1.le
  have hprod1 : f.rat * F64.pi.rat ≤ F64.pi.rat := mul_le_of_le_one_left hpi.1.le h1
  have hbounds := F64.mul_bounds hf pi_finite 0 4 (by exact_mod_cast hprod0) (by push_cast; linarith)
  have hround := F64.mul_isRounding hf pi_finite (abs_lt.2 ⟨by linarith, by linarith⟩)
  exact ⟨hbounds.1, by exact_mod_cast hbounds.2.1, hround.le pi_canonical pi_finite (by exact_mod_cast hprod1)⟩

theorem seedFrac_bounds (seed : Word) :
    (seedFrac seed).isFinite = true ∧ 0 ≤ (seedFrac seed).rat ∧ (seedFrac seed).rat ≤ 1 :=
  F64.ofRat_bounds seed.isLt.le

theorem seedAngle_finite (seed : Word) : ((seedFrac seed).mul F64.pi).isFinite = true := by
  obtain ⟨hf, h0, h1⟩ := seedFrac_bounds seed
  exact (mul_pi_bounds hf h0 h1).1

/-- Ten times a value in -1 .. 1, plus 1, is in -9 .. 11. -/
theorem amplitude_bounds {v : F64} (hf : v.isFinite = true) (h1 : -1 ≤ v.rat) (h2 : v.rat ≤ 1) :
    ((v.mul (F64.ofNat 10)).add (F64.ofNat 1)).isFinite = true ∧
      -9 ≤ ((v.mul (F64.ofNat 10)).add (F64.ofNat 1)).rat ∧ ((v.mul (F64.ofNat 10)).add (F64.ofNat 1)).rat ≤ 11 := by
  have ten := F64.ofNat_exact 10 (by norm_num)
  have one := F64.ofNat_exact 1 (by norm_num)
  have hmul := F64.mul_bounds hf ten.1 (-10) 10 (by rw [ten.2]; push_cast; linarith) (by rw [ten.2]; push_cast; linarith)
  obtain ⟨mf, m1, m2⟩ := hmul
  push_cast at m1 m2
  have hadd := F64.add_bounds mf one.1 (-9) 11 (by rw [one.2]; push_cast; linarith) (by rw [one.2]; push_cast; linarith)
  exact_mod_cast hadd

theorem curveParams_a_bounds {num : Numerics} (h : num.Assumed) (seed : Word) :
    (curveParams num seed).a.isFinite = true ∧ -9 ≤ (curveParams num seed).a.rat ∧ (curveParams num seed).a.rat ≤ 11 := by
  obtain ⟨_, hf, h1, h2⟩ := h.1 _ (seedAngle_finite seed)
  exact amplitude_bounds hf h1 h2

theorem curveParams_b_bounds {num : Numerics} (h : num.Assumed) (seed : Word) :
    (curveParams num seed).b.isFinite = true ∧ -9 ≤ (curveParams num seed).b.rat ∧ (curveParams num seed).b.rat ≤ 11 := by
  obtain ⟨_, hf, h1, h2⟩ := h.2.1 _ (seedAngle_finite seed)
  exact amplitude_bounds hf h1 h2

theorem curveParams_c_bounds (num : Numerics) (seed : Word) :
    (curveParams num seed).c.isFinite = true ∧ 0 ≤ (curveParams num seed).c.rat ∧
      (curveParams num seed).c.rat ≤ F64.pi.rat := by
  have hp : seed.toNat / 2 ^ 256 ≤ 2 ^ 256 :=
    Nat.div_le_of_le_mul (by rw [← pow_add]; exact seed.isLt.le)
  obtain ⟨hf, h0, h1⟩ := F64.ofRat_bounds hp
  exact mul_pi_bounds hf h0 h1

/-- Ten times a proportion is in 0 .. 10. -/
theorem mul_ten_bounds {f : F64} (hf : f.isFinite = true) (h0 : 0 ≤ f.rat) (h1 : f.rat ≤ 1) :
    (f.mul (F64.ofNat 10)).isFinite = true ∧ 0 ≤ (f.mul (F64.ofNat 10)).rat ∧ (f.mul (F64.ofNat 10)).rat ≤ 10 := by
  have ten := F64.ofNat_exact 10 (by norm_num)
  have hmul := F64.mul_bounds hf ten.1 0 10 (by rw [ten.2]; push_cast; linarith) (by rw [ten.2]; push_cast; linarith)
  exact_mod_cast hmul

theorem curveParams_d_bounds (num : Numerics) (seed : Word) :
    (curveParams num seed).d.isFinite = true ∧ 0 ≤ (curveParams num seed).d.rat ∧ (curveParams num seed).d.rat ≤ 10 := by
  obtain ⟨hf, h0, h1⟩ := F64.ofRat_bounds (p := seed.toNat % 2 ^ 256) (Nat.mod_lt _ (by positivity)).le
  exact mul_ten_bounds hf h0 h1

/-- Settles O49: N2 bounds the sine and the cosine, and the two halves of the seed are proportions of `2^256`. -/
theorem curveParamsInRange : Obligations.CurveParamsInRange := by
  intro num seed h
  obtain ⟨af, a1, a2⟩ := curveParams_a_bounds h seed
  obtain ⟨bf, b1, b2⟩ := curveParams_b_bounds h seed
  obtain ⟨cf, c1, c2⟩ := curveParams_c_bounds num seed
  exact ⟨af, a1, a2, bf, b1, b2, cf, c1, c2, curveParams_d_bounds num seed⟩

/-! ### The sample positions -/

/-- Positions are compared by their real places where these differ by 1/10 or more. -/
theorem samplePos_lt {i j g h : Nat} (hi : i < 256) (hj : j < 256) (hg : g < 4) (hh : h < 4)
    (hplace : 2 * (i : ℚ) + sampleOffset g + 1 / 10 ≤ 2 * j + sampleOffset h) :
    (samplePos i g).lt (samplePos j h) = true := by
  obtain ⟨fi, ni⟩ := samplePos_near hi hg
  obtain ⟨fj, nj⟩ := samplePos_near hj hh
  rw [abs_le] at ni nj
  rw [F64.lt_iff_rat_lt fi fj]
  norm_num at ni nj ⊢
  linarith

/-- Settles O50: offsets differ by at most 3.1, and those of the values 3 and 2 by 3.1. -/
theorem samplePositionsSpread : Obligations.SamplePositionsSpread := by
  refine ⟨fun i j g h hij hj hg hh => ?_, fun i hi => ?_⟩
  · obtain ⟨g1, g2⟩ := sampleOffset_bounds hg
    obtain ⟨h1, h2⟩ := sampleOffset_bounds hh
    have hij' : (i : ℚ) + 2 ≤ j := by exact_mod_cast hij
    exact samplePos_lt (by omega) hj hg hh (by linarith)
  · have h3 : sampleOffset 3 = 2 := by norm_num [sampleOffset]
    have h2 : sampleOffset 2 = 51 / 10 := by norm_num [sampleOffset]
    exact samplePos_lt (by omega) (by omega) (by decide) (by decide) (by rw [h3, h2]; push_cast; linarith)

/-! ### The ends of the grid -/

/-- Settles O51: 0 times the step is a zero, and `0 ⊕ a` is exact; the last point is set. -/
theorem gridHasItsEnds : Obligations.GridHasItsEnds := by
  intro a b hc ha hb hla hlb
  refine ⟨?_, gridPoint_last a b⟩
  obtain ⟨zf, zr⟩ := F64.ofNat_exact 0 (by norm_num)
  obtain ⟨nf, nr⟩ := F64.ofNat_exact 2559 (by norm_num)
  have hdiff : |b.rat - a.rat| ≤ 2 ^ 65 := by
    have := abs_sub b.rat a.rat
    linarith
  have hsub := F64.sub_isRounding hb ha (hdiff.trans_lt (by norm_num))
  have hquot : |(b.sub a).rat / (F64.ofNat 2559).rat| < 2 ^ 100 := by
    rw [nr, abs_div, Nat.abs_cast, div_lt_iff₀ (by norm_num)]
    have := hsub.abs_le_two_mul
    push_cast
    linarith
  have hstep := F64.div_isRounding hsub.finite nf (by rw [nr]; norm_num) hquot
  obtain ⟨mf, mr⟩ := F64.mul_exact zf hstep.finite (k := 0) (n := 0) (by rw [zr]; norm_num) (by norm_num) (by norm_num)
  rw [gridPoint_of_lt a b (by norm_num)]
  have hsum := F64.add_isRounding mf ha (by rw [mr]; norm_num; linarith)
  rw [mr] at hsum
  exact F64.rat_of_isRounding (by simpa using hsum) hc ha

/-! ### The nearest grid point (R149) -/

/-- The distance of a point from `x`, as the search compares it. -/
def distanceTo (x point : F64) : F64 := (point.sub x).abs

/-- The search has seen the points `p 0 .. p (n - 1)`, and `best` is the least index of a nearest one. -/
structure IsLeastNearest (x : F64) (p : Nat → F64) (n : Nat) (s : Nearest) : Prop where
  next : s.next = n
  below : s.best < n
  dist : s.dist = distanceTo x (p s.best)
  finite : s.dist.isFinite = true
  nearest : ∀ j < n, s.dist.rat ≤ (distanceTo x (p j)).rat
  first : ∀ j < s.best, s.dist.rat < (distanceTo x (p j)).rat

theorem distanceTo_finite {x point : F64} (h : (point.sub x).isFinite = true) : (distanceTo x point).isFinite = true := by
  rw [distanceTo]
  cases hd : point.sub x with
  | finite neg m e => rfl
  | infinite neg => rw [hd] at h; contradiction
  | nan => rw [hd] at h; contradiction

theorem visit_of_nearer {x point : F64} {s : Nearest} (h : (distanceTo x point).lt s.dist = true) :
    s.visit x point = ⟨s.next + 1, s.next, distanceTo x point⟩ :=
  if_pos h

theorem visit_of_not_nearer {x point : F64} {s : Nearest} (h : ¬(distanceTo x point).lt s.dist = true) :
    s.visit x point = ⟨s.next + 1, s.best, s.dist⟩ :=
  if_neg h

theorem isLeastNearest_visit {x : F64} {p : Nat → F64} {n : Nat} {s : Nearest} (h : IsLeastNearest x p n s)
    (hp : ((p n).sub x).isFinite = true) : IsLeastNearest x p (n + 1) (s.visit x (p n)) := by
  have hfin := distanceTo_finite hp
  have hlt := F64.lt_iff_rat_lt hfin h.finite
  by_cases hnear : (distanceTo x (p n)).lt s.dist = true
  · rw [visit_of_nearer hnear, h.next]
    have hclose : ∀ j < n, (distanceTo x (p n)).rat < (distanceTo x (p j)).rat :=
      fun j hj => (hlt.1 hnear).trans_le (h.nearest j hj)
    refine ⟨rfl, Nat.lt_succ_self n, rfl, hfin, fun j hj => ?_, hclose⟩
    rcases Nat.lt_succ_iff_lt_or_eq.1 hj with hj | rfl
    · exact (hclose j hj).le
    · exact le_rfl
  · rw [visit_of_not_nearer hnear, h.next]
    refine ⟨rfl, h.below.trans (Nat.lt_succ_self n), h.dist, h.finite, fun j hj => ?_, h.first⟩
    rcases Nat.lt_succ_iff_lt_or_eq.1 hj with hj | rfl
    · exact h.nearest j hj
    · exact not_lt.1 (mt hlt.2 hnear)

/-- The search over a list of points that are `p n`, `p (n + 1)` and so on. -/
theorem isLeastNearest_foldl {x : F64} {p : Nat → F64} (points : List F64) {n : Nat} {s : Nearest}
    (h : IsLeastNearest x p n s) (hpoints : ∀ i < points.length, points.getD i .nan = p (n + i))
    (hfin : ∀ q ∈ points, (q.sub x).isFinite = true) :
    IsLeastNearest x p (n + points.length) (points.foldl (Nearest.visit x) s) := by
  induction points generalizing n s with
  | nil => exact h
  | cons q points ih =>
    have hq : q = p n := hpoints 0 (by simp)
    obtain ⟨hqfin, hrest⟩ := List.forall_mem_cons.1 hfin
    have hvisit : IsLeastNearest x p (n + 1) (s.visit x q) := by
      rw [hq]
      exact isLeastNearest_visit h (hq ▸ hqfin)
    rw [List.length_cons, List.foldl_cons, Nat.add_comm points.length 1, ← Nat.add_assoc]
    refine ih hvisit (fun i hi => ?_) hrest
    rw [Nat.add_assoc, Nat.add_comm 1 i, ← hpoints (i + 1) (Nat.succ_lt_succ hi), List.getD_cons_succ]

/-- Settles O52: the search keeps the least index of a nearest point among those it has seen. -/
theorem nearestIndexIsLeastMinimiser : Obligations.NearestIndexIsLeastMinimiser := by
  intro x grid hne hfin
  cases grid with
  | nil => exact absurd rfl hne
  | cons q points =>
    obtain ⟨hq, hpoints⟩ := List.forall_mem_cons.1 hfin
    have hstart : IsLeastNearest x (fun j => (q :: points).getD j .nan) 1 ⟨1, 0, distanceTo x q⟩ :=
      ⟨rfl, Nat.one_pos, rfl, distanceTo_finite hq, fun j hj => by rw [Nat.lt_one_iff.1 hj]; exact le_rfl,
        fun j hj => absurd hj (Nat.not_lt_zero j)⟩
    have hend := isLeastNearest_foldl points hstart
      (fun i _ => by rw [Nat.add_comm 1 i, List.getD_cons_succ]) hpoints
    have hdist := congrArg F64.rat hend.dist
    rw [Nat.add_comm 1] at hend
    exact ⟨hend.below, fun j hj => hdist ▸ hend.nearest j hj, fun j hj => hdist ▸ hend.first j hj⟩

end Sys2Proof.Machine
end

section
/-! The curve and the extractor as wholes (44_curve_sampler.md R141 to R151, 45_arctan_symbolizer.md R160 to R167): the grid of
a block, the angles read from it, the ranges of every value on the way, and the packing of the symbols. -/

namespace Sys2Proof.Machine

theorem getD_map_range {α : Type} (f : Nat → α) (d : α) {n i : Nat} (hi : i < n) :
    ((List.range n).map f).getD i d = f i := by
  simp [List.getD_eq_getElem?_getD, hi]

/-! ### The grid of a block -/

/-- The position of group `i` of a block (R143). -/
def blockPos (block : Word) (i : Nat) : F64 := samplePos i (group block i).toNat

/-- The grid of a block (R145). -/
def blockGrid (block : Word) : Nat → F64 :=
  gridPoint (gridEnds (samplePositions block)).1 (gridEnds (samplePositions block)).2

/-- The index of the grid point nearest the position of group `i` (R149). -/
def blockNearest (block : Word) (i : Nat) : Nat :=
  nearestIndex (blockPos block i) ((List.range nGrid).map (blockGrid block))

theorem blockPos_bounds (block : Word) {i : Nat} (hi : i < 256) :
    (blockPos block i).isFinite = true ∧ 0 ≤ (blockPos block i).rat ∧ (blockPos block i).rat ≤ 516 := by
  obtain ⟨hf, hn⟩ := samplePos_near hi (group block i).isLt
  obtain ⟨o1, o2⟩ := sampleOffset_bounds (group block i).isLt
  have hi0 : (0 : ℚ) ≤ i := Nat.cast_nonneg i
  have hi1 : (i : ℚ) ≤ 255 := by exact_mod_cast (by omega : i ≤ 255)
  rw [abs_le] at hn
  norm_num at hn
  exact ⟨hf, by rw [blockPos]; linarith, by rw [blockPos]; linarith⟩

theorem blockGrid_bounds (block : Word) {k : Nat} (hk : k < 2560) :
    (blockGrid block k).isFinite = true ∧ 18 / 10 ≤ (blockGrid block k).rat ∧ (blockGrid block k).rat ≤ 5163 / 10 := by
  obtain ⟨⟨ha, a1, a2⟩, hb, b1, b2⟩ := gridEnds_bounds block
  exact gridPoint_bounds ha hb a1 a2 b1 b2 hk

theorem blockGrid_spacing (block : Word) {j k : Nat} (hjk : j < k) (hk : k < 2560) :
    ((blockGrid block k).sub (blockGrid block j)).isFinite = true ∧
      19 / 100 < ((blockGrid block k).sub (blockGrid block j)).rat := by
  obtain ⟨⟨ha, a1, a2⟩, hb, b1, b2⟩ := gridEnds_bounds block
  exact gridPoint_spacing ha hb a1 a2 b1 b2 hjk hk

theorem blockGrid_sub_pos_finite (block : Word) {i k : Nat} (hi : i < 256) (hk : k < 2560) :
    ((blockGrid block k).sub (blockPos block i)).isFinite = true := by
  obtain ⟨gf, g1, g2⟩ := blockGrid_bounds block hk
  obtain ⟨pf, p1, p2⟩ := blockPos_bounds block hi
  exact (F64.near_sub gf pf (abs_le.2 ⟨by linarith, by linarith⟩)).1

theorem blockNearest_spec (block : Word) {i : Nat} (hi : i < 256) : blockNearest block i < 2560 ∧
    (∀ k < 2560, (((blockGrid block (blockNearest block i)).sub (blockPos block i)).abs).rat ≤
      (((blockGrid block k).sub (blockPos block i)).abs).rat) ∧
    ∀ k < blockNearest block i, (((blockGrid block (blockNearest block i)).sub (blockPos block i)).abs).rat <
      (((blockGrid block k).sub (blockPos block i)).abs).rat := by
  have hlen : ((List.range nGrid).map (blockGrid block)).length = 2560 := by simp [nGrid]
  have hget {k : Nat} (hk : k < 2560) : ((List.range nGrid).map (blockGrid block)).getD k .nan = blockGrid block k :=
    getD_map_range _ _ hk
  obtain ⟨hlt, hnear, hfirst⟩ := nearestIndexIsLeastMinimiser (blockPos block i) ((List.range nGrid).map (blockGrid block))
    (List.ne_nil_of_length_pos (by rw [hlen]; decide)) fun q hq => by
      obtain ⟨k, hk, rfl⟩ := List.mem_map.1 hq
      exact blockGrid_sub_pos_finite block hi (List.mem_range.1 hk)
  rw [hlen] at hlt hnear
  rw [hget hlt] at hnear hfirst
  refine ⟨hlt, fun k hk => ?_, fun k hk => ?_⟩
  · rw [← hget hk]
    exact hnear k hk
  · rw [← hget (hk.trans hlt)]
    exact hfirst k hk

/-- The angle at a point of the curve, in degrees (R148). -/
def curveAngleAt (num : Numerics) (x y : Nat → F64) (k : Nat) : F64 := (num.atan (gradient x y k)).toDeg

theorem curveAngles_eq (num : Numerics) (block seed : Word) : curveAngles num block seed = (List.range 256).map (fun i =>
    curveAngleAt num (blockGrid block) (fun j => curveAt num (curveParams num seed) (blockGrid block j))
      (blockNearest block i)) := by
  rw [curveAngles, samplePositions, List.map_map]
  rfl

theorem gradient_inner (x y : Nat → F64) {k : Nat} (h1 : 1 ≤ k) (h2 : k ≤ 2558) :
    gradient x y k = slope x y (k - 1) (k + 1) := by
  rw [gradient, if_neg (by omega), if_neg (by unfold nGrid; omega)]

theorem gradient_last (x y : Nat → F64) : gradient x y 2559 = slope x y 2558 2559 := by
  rw [gradient, if_neg (by decide)]
  exact if_pos rfl

/-- Settles O54: the parts are those of `curveAngles`' definition, with the ends of the grid by `gridEnds_spec` and the nearest
points by the search's. -/
theorem curveAnglesFollowTheRules : Obligations.CurveAnglesFollowTheRules := by
  intro num block seed
  obtain ⟨hleast, hgreatest⟩ := gridEnds_spec block
  refine ⟨_, _, _, _, _, (gridEnds (samplePositions block)).1, (gridEnds (samplePositions block)).2, _, blockPos block,
    blockGrid block, fun j => curveAt num (curveParams num seed) (blockGrid block j), gradient _ _, curveAngleAt num _ _,
    blockNearest block, rfl, rfl, rfl, rfl, rfl, ?pos, hleast, hgreatest, rfl, ?grid, gridPoint_last _ _,
    fun _ _ => rfl, ?gradFirst, ?grad, ?gradLast, fun _ _ => rfl, fun i => blockNearest_spec block,
    curveAngles_eq num block seed⟩
  case pos =>
    rintro i _ v rfl
    rw [← group_toNat]
    rfl
  case grid => exact fun k hk => gridPoint_of_lt _ _ hk
  case gradFirst => exact if_pos rfl
  case grad => exact fun k h1 h2 => gradient_inner _ _ h1 h2
  case gradLast => exact gradient_last _ _

/-! ### The ranges of the values (R151, U10) -/

section
variable {num : Numerics} (block seed : Word)

/-- The operand of the first sine of R146. -/
theorem curveOperand_bounds (h : num.Assumed) {k : Nat} (hk : k < 2560) :
    (((curveParams num seed).b.mul (blockGrid block k)).add (curveParams num seed).c).isFinite = true ∧
      |(((curveParams num seed).b.mul (blockGrid block k)).add (curveParams num seed).c).rat| < 5700 := by
  obtain ⟨bf, b1, b2⟩ := curveParams_b_bounds h seed
  obtain ⟨cf, c1, c2⟩ := curveParams_c_bounds num seed
  obtain ⟨xf, x1, x2⟩ := blockGrid_bounds block hk
  rw [pi_rat] at c2
  obtain ⟨mf, m1, m2⟩ := F64.mul_bounds bf xf (-5680) 5680 (by push_cast; nlinarith) (by push_cast; nlinarith)
  push_cast at m1 m2
  obtain ⟨sf, s1, s2⟩ := F64.add_bounds mf cf (-5690) 5690 (by push_cast; linarith) (by push_cast; linarith)
  push_cast at s1 s2
  exact ⟨sf, abs_lt.2 ⟨by linarith, by linarith⟩⟩

theorem div_ten_finite {k : Nat} (hk : k < 2560) : ((blockGrid block k).div (F64.ofNat 10)).isFinite = true := by
  obtain ⟨xf, x1, x2⟩ := blockGrid_bounds block hk
  have ten := F64.ofNat_exact 10 (by norm_num)
  exact (F64.div_bounds xf ten.1 (by rw [ten.2]; norm_num) 0 52 (by rw [ten.2]; push_cast; linarith)
    (by rw [ten.2]; push_cast; linarith)).1

/-- A point of the curve: an amplitude of up to 11 and one of up to 10 (R146, R151). -/
theorem curveAt_bounds (h : num.Assumed) {k : Nat} (hk : k < 2560) :
    (curveAt num (curveParams num seed) (blockGrid block k)).isFinite = true ∧
      |(curveAt num (curveParams num seed) (blockGrid block k)).rat| ≤ 21 := by
  obtain ⟨af, a1, a2⟩ := curveParams_a_bounds h seed
  obtain ⟨df, d1, d2⟩ := curveParams_d_bounds num seed
  obtain ⟨_, sf, s1, s2⟩ := h.1 _ (curveOperand_bounds block seed h hk).1
  obtain ⟨_, tf, t1, t2⟩ := h.1 _ (div_ten_finite block hk)
  obtain ⟨mf, m1, m2⟩ := F64.mul_bounds af sf (-11) 11 (by push_cast; nlinarith) (by push_cast; nlinarith)
  obtain ⟨nf, n1, n2⟩ := F64.mul_bounds df tf (-10) 10 (by push_cast; nlinarith) (by push_cast; nlinarith)
  push_cast at m1 m2 n1 n2
  obtain ⟨yf, y1, y2⟩ := F64.add_bounds mf nf (-21) 21 (by push_cast; linarith) (by push_cast; linarith)
  exact ⟨yf, abs_le.2 ⟨by exact_mod_cast y1, by exact_mod_cast y2⟩⟩

end

/-- A slope of values of at most 21 over more than 0.19 (R147, R151). -/
theorem slope_bounds {x y : Nat → F64} {j k : Nat} (hyj : (y j).isFinite = true ∧ |(y j).rat| ≤ 21)
    (hyk : (y k).isFinite = true ∧ |(y k).rat| ≤ 21)
    (hx : ((x k).sub (x j)).isFinite = true ∧ 19 / 100 < ((x k).sub (x j)).rat) :
    (slope x y j k).isFinite = true ∧ |(slope x y j k).rat| < 250 := by
  obtain ⟨jf, jb⟩ := hyj
  obtain ⟨kf, kb⟩ := hyk
  obtain ⟨xf, x1⟩ := hx
  rw [abs_le] at jb kb
  obtain ⟨sf, s1, s2⟩ := F64.sub_bounds kf jf (-42) 42 (by push_cast; linarith) (by push_cast; linarith)
  push_cast at s1 s2
  have hpos : 0 < ((x k).sub (x j)).rat := by linarith
  obtain ⟨qf, q1, q2⟩ := F64.div_bounds sf xf hpos.ne' (-240) 240
    (by rw [le_div_iff₀ hpos]; push_cast; linarith) (by rw [div_le_iff₀ hpos]; push_cast; linarith)
  push_cast at q1 q2
  exact ⟨qf, abs_lt.2 ⟨by rw [slope]; linarith, by rw [slope]; linarith⟩⟩

/-- Every gradient is a slope between two points of the grid, one to the left of the other. -/
theorem gradient_eq_slope (x y : Nat → F64) {k : Nat} (hk : k < 2560) :
    ∃ i j, i < j ∧ j < 2560 ∧ gradient x y k = slope x y i j := by
  rcases Nat.eq_zero_or_pos k with rfl | h1
  · exact ⟨0, 1, by decide, by decide, if_pos rfl⟩
  rcases Nat.lt_or_ge 2558 k with h2 | h2
  · have hlast : k = 2559 := by omega
    exact ⟨2558, 2559, by decide, by decide, hlast ▸ gradient_last x y⟩
  · exact ⟨k - 1, k + 1, by omega, by omega, gradient_inner x y h1 h2⟩

theorem rad2deg_rat : F64.rad2deg.rat = 1007958012753983 / 17592186044416 := by decide +kernel

theorem rad2deg_finite : F64.rad2deg.isFinite = true := by decide +kernel

/-- An angle of at most `PI ⊘ 2` is one of at most 90 degrees: the exact product is below 90. -/
theorem toDeg_bounds {f : F64} (hf : f.isFinite = true) (h1 : -(F64.pi.div (F64.ofNat 2)).rat ≤ f.rat)
    (h2 : f.rat ≤ (F64.pi.div (F64.ofNat 2)).rat) : f.toDeg.isFinite = true ∧ |f.toDeg.rat| ≤ 90 := by
  rw [halfPi_rat] at h1 h2
  obtain ⟨df, d1, d2⟩ := F64.mul_bounds hf rad2deg_finite (-90) 90 (by rw [rad2deg_rat]; push_cast; linarith)
    (by rw [rad2deg_rat]; push_cast; linarith)
  exact ⟨df, abs_le.2 ⟨by exact_mod_cast d1, by exact_mod_cast d2⟩⟩

/-- An angle of up to 450 degrees has a finite angle in radians. -/
theorem toRad_finite {f : F64} (hf : f.isFinite = true) (h : |f.rat| ≤ 450) : f.toRad.isFinite = true := by
  rw [abs_le] at h
  exact (F64.mul_bounds hf deg2rad_finite (-8) 8 (by rw [deg2rad_rat]; push_cast; linarith)
    (by rw [deg2rad_rat]; push_cast; linarith)).1

theorem mul_finite_of_unit {a b : F64} (ha : a.isFinite = true ∧ -1 ≤ a.rat ∧ a.rat ≤ 1)
    (hb : b.isFinite = true ∧ -1 ≤ b.rat ∧ b.rat ≤ 1) : (a.mul b).isFinite = true := by
  obtain ⟨af, a1, a2⟩ := ha
  obtain ⟨bf, b1, b2⟩ := hb
  exact (F64.mul_bounds af bf (-1) 1 (by push_cast; nlinarith) (by push_cast; nlinarith)).1

/-- The differences that R160 takes are of angles of at most 450 degrees. -/
theorem sub_toRad_finite {theta : F64} (hf : theta.isFinite = true) (ht : |theta.rat| ≤ 90) {n : Nat} (hn : n ≤ 360) :
    ((F64.ofNat n).sub theta).toRad.isFinite = true := by
  obtain ⟨nf, nr⟩ := F64.ofNat_exact n (by omega)
  have hn0 : (0 : ℚ) ≤ n := Nat.cast_nonneg n
  have hn1 : (n : ℚ) ≤ 360 := by exact_mod_cast hn
  rw [abs_le] at ht
  obtain ⟨sf, s1, s2⟩ := F64.sub_bounds nf hf (-450) 450 (by rw [nr]; push_cast; linarith) (by rw [nr]; push_cast; linarith)
  exact toRad_finite sf (abs_le.2 ⟨by exact_mod_cast s1, by exact_mod_cast s2⟩)

section
variable {num : Numerics} (h : num.Assumed)
include h

theorem curveAngleAt_bounds {x y : Nat → F64} {k : Nat} (hg : (gradient x y k).isFinite = true) :
    (curveAngleAt num x y k).isFinite = true ∧ |(curveAngleAt num x y k).rat| ≤ 90 := by
  obtain ⟨_, af, a1, a2⟩ := h.2.2 _ hg
  exact toDeg_bounds af a1 a2

theorem blockGradient_bounds (block seed : Word) {k : Nat} (hk : k < 2560) :
    (gradient (blockGrid block) (fun j => curveAt num (curveParams num seed) (blockGrid block j)) k).isFinite = true ∧
      |(gradient (blockGrid block) (fun j => curveAt num (curveParams num seed) (blockGrid block j)) k).rat| < 250 := by
  obtain ⟨i, j, hij, hj, hslope⟩ := gradient_eq_slope (blockGrid block)
    (fun j => curveAt num (curveParams num seed) (blockGrid block j)) hk
  rw [hslope]
  exact slope_bounds (curveAt_bounds block seed h (hij.trans hj)) (curveAt_bounds block seed h hj)
    (blockGrid_spacing block hij hj)

/-- The angles of a curve are within a quarter turn. -/
theorem curveAngles_bounds (block seed : Word) {theta : F64} (ht : theta ∈ curveAngles num block seed) :
    theta.isFinite = true ∧ |theta.rat| ≤ 90 := by
  rw [curveAngles_eq] at ht
  obtain ⟨i, hi, rfl⟩ := List.mem_map.1 ht
  obtain ⟨hnear, _⟩ := blockNearest_spec block (List.mem_range.1 hi)
  exact curveAngleAt_bounds h (blockGradient_bounds h block seed hnear).1

/-- The four products of R160 have factors in -1 .. 1. -/
theorem probVector_finite {theta : F64} (hf : theta.isFinite = true) (ht : |theta.rat| ≤ 90) :
    (probVector num theta).1.isFinite = true ∧ (probVector num theta).2.1.isFinite = true ∧
      (probVector num theta).2.2.1.isFinite = true ∧ (probVector num theta).2.2.2.isFinite = true := by
  have hrad := toRad_finite hf (ht.trans (by norm_num))
  have hsub {n : Nat} (hn : n ≤ 360) := sub_toRad_finite hf ht hn
  exact ⟨mul_finite_of_unit (h.2.1 _ hrad).2 (h.2.1 _ (hsub (by decide))).2,
    mul_finite_of_unit (h.2.1 _ hrad).2 (h.1 _ (hsub (by decide))).2,
    mul_finite_of_unit (h.1 _ hrad).2 (h.2.1 _ (hsub (by decide))).2,
    mul_finite_of_unit (h.1 _ hrad).2 (h.1 _ (hsub (by decide))).2⟩

end

/-- Settles O55: every bound follows from those of the operands, from the parameters and the positions on. -/
theorem curveValuesAreFinite : Obligations.CurveValuesAreFinite := by
  rintro num block seed _ _ _ _ h rfl rfl rfl rfl
  obtain ⟨seedFinite, seed0, seed1⟩ := seedFrac_bounds seed
  refine ⟨⟨seedFinite, seed0, seed1, seedAngle_finite seed⟩, fun i hi => ?positions,
    fun j k hjk hk => blockGrid_spacing block hjk hk, fun j hj => ?values, fun theta ht => ?angles⟩
  case positions =>
    rw [samplePositions_getD block hi]
    exact ⟨(blockPos_bounds block hi).1, fun j hj => blockGrid_sub_pos_finite block hi hj⟩
  case values =>
    obtain ⟨operandFinite, operandBound⟩ := curveOperand_bounds block seed h hj
    obtain ⟨yFinite, yBound⟩ := curveAt_bounds block seed h hj
    obtain ⟨gFinite, gBound⟩ := blockGradient_bounds h block seed hj
    exact ⟨(blockGrid_bounds block hj).1, div_ten_finite block hj, operandFinite, operandBound, yFinite, yBound, gFinite,
      gBound, curveAngleAt_bounds h gFinite⟩
  case angles =>
    obtain ⟨hf, hb⟩ := curveAngles_bounds h block seed ht
    refine ⟨hf, hb, toRad_finite hf (hb.trans (by norm_num)), fun n hn => ?_, probVector_finite h hf hb⟩
    have hn : n ≤ 360 := (by decide : ∀ n ∈ [360, 270, 180, 90], n ≤ 360) n hn
    exact sub_toRad_finite hf hb hn

/-! ### The packing of the symbols (R165, R166) and EXT -/

/-- Symbols as one integer, the first the most significant. -/
def symbolsToNat (ks : List Nat) : Nat := ks.foldl (fun h k => h * 4 + k) 0

theorem symbolsToNat_append_singleton (ks : List Nat) (k : Nat) : symbolsToNat (ks ++ [k]) = symbolsToNat ks * 4 + k := by
  rw [symbolsToNat, List.foldl_append]
  rfl

theorem symbolsToNat_range_succ (f : Nat → Nat) (n : Nat) :
    symbolsToNat ((List.range (n + 1)).map f) = symbolsToNat ((List.range n).map f) * 4 + f n := by
  rw [List.range_succ, List.map_append, List.map_singleton, symbolsToNat_append_singleton]

theorem symbolsToNat_eq_sum (f : Nat → Nat) (n : Nat) :
    symbolsToNat ((List.range n).map f) = ∑ i ∈ Finset.range n, f i * 2 ^ (2 * n - 2 - 2 * i) := by
  induction n with
  | zero => rfl
  | succ n ih =>
    rw [symbolsToNat_range_succ, ih, Finset.sum_range_succ, Finset.sum_mul, show 2 * (n + 1) - 2 - 2 * n = 0 by omega,
      pow_zero, mul_one]
    congr 1
    refine Finset.sum_congr rfl fun i hi => ?_
    have hi : i < n := Finset.mem_range.1 hi
    rw [show 2 * (n + 1) - 2 - 2 * i = 2 * n - 2 - 2 * i + 2 by omega, pow_add]
    ring

section
variable {f : Nat → Nat} (hf : ∀ i, f i < 4)
include hf

theorem symbolsToNat_lt (n : Nat) : symbolsToNat ((List.range n).map f) < 4 ^ n := by
  induction n with
  | zero => exact Nat.one_pos
  | succ n ih =>
    have := hf n
    rw [symbolsToNat_range_succ, pow_succ]
    omega

/-- Symbol `i` of `n` is the digit to base 4 that has the symbols after it below. -/
theorem symbolsToNat_digit {n i : Nat} (hi : i < n) :
    symbolsToNat ((List.range n).map f) / 4 ^ (n - 1 - i) % 4 = f i := by
  induction n with
  | zero => exact absurd hi (Nat.not_lt_zero i)
  | succ n ih =>
    have hlast := hf n
    rw [symbolsToNat_range_succ]
    rcases Nat.lt_succ_iff_lt_or_eq.1 hi with hlt | rfl
    · rw [show n + 1 - 1 - i = 1 + (n - 1 - i) by omega, pow_add, pow_one, ← Nat.div_div_eq_div_mul,
        show (symbolsToNat ((List.range n).map f) * 4 + f n) / 4 = symbolsToNat ((List.range n).map f) by omega]
      exact ih hlt
    · rw [show i + 1 - 1 - i = 0 by omega, pow_zero, Nat.div_one]
      omega

end

theorem argmaxStep_fst_lt {best : Nat × F64} {n N : Nat} (hb : best.1 < N) (hn : n < N) (p : F64) :
    (argmaxStep best n p).1 < N := by
  rw [argmaxStep]
  split
  · exact hn
  · exact hb

theorem symbol_lt (num : Numerics) (theta : F64) : symbol num theta < 4 :=
  argmaxStep_fst_lt (argmaxStep_fst_lt (argmaxStep_fst_lt (Nat.succ_pos 3) (by decide) _) (by decide) _) (by decide) _

theorem exec_ext {wd wa wb : RegField} (hd : legalReg wd = true) (ha : legalReg wa = true) (hb : legalReg wb = true)
    (s : State) : exec (.ext wd wa wb) s =
      .next (writeReg wd (extractBits Config.num (readReg wa s) (readReg wb s)) s) :=
  ifLegal_of_wellFormed (i := .ext wd wa wb) (Bool.and_eq_true_iff.2 ⟨Bool.and_eq_true_iff.2 ⟨hd, ha⟩, hb⟩) _ _

theorem curveAngles_length (num : Numerics) (block seed : Word) : (curveAngles num block seed).length = 256 := by
  rw [curveAngles_eq, List.length_map, List.length_range]

theorem list_eq_map_range_getD {α : Type} (l : List α) (d : α) : l = (List.range l.length).map fun i => l.getD i d :=
  List.ext_getElem (by simp) fun i hi _ => by simp [hi]

/-- The extractor's value: 256 symbols of two bits each. -/
theorem extractBits_toNat (num : Numerics) (block seed : Word) : (extractBits num block seed).toNat =
    symbolsToNat ((List.range 256).map fun i => symbol num ((curveAngles num block seed).getD i .nan)) := by
  have hlist := list_eq_map_range_getD (curveAngles num block seed) .nan
  rw [curveAngles_length] at hlist
  have hlt := symbolsToNat_lt (fun i => symbol_lt num ((curveAngles num block seed).getD i .nan)) 256
  rw [show 4 = 2 ^ 2 from rfl, ← pow_mul] at hlt
  have hpack : extractBits num block seed = BitVec.ofNat 512
      (symbolsToNat ((List.range 256).map fun i => symbol num ((curveAngles num block seed).getD i .nan))) := by
    conv_lhs => rw [extractBits, hlist, List.map_map]
    rfl
  rw [hpack, BitVec.toNat_ofNat, Nat.mod_eq_of_lt hlt]

/-- Settles O11: the packing puts symbol `i` at the digit to base 4 that is group `i`. -/
theorem extWritesSymbols : Obligations.ExtWritesSymbols := by
  intro wd wa wb s hd ha hb
  refine ⟨_, _, _, exec_ext hd ha hb s, wrote_writeReg _ _ s, rfl, curveAngles_length _ _ _, ?_, fun i hi => ?_⟩
  · rw [extractBits_toNat, symbolsToNat_eq_sum]
  · rw [group_toNat, extractBits_toNat, show 510 - 2 * i = 2 * (256 - 1 - i) by omega, pow_mul]
    exact symbolsToNat_digit (fun i => symbol_lt _ _) hi

end Sys2Proof.Machine
end
